-- ==== Sys2Proof/Word.lean ====
section
/-! DEFINITION. The word types of TQDP and the enumerations of 00_scope.md R11.

Every value of TQDP is an unsigned integer (R8). The numeric codes of the enumerations stand in
Sys2Proof/Decode.lean and Sys2Proof/Machine/Operands.lean. -/

namespace Sys2Proof

/-- A command word or a response word, 32 bits (30_encoding.md R70, R75). -/
abbrev Word := BitVec 32

/-- A byte: an input byte, a codeword, an element of GF(256). -/
abbrev Byte := BitVec 8

/-- `Mode` of 00_scope.md R11, in the order Numeric < Alphanumeric < Byte. -/
inductive Mode where
  | numeric
  | alphanumeric
  | byte
  deriving DecidableEq, Repr

/-- `EcLevel` of 00_scope.md R11, in the order of increasing redundancy. -/
inductive EcLevel where
  | L
  | M
  | Q
  | H
  deriving DecidableEq, Repr

/-- `ClsState` of 00_scope.md R11: the four states of the mode classifier. -/
inductive ClsState where
  | init
  | numeric
  | alpha
  | byte
  deriving DecidableEq, Repr

/-- `Class` of 00_scope.md R11: the exclusive class of a byte (41_classifier.md R110). -/
inductive CharClass where
  | numeric
  | alpha
  | byte
  deriving DecidableEq, Repr

/-- `Tier` of 00_scope.md R11: the three version ranges that share length-field widths. -/
inductive Tier where
  | tier1
  | tier2
  | tier3
  deriving DecidableEq, Repr

end Sys2Proof
end

