-- ==== Sys2Proof/Syntax.lean ====
section
/-! DEFINITION. The fifteen commands of 30_encoding.md R72 as syntax, one constructor a row of
opcode_table.json. Byte operands that the units classify, pack or divide are bytes; addresses,
indexes, counts, lengths and codes are natural numbers whose bound is checked in WellFormed. -/

namespace Sys2Proof

inductive Instr where
  /-- `NOP` (R100) -/
  | nop
  /-- `RST` (R101) -/
  | rst
  /-- `RD.CSR a` (R102) -/
  | rdCsr (a : Nat)
  /-- `CLS.CLR` (R113) -/
  | clsClr
  /-- `CLS.BYTE b` (R114) -/
  | clsByte (b : Byte)
  /-- `CLS.END` (R115) -/
  | clsEnd
  /-- `PCK.INIT ver, ec` (R137) -/
  | pckInit (ver : Nat) (ec : EcLevel)
  /-- `PCK.BITS n, value` (R138) -/
  | pckBits (n value : Nat)
  /-- `PCK.SEG mode, count` (R139): `mode` is the 2-bit code, which may be 3 -/
  | pckSeg (mode count : Nat)
  /-- `PCK.DATA b` (R140) -/
  | pckData (b : Byte)
  /-- `PCK.TERM` (R141) -/
  | pckTerm
  /-- `RD.PBUF idx` (R142) -/
  | rdPbuf (idx : Nat)
  /-- `RSE.START n` (R175) -/
  | rseStart (n : Nat)
  /-- `RSE.DATA b` (R176) -/
  | rseData (b : Byte)
  /-- `RD.EC idx` (R177) -/
  | rdEc (idx : Nat)
  deriving DecidableEq, Repr

/-- The unit column of R72. -/
inductive CmdUnit where
  | system
  | cls
  | pck
  | rse
  deriving DecidableEq, Repr

/-- The unit of a command (R72). -/
def Instr.unit : Instr → CmdUnit
  | .nop => .system
  | .rst => .system
  | .rdCsr _ => .system
  | .clsClr => .cls
  | .clsByte _ => .cls
  | .clsEnd => .cls
  | .pckInit _ _ => .pck
  | .pckBits _ _ => .pck
  | .pckSeg _ _ => .pck
  | .pckData _ => .pck
  | .pckTerm => .pck
  | .rdPbuf _ => .pck
  | .rseStart _ => .rse
  | .rseData _ => .rse
  | .rdEc _ => .rse

end Sys2Proof
end

