-- ==== Sys2Proof/WellFormed.lean ====
section
/-! DEFINITION. Which terms of Instr are commands: every operand fits its field (30_encoding.md R71).
This is the assembler's check of R76: it refuses an operand that does not fit its field, and does
not refuse one that fits but is meaningless. -/

namespace Sys2Proof

/-- Every operand fits its field of R71. -/
def Instr.wellFormed : Instr → Bool
  | .nop => true
  | .rst => true
  | .rdCsr a => decide (a < 2 ^ 8)
  | .clsClr => true
  | .clsByte _ => true
  | .clsEnd => true
  | .pckInit ver _ => decide (ver < 2 ^ 8)
  | .pckBits n value => decide (n < 2 ^ 5) && decide (value < 2 ^ 16)
  | .pckSeg mode count => decide (mode < 2 ^ 2) && decide (count < 2 ^ 16)
  | .pckData _ => true
  | .pckTerm => true
  | .rdPbuf idx => decide (idx < 2 ^ 16)
  | .rseStart n => decide (n < 2 ^ 8)
  | .rseData _ => true
  | .rdEc idx => decide (idx < 2 ^ 16)

end Sys2Proof
end

