-- ==== Sys2Proof/Decode.lean ====
section
/-! DEFINITION. Decoding a command word and encoding a command, both from the formats of
30_encoding.md R71 and the opcode map of R72. A word is a 32-bit value, not a byte sequence
(R70, 20_memory.md R53), so the decoder takes the value. -/

namespace Sys2Proof

/-- `w[hi:lo]` of 00_scope.md R8. -/
def bits (w : Word) (hi lo : Nat) : Nat := w.toNat / 2 ^ lo % 2 ^ (hi + 1 - lo)

/-- Why a word is illegal (R73). -/
inductive Illegal where
  /-- the opcode is not in the table of R72 -/
  | undefinedOpcode
  /-- the opcode is defined and a must-be-zero bit of its format is 1 -/
  | mustBeZero
  deriving DecidableEq, Repr

/-- The code of an error-correction level (R11). -/
def EcLevel.code : EcLevel → Nat
  | .L => 0
  | .M => 1
  | .Q => 2
  | .H => 3

/-- The error-correction level of a 2-bit code (R11). -/
def EcLevel.ofCode : Nat → EcLevel
  | 0 => .L
  | 1 => .M
  | 2 => .Q
  | _ => .H

/-- Check the must-be-zero bits, then take the operands (the last two steps of R72's decoder). -/
def takeOperands (zero : Bool) (i : Instr) : Except Illegal Instr :=
  if zero then .ok i else .error .mustBeZero

/-- The decoder of R72: opcode, then must-be-zero bits, then operands. -/
def decode (w : Word) : Except Illegal Instr :=
  match bits w 31 24 with
  -- format Z: w[23:0] = 0
  | 0x00 => takeOperands (bits w 23 0 == 0) .nop
  | 0x01 => takeOperands (bits w 23 0 == 0) .rst
  | 0x10 => takeOperands (bits w 23 0 == 0) .clsClr
  | 0x12 => takeOperands (bits w 23 0 == 0) .clsEnd
  | 0x24 => takeOperands (bits w 23 0 == 0) .pckTerm
  -- format B: w[23:8] = 0; b = w[7:0]
  | 0x02 => takeOperands (bits w 23 8 == 0) (.rdCsr (bits w 7 0))
  | 0x11 => takeOperands (bits w 23 8 == 0) (.clsByte (BitVec.ofNat 8 (bits w 7 0)))
  | 0x23 => takeOperands (bits w 23 8 == 0) (.pckData (BitVec.ofNat 8 (bits w 7 0)))
  | 0x30 => takeOperands (bits w 23 8 == 0) (.rseStart (bits w 7 0))
  | 0x31 => takeOperands (bits w 23 8 == 0) (.rseData (BitVec.ofNat 8 (bits w 7 0)))
  -- format I: w[23:16] = 0; idx = w[15:0]
  | 0x25 => takeOperands (bits w 23 16 == 0) (.rdPbuf (bits w 15 0))
  | 0x32 => takeOperands (bits w 23 16 == 0) (.rdEc (bits w 15 0))
  -- format V: w[23:16] = 0; ver = w[15:8]; w[7:2] = 0; ec = w[1:0]
  | 0x20 => takeOperands (bits w 23 16 == 0 && bits w 7 2 == 0)
      (.pckInit (bits w 15 8) (EcLevel.ofCode (bits w 1 0)))
  -- format N: w[23:21] = 0; n = w[20:16]; value = w[15:0]
  | 0x21 => takeOperands (bits w 23 21 == 0) (.pckBits (bits w 20 16) (bits w 15 0))
  -- format S: w[23:18] = 0; mode = w[17:16]; count = w[15:0]
  | 0x22 => takeOperands (bits w 23 18 == 0) (.pckSeg (bits w 17 16) (bits w 15 0))
  | _ => .error .undefinedOpcode

/-- The word with opcode `op` and operand bits `low = w[23:0]`. -/
def wordOf (op low : Nat) : Word := BitVec.ofNat 32 (op * 2 ^ 24 + low)

/-- The word of a command: what the assembler of R76 makes of it. On a well-formed command it is
the inverse of `decode`; FCMD is written with it (60_exceptions.md R214, log entry 7). -/
def encode : Instr → Word
  | .nop => wordOf 0x00 0
  | .rst => wordOf 0x01 0
  | .rdCsr a => wordOf 0x02 a
  | .clsClr => wordOf 0x10 0
  | .clsByte b => wordOf 0x11 b.toNat
  | .clsEnd => wordOf 0x12 0
  | .pckInit ver ec => wordOf 0x20 (ver * 2 ^ 8 + ec.code)
  | .pckBits n value => wordOf 0x21 (n * 2 ^ 16 + value)
  | .pckSeg mode count => wordOf 0x22 (mode * 2 ^ 16 + count)
  | .pckData b => wordOf 0x23 b.toNat
  | .pckTerm => wordOf 0x24 0
  | .rdPbuf idx => wordOf 0x25 idx
  | .rseStart n => wordOf 0x30 n
  | .rseData b => wordOf 0x31 b.toNat
  | .rdEc idx => wordOf 0x32 idx

/-- One row of the match and mask table of R78. -/
structure TableRow where
  mtch : Word
  mask : Word
  deriving DecidableEq, Repr

/-- The row of R78 that belongs to a command. -/
def rowOf : Instr → TableRow
  | .nop => ⟨0x00000000, 0xFFFFFFFF⟩
  | .rst => ⟨0x01000000, 0xFFFFFFFF⟩
  | .rdCsr _ => ⟨0x02000000, 0xFFFFFF00⟩
  | .clsClr => ⟨0x10000000, 0xFFFFFFFF⟩
  | .clsByte _ => ⟨0x11000000, 0xFFFFFF00⟩
  | .clsEnd => ⟨0x12000000, 0xFFFFFFFF⟩
  | .pckInit _ _ => ⟨0x20000000, 0xFFFF00FC⟩
  | .pckBits _ _ => ⟨0x21000000, 0xFFE00000⟩
  | .pckSeg _ _ => ⟨0x22000000, 0xFFFC0000⟩
  | .pckData _ => ⟨0x23000000, 0xFFFFFF00⟩
  | .pckTerm => ⟨0x24000000, 0xFFFFFFFF⟩
  | .rdPbuf _ => ⟨0x25000000, 0xFFFF0000⟩
  | .rseStart _ => ⟨0x30000000, 0xFFFFFF00⟩
  | .rseData _ => ⟨0x31000000, 0xFFFFFF00⟩
  | .rdEc _ => ⟨0x32000000, 0xFFFF0000⟩

/-- The rows of R78 in the order of the table. -/
def tableRows : List TableRow :=
  List.map rowOf
    [.nop, .rst, .rdCsr 0, .clsClr, .clsByte 0, .clsEnd, .pckInit 0 .L, .pckBits 0 0, .pckSeg 0 0,
     .pckData 0, .pckTerm, .rdPbuf 0, .rseStart 0, .rseData 0, .rdEc 0]

/-- `w AND mask = match` (R78). -/
def TableRow.matches (row : TableRow) (w : Word) : Bool := w &&& row.mask == row.mtch

/-- What the decoder reads from a table row's word of `nbits` bits with value `w`, the bits above
them zero; `none` where the word is illegal. -/
def decodeTableWord (nbits w : Nat) : Option Instr :=
  (decode (BitVec.ofNat 32 (w % 2 ^ nbits))).toOption

end Sys2Proof
end

