-- ==== Sys2Proof/Config.lean ====
section
/-! DEFINITION. The implementation parameters of 00_scope.md R7: the fixed sizes, and the one OPEN
parameter DATA_CODEWORDS with its constraint. The default table the machine is instantiated with
stands in Sys2Proof/Machine/Tables.lean. -/

namespace Sys2Proof

/-- `PBUF_BYTES` of R7: size of the packer buffer BUF. -/
abbrev pbufBytes : Nat := 4096

/-- `NEC_MAX` of R7: the largest Reed-Solomon remainder length. -/
abbrev necMax : Nat := 30

/-- `VERSION_MIN` of R7. -/
abbrev versionMin : Nat := 1

/-- `VERSION_MAX` of R7. -/
abbrev versionMax : Nat := 40

/-- What an implementation of TQDP fixes: the OPEN parameter of R7. The second field is R7's
constraint on it (92_eei_decisions.md D12): a table that violates it is no configuration
(93_implementation_defined.md U14). -/
structure Config where
  dataCodewords : Nat → EcLevel → Nat
  bounded : ∀ v e, versionMin ≤ v → v ≤ versionMax →
    1 ≤ dataCodewords v e ∧ dataCodewords v e ≤ pbufBytes

end Sys2Proof
end

