-- ==== Sys2Proof/Machine/State.lean ====
section
/-! DEFINITION. The state of TQDP: the tuple of 10_state.md R20, field by field, and beside it the
host's two lists, which R21 says are not state of TQDP: what the host will present, and the responses
delivered so far. Then the reset state, and the reasons a step can stop. -/

namespace Sys2Proof.Machine

/-- The values of CAUSE, 0..7 (60_exceptions.md R211). Codes 8..15 are never written and cannot be
written down (93_implementation_defined.md U10). -/
inductive Cause where
  /-- code 0: the value of CAUSE while FAULT = 0 -/
  | none
  | dataTooLong
  | invalidVersion
  | illegalCommand
  | illegalOperand
  | badSequence
  | badChar
  | counterOverflow
  deriving DecidableEq, Repr

/-- The response of a command (30_encoding.md R75). -/
inductive Response where
  | none
  | word (v : Word)
  | seg (mode : Mode) (first last : BitVec 16)
  deriving DecidableEq, Repr

/-- What the host does at the ports (R74): present a command word on `cmd`, or assert and release
`rst` between two command transactions (70_reset_and_hazards.md R240). -/
inductive Input where
  | cmd (w : Word)
  | rst
  deriving DecidableEq, Repr

/-- The buffer BUF: the bytes that are not 0, as address and byte pairs in one canonical form. -/
abbrev Memory := List Host.Cell

/-- The state tuple of R20, and the host's two lists. -/
structure State where
  /-- FAULT: set by any fault, until reset -/
  fault : Bool
  /-- CAUSE -/
  cause : Cause
  /-- FCMD: the command word that faulted -/
  fcmd : Word
  /-- CSTATE: the classifier's state -/
  cstate : ClsState
  /-- POS: input bytes consumed since the input began -/
  pos : BitVec 16
  /-- BEGIN: where the segment in progress began -/
  segBegin : BitVec 16
  /-- VERSION: the target version, 0 = none set -/
  version : BitVec 6
  /-- ECL: the error-correction level -/
  ecl : EcLevel
  /-- LEN: bits appended to the buffer -/
  len : BitVec 16
  /-- BUF[0..4095] -/
  buf : Memory
  /-- CURMODE: mode of the open, or last opened, segment -/
  curMode : Mode
  /-- REM: characters of the open segment not yet received -/
  rem : BitVec 16
  /-- ACC: value of the partial group -/
  acc : BitVec 7
  /-- ACCN: characters in the partial group, 0..2 -/
  accN : Fin 3
  /-- N: remainder length 1..30, 0 = not started -/
  n : Fin 31
  /-- R[0..29]: the remainder registers -/
  r : Vector Byte 30
  /-- what the host will present, first one first (log entry 1; not state of TQDP, R21) -/
  inbox : List Input
  /-- the responses delivered so far, NEWEST first (log entry 2; not state of TQDP, R21); no
  meaning reads it -/
  resps : List Response
  deriving DecidableEq, Repr

/-- The state after reset: the last column of R20, which is complete (R240). The host has presented
nothing and has received nothing. -/
def State.reset : State where
  fault := false
  cause := .none
  fcmd := 0#32
  cstate := .init
  pos := 0#16
  segBegin := 0#16
  version := 0#6
  ecl := .M
  len := 0#16
  buf := []
  curMode := .numeric
  rem := 0#16
  acc := 0#7
  accN := 0
  n := 0
  r := Vector.replicate 30 0#8
  inbox := []
  resps := []

/-- Why the model's step stops. A fault of TQDP is NOT one of these: it is a next state (R6). -/
inductive Fault where
  /-- Raised by `step` alone, when the host has presented nothing: there is no command, so there is
  no step (70_reset_and_hazards.md R246: a run ends when the host stops issuing commands). Safe:
  nothing is claimed of a step that is not taken (log entry 3). -/
  | noInput
  deriving DecidableEq, Repr

/-- Why the model gives an instruction no meaning. -/
inductive Refusal where
  /-- Raised by an arm of `exec` whose instruction has no meaning yet. Safe. No arm raises it in
  this model. -/
  | notModelled (mnemonic : String)
  deriving DecidableEq, Repr

/-- What the pseudocode of a command comes to, once the command executes: `raise X`, which ends it
with no other effect, or a new state and a response (00_scope.md R10). -/
inductive Effect where
  | raise (c : Cause)
  | done (t : State) (resp : Response)
  deriving DecidableEq, Repr

/-- What `PCK.DATA` makes of one character (42_packer.md R140): no encoding in this mode; a complete
group of `n` bits with value `v`; or a partial group to keep. -/
inductive Group where
  | bad
  | emit (n v : Nat)
  | keep (acc k : Nat)
  deriving DecidableEq, Repr

end Sys2Proof.Machine
end

