-- ==== Sys2Proof/Machine/Operands.lean ====
section
/-! DEFINITION. Operand forms and enumeration codes (00_scope.md R11), and the layout of a response on
the port `resp` (30_encoding.md R75). An operand of 30_encoding.md R71 is used as it stands: the only
ones that need reading are the mode code, the version and the byte of a character. -/

namespace Sys2Proof.Machine

/-- The code of a mode (R11). -/
def modeCode : Mode → Nat
  | .numeric => 0
  | .alphanumeric => 1
  | .byte => 2

/-- The mode of a code; code 3 is not a mode (R11). -/
def modeOfCode : Nat → Option Mode
  | 0 => some .numeric
  | 1 => some .alphanumeric
  | 2 => some .byte
  | _ => none

/-- The code of a classifier state (R11). -/
def clsStateCode : ClsState → Nat
  | .init => 0
  | .numeric => 1
  | .alpha => 2
  | .byte => 3

/-- `mode_of(s)` of R11, defined for `s ≠ Init`. -/
def modeOf : ClsState → Option Mode
  | .init => none
  | .numeric => some .numeric
  | .alpha => some .alphanumeric
  | .byte => some .byte

/-- `tier(v)` of R11, defined for versions 1..40. -/
def tierOf (v : Nat) : Tier :=
  if v ≤ 9 then .tier1 else if v ≤ 26 then .tier2 else .tier3

/-- The code of a cause (60_exceptions.md R211). -/
def causeCode : Cause → Nat
  | .none => 0
  | .dataTooLong => 1
  | .invalidVersion => 2
  | .illegalCommand => 3
  | .illegalOperand => 4
  | .badSequence => 5
  | .badChar => 6
  | .counterOverflow => 7

/-- `resp_kind` of R75. -/
def respKind : Response → BitVec 2
  | .none => 0#2
  | .word _ => 1#2
  | .seg _ _ _ => 2#2

/-- `resp_data` of R75. -/
def respData : Response → BitVec 34
  | .none => 0#34
  | .word v => BitVec.ofNat 34 v.toNat
  | .seg m first last => BitVec.ofNat 34 (modeCode m * 2 ^ 32 + first.toNat * 2 ^ 16 + last.toNat)

end Sys2Proof.Machine
end

