-- ==== Sys2Proof/Machine/Flags.lean ====
section
/-! DEFINITION. The status bits and the control and status registers: a read-only window onto the
state (10_state.md R25 to R27). -/

namespace Sys2Proof.Machine

/-- `SEGOPEN = (REM ≠ 0)` (R25). -/
def segOpen (s : State) : Bool := s.rem != 0#16

/-- `RSACTIVE = (N ≠ 0)` (R25). -/
def rsActive (s : State) : Bool := s.n != 0

/-- The fault line, equal to FAULT at all times (60_exceptions.md R218). -/
def irqFault (s : State) : Bool := s.fault

/-- STATUS (R27): FAULT at bit 0, CAUSE at 7:4, CSTATE at 9:8, SEGOPEN at 10, RSACTIVE at 11. -/
def statusWord (s : State) : Word :=
  BitVec.ofNat 32 (s.fault.toNat + causeCode s.cause * 2 ^ 4 + clsStateCode s.cstate * 2 ^ 8 +
    (segOpen s).toNat * 2 ^ 10 + (rsActive s).toNat * 2 ^ 11)

/-- CLSPOS (R27): POS at 15:0, BEGIN at 31:16. -/
def clsPosWord (s : State) : Word := BitVec.ofNat 32 (s.pos.toNat + s.segBegin.toNat * 2 ^ 16)

/-- PCKCFG (R27): VERSION at 5:0, ECL at 9:8. -/
def pckCfgWord (s : State) : Word := BitVec.ofNat 32 (s.version.toNat + s.ecl.code * 2 ^ 8)

/-- PCKLEN (R27): LEN at 15:0. -/
def pckLenWord (s : State) : Word := BitVec.ofNat 32 s.len.toNat

/-- PCKSEG (R27): REM at 15:0, CURMODE at 17:16, ACCN at 19:18, ACC at 26:20. -/
def pckSegWord (s : State) : Word :=
  BitVec.ofNat 32 (s.rem.toNat + modeCode s.curMode * 2 ^ 16 + s.accN.val * 2 ^ 18 +
    s.acc.toNat * 2 ^ 20)

/-- RSECFG (R27): N at 4:0. -/
def rseCfgWord (s : State) : Word := BitVec.ofNat 32 s.n.val

/-- `MemRead(CSR, a, 4)` (20_memory.md R50): the word of R27 at address `a`; addresses 7 and up are
not implemented (R26). -/
def csrRead (s : State) : Nat → Option Word
  | 0 => some (statusWord s)
  | 1 => some s.fcmd
  | 2 => some (clsPosWord s)
  | 3 => some (pckCfgWord s)
  | 4 => some (pckLenWord s)
  | 5 => some (pckSegWord s)
  | 6 => some (rseCfgWord s)
  | _ => none

end Sys2Proof.Machine
end

