-- ==== Sys2Proof/Machine/Tables.lean ====
section
/-! DEFINITION. The packer's tables (42_packer.md R131 to R134) and the character classes
(41_classifier.md R110, R111). -/

namespace Sys2Proof.Machine

/-- `Class(b)`, the exclusive class of a byte (R110). -/
def classOf (b : Byte) : CharClass :=
  if 0x30 ≤ b.toNat ∧ b.toNat ≤ 0x39 then .numeric
  else if 0x41 ≤ b.toNat ∧ b.toNat ≤ 0x5A then .alpha
  else if b.toNat ∈ [0x20, 0x24, 0x25, 0x2A, 0x2B, 0x2D, 0x2E, 0x2F, 0x3A] then .alpha
  else .byte

/-- `StateOf(c)` (R111). -/
def stateOf : CharClass → ClsState
  | .numeric => .numeric
  | .alpha => .alpha
  | .byte => .byte

/-- `MODE_IND(m)`, the 4-bit mode indicator (R131). -/
def modeInd : Mode → Nat
  | .numeric => 0b0001
  | .alphanumeric => 0b0010
  | .byte => 0b0100

/-- `LEN_BITS(m, t)`, the width of the length field (R132). -/
def lenBitsOfTier : Mode → Tier → Nat
  | .numeric, .tier1 => 10
  | .numeric, .tier2 => 12
  | .numeric, .tier3 => 14
  | .alphanumeric, .tier1 => 9
  | .alphanumeric, .tier2 => 11
  | .alphanumeric, .tier3 => 13
  | .byte, .tier1 => 8
  | .byte, .tier2 => 16
  | .byte, .tier3 => 16

/-- `LenBits(m, v) = LEN_BITS(m, tier(v))` (R132). -/
def lenBits (m : Mode) (v : Nat) : Nat := lenBitsOfTier m (tierOf v)

/-- The value of one of the nine alphanumeric symbols (R133, its last nine rows). -/
def symbolValue : Nat → Option Nat
  | 0x20 => some 36
  | 0x24 => some 37
  | 0x25 => some 38
  | 0x2A => some 39
  | 0x2B => some 40
  | 0x2D => some 41
  | 0x2E => some 42
  | 0x2F => some 43
  | 0x3A => some 44
  | _ => none

/-- `ALNUM_VALUE(b)`, undefined (`none`) for a byte that is not Alphanumeric-capable (R133). -/
def alnumValue (b : Byte) : Option Nat :=
  if 0x30 ≤ b.toNat ∧ b.toNat ≤ 0x39 then some (b.toNat - 0x30)
  else if 0x41 ≤ b.toNat ∧ b.toNat ≤ 0x5A then some (b.toNat - 0x41 + 10)
  else symbolValue b.toNat

/-- The columns L, M, Q, H of one row of the table of R134. -/
def capRow (l m q h : Nat) : EcLevel → Nat
  | .L => l
  | .M => m
  | .Q => q
  | .H => h

/-- The table of R134, versions 1..10. -/
def capRows1 : List (EcLevel → Nat) :=
  [capRow 19 16 13 9, capRow 34 28 22 16, capRow 55 44 34 26, capRow 80 64 48 36,
   capRow 108 86 62 46, capRow 136 108 76 60, capRow 156 124 88 66, capRow 194 154 110 86,
   capRow 232 182 132 100, capRow 274 216 154 122]

/-- The table of R134, versions 11..20. -/
def capRows2 : List (EcLevel → Nat) :=
  [capRow 324 254 180 140, capRow 370 290 206 158, capRow 428 334 244 180, capRow 461 365 261 197,
   capRow 523 415 295 223, capRow 589 453 325 253, capRow 647 507 367 283, capRow 721 563 397 313,
   capRow 795 627 445 341, capRow 861 669 485 385]

/-- The table of R134, versions 21..30. -/
def capRows3 : List (EcLevel → Nat) :=
  [capRow 932 714 512 406, capRow 1006 782 568 442, capRow 1094 860 614 464,
   capRow 1174 914 664 514, capRow 1276 1000 718 538, capRow 1370 1062 754 596,
   capRow 1468 1128 808 628, capRow 1531 1193 871 661, capRow 1631 1267 911 701,
   capRow 1735 1373 985 745]

/-- The table of R134, versions 31..40. -/
def capRows4 : List (EcLevel → Nat) :=
  [capRow 1843 1455 1033 793, capRow 1955 1541 1115 845, capRow 2071 1631 1171 901,
   capRow 2191 1725 1231 961, capRow 2306 1812 1286 986, capRow 2434 1914 1354 1054,
   capRow 2566 1992 1426 1096, capRow 2702 2102 1502 1142, capRow 2812 2216 1582 1222,
   capRow 2956 2334 1666 1276]

/-- The default table of R134. Outside versions 1..40 it is not looked up (R136). -/
def defaultDataCodewords (v : Nat) (e : EcLevel) : Nat :=
  ((capRows1 ++ capRows2 ++ capRows3 ++ capRows4).getD (v - 1) (capRow 1 1 1 1)) e

/-- The default table keeps R7's constraint. -/
theorem defaultDataCodewords_bounded (v : Nat) (e : EcLevel) (h1 : versionMin ≤ v)
    (h40 : v ≤ versionMax) :
    1 ≤ defaultDataCodewords v e ∧ defaultDataCodewords v e ≤ pbufBytes := by
  unfold versionMin at h1
  unfold versionMax at h40
  interval_cases v <;> cases e <;> decide

/-- The configuration TQDP is instantiated with: the default printed in R134 (log entry 5). -/
def defaultConfig : Config where
  dataCodewords := defaultDataCodewords
  bounded := defaultDataCodewords_bounded

end Sys2Proof.Machine
end

