-- ==== Sys2Proof/Machine/Ops.lean ====
section
/-! DEFINITION. The shared operations: responding, raising a fault, the gate of the faulted state,
reset, the buffer BUF as a canonical list, and the packer's `Cap` and `Push`. -/

namespace Sys2Proof.Machine

/-! ### Responses, faults, the gate, reset -/

/-- Deliver the response of the command being executed (30_encoding.md R75). -/
def respond (resp : Response) (s : State) : State := { s with resps := resp :: s.resps }

/-- `raise X` with `FAULT = 0`: exactly the three fault registers change, and the response is `none`
(60_exceptions.md R214). `w` is the command word being executed. -/
def raiseFault (c : Cause) (w : Word) (s : State) : State :=
  respond .none { s with fault := true, cause := c, fcmd := w }

/-- The precondition gate of every command but `RST` and a valid `RD.CSR`: ignored while
`FAULT = 1` (60_exceptions.md R215), else its pseudocode takes effect. -/
def gated (i : Instr) (s : State) (e : Effect) : Host.Outcome State Fault Refusal :=
  if s.fault then .next (respond .none s)
  else match e with
    | .raise c => .next (raiseFault c (encode i) s)
    | .done t resp => .next (respond resp t)

/-- Executing an illegal word (30_encoding.md R73): IllegalCommand, or ignored while `FAULT = 1`. -/
def executeIllegal (w : Word) (s : State) : State :=
  if s.fault then respond .none s else raiseFault .illegalCommand w s

/-- Every element of the state tuple takes its reset value (70_reset_and_hazards.md R240); the
host's lists are the host's. -/
def resetTuple (s : State) : State := { State.reset with inbox := s.inbox, resps := s.resps }

/-! ### The buffer -/

/-- `MemRead(PBUF, a, 1) = BUF[a]` (20_memory.md R50). A byte that is not listed is 0, the reset
value of BUF (10_state.md R20). -/
def Memory.read : Memory → Nat → Byte
  | [], _ => 0#8
  | (a, b) :: m, x => if a = x then b else Memory.read m x

/-- Addresses strictly rising, from `lo` at the lowest and below 4096, and no byte 0 listed. -/
def Memory.canonicalFrom : Nat → Memory → Bool
  | _, [] => true
  | lo, (a, b) :: m => decide (lo ≤ a) && decide (a < pbufBytes) && (b != 0#8) &&
      Memory.canonicalFrom (a + 1) m

/-- The canonical form: addresses strictly rising and below 4096, no entry equal to what an unlisted
byte reads as. -/
def Memory.wf (m : Memory) : Bool := Memory.canonicalFrom 0 m

/-- Put a byte into the list, keeping the canonical form. -/
def Memory.put : Memory → Nat → Byte → Memory
  | [], x, v => if v = 0#8 then [] else [(x, v)]
  | (a, b) :: m, x, v =>
    if x < a then (if v = 0#8 then (a, b) :: m else (x, v) :: (a, b) :: m)
    else if x = a then (if v = 0#8 then m else (x, v) :: m)
    else (a, b) :: Memory.put m x v

/-- `BUF[x] <- v`. There is no byte at 4096 and up (20_memory.md R50), and no command writes there
(42_packer.md R135, R136): such a write stores nothing (log entry 8). -/
def Memory.write (m : Memory) (x : Nat) (v : Byte) : Memory :=
  if x < pbufBytes then Memory.put m x v else m

/-- Bit `k` of byte `b` becomes `v`. -/
def setBit (b : Byte) (k : Nat) (v : Bool) : Byte :=
  if v then b ||| (1#8 <<< k) else b &&& ~~~(1#8 <<< k)

/-- The bit at stream position `p`: bit `7 − (p mod 8)` of byte `p div 8` (00_scope.md R9). -/
def Memory.readBit (m : Memory) (p : Nat) : Bool := (Memory.read m (p / 8)).getLsbD (7 - p % 8)

/-- Store a bit at stream position `p` (00_scope.md R9). -/
def Memory.writeBit (m : Memory) (p : Nat) (v : Bool) : Memory :=
  Memory.write m (p / 8) (setBit (Memory.read m (p / 8)) (7 - p % 8) v)

/-- The loop of `Push` (42_packer.md R135): `n` bits of `v`, most significant first, from stream
position `p` on. -/
def Memory.pushBits (m : Memory) (p : Nat) : Nat → Nat → Memory
  | 0, _ => m
  | n + 1, v => Memory.pushBits (Memory.writeBit m p (v.testBit n)) (p + 1) n v

/-! ### The packer's primitives -/

/-- `Push(n, v)` (42_packer.md R135). -/
def push (n v : Nat) (s : State) : State :=
  { s with
    buf := Memory.pushBits s.buf s.len.toNat n v
    len := BitVec.ofNat 16 (s.len.toNat + n) }

/-- `LEN <- l`: appending zero bits to a buffer whose bits from LEN on are 0 (R135). -/
def setLen (l : Nat) (s : State) : State := { s with len := BitVec.ofNat 16 l }

/-- `Cap()` (42_packer.md R136); `none` where it raises InvalidVersion. -/
def capacity (cfg : Config) (s : State) : Option Nat :=
  if s.version.toNat < versionMin ∨ versionMax < s.version.toNat then none
  else some (8 * cfg.dataCodewords s.version.toNat s.ecl)

end Sys2Proof.Machine
end

