-- ==== Sys2Proof/Machine/Classifier.lean ====
section
/-! DEFINITION. Unit CLS, the mode classifier (41_classifier.md). -/

namespace Sys2Proof.Machine

/-- The classifier back in Init at position 0. -/
def clsClear (s : State) : State := { s with cstate := .init, pos := 0#16, segBegin := 0#16 }

/-- `CLS.CLR` (R113): the segment in progress is discarded. -/
def execClsClr (s : State) : Host.Outcome State Fault Refusal :=
  gated .clsClr s (.done (clsClear s) .none)

/-- The pseudocode of `CLS.BYTE` (R114), the table of R112: from Init no segment is emitted; a byte of
the run's class only counts; a byte of another class closes the segment `[BEGIN, POS)`. -/
def clsByteEffect (b : Byte) (s : State) : Effect :=
  if s.pos.toNat = 0xFFFF then .raise .counterOverflow
  else
    let t := stateOf (classOf b)
    let counted := BitVec.ofNat 16 (s.pos.toNat + 1)
    match modeOf s.cstate with
    | none => .done { s with cstate := t, segBegin := s.pos, pos := counted } .none
    | some m =>
      if s.cstate = t then .done { s with pos := counted } .none
      else .done { s with cstate := t, segBegin := s.pos, pos := counted }
        (.seg m s.segBegin s.pos)

/-- `CLS.BYTE b` (R114). -/
def execClsByte (b : Byte) (s : State) : Host.Outcome State Fault Refusal :=
  gated (.clsByte b) s (clsByteEffect b s)

/-- The pseudocode of `CLS.END` (R115): the last segment is emitted, if there is one. -/
def clsEndEffect (s : State) : Effect :=
  match modeOf s.cstate with
  | none => .done (clsClear s) .none
  | some m => .done (clsClear s) (.seg m s.segBegin s.pos)

/-- `CLS.END` (R115). -/
def execClsEnd (s : State) : Host.Outcome State Fault Refusal := gated .clsEnd s (clsEndEffect s)

end Sys2Proof.Machine
end

