-- ==== Sys2Proof/Machine/Packer.lean ====
section
/-! DEFINITION. Unit PCK, the bit-stream packer and padding-filler (42_packer.md). The pseudocode of a
command that needs the capacity takes the configuration as an argument; the meanings are at
`defaultConfig`. -/

namespace Sys2Proof.Machine

/-- The pseudocode of `PCK.INIT` (R137). -/
def pckInitEffect (ver : Nat) (ec : EcLevel) (s : State) : Effect :=
  if ver < versionMin ∨ versionMax < ver then .raise .invalidVersion
  else .done { s with
    version := BitVec.ofNat 6 ver, ecl := ec, len := 0#16, buf := [],
    curMode := .numeric, rem := 0#16, acc := 0#7, accN := 0 } .none

/-- `PCK.INIT ver, ec` (R137). -/
def execPckInit (ver : Nat) (ec : EcLevel) (s : State) : Host.Outcome State Fault Refusal :=
  gated (.pckInit ver ec) s (pckInitEffect ver ec s)

/-- The pseudocode of `PCK.BITS` (R138). -/
def pckBitsEffect (cfg : Config) (n value : Nat) (s : State) : Effect :=
  if 16 < n ∨ 2 ^ n ≤ value then .raise .illegalOperand
  else if s.rem ≠ 0#16 then .raise .badSequence
  else match capacity cfg s with
    | none => .raise .invalidVersion
    | some c =>
      if c < s.len.toNat + n then .raise .dataTooLong
      else .done (push n value s) .none

/-- `PCK.BITS n, value` (R138). -/
def execPckBits (n value : Nat) (s : State) : Host.Outcome State Fault Refusal :=
  gated (.pckBits n value) s (pckBitsEffect defaultConfig n value s)

/-- The pseudocode of `PCK.SEG` (R139). -/
def pckSegEffect (cfg : Config) (mode count : Nat) (s : State) : Effect :=
  match modeOfCode mode with
  | none => .raise .illegalOperand
  | some m =>
    if s.rem ≠ 0#16 then .raise .badSequence
    else match capacity cfg s with
      | none => .raise .invalidVersion
      | some c =>
        let wd := lenBits m s.version.toNat
        if 2 ^ wd ≤ count then .raise .dataTooLong
        else if c < s.len.toNat + 4 + wd then .raise .dataTooLong
        else .done { push wd count (push 4 (modeInd m) s) with
          curMode := m, rem := BitVec.ofNat 16 count, acc := 0#7, accN := 0 } .none

/-- `PCK.SEG mode, count` (R139). -/
def execPckSeg (mode count : Nat) (s : State) : Host.Outcome State Fault Refusal :=
  gated (.pckSeg mode count) s (pckSegEffect defaultConfig mode count s)

/-- The case distinction of `PCK.DATA` (R140): what the next character makes of the partial group
`acc`, `accN`, when `rem1` characters follow it. -/
def dataGroup (mode : Mode) (acc accN rem1 : Nat) (b : Byte) : Group :=
  match mode with
  | .numeric =>
    if b.toNat < 0x30 ∨ 0x39 < b.toNat then .bad
    else
      let a := acc * 10 + (b.toNat - 0x30)
      let k := accN + 1
      if k = 3 then .emit 10 a
      else if rem1 = 0 then .emit (if k = 2 then 7 else 4) a
      else .keep a k
  | .alphanumeric =>
    match alnumValue b with
    | none => .bad
    | some x =>
      if accN = 1 then .emit 11 (acc * 45 + x)
      else if rem1 = 0 then .emit 6 x
      else .keep x 1
  | .byte => .emit 8 b.toNat

/-- The pseudocode of `PCK.DATA` (R140). -/
def pckDataEffect (cfg : Config) (b : Byte) (s : State) : Effect :=
  if s.rem = 0#16 then .raise .badSequence
  else match capacity cfg s with
    | none => .raise .invalidVersion
    | some c =>
      let rem1 := s.rem.toNat - 1
      match dataGroup s.curMode s.acc.toNat s.accN.val rem1 b with
      | .bad => .raise .badChar
      | .emit n v =>
        if c < s.len.toNat + n then .raise .dataTooLong
        else .done { push n v s with acc := 0#7, accN := 0, rem := BitVec.ofNat 16 rem1 } .none
      | .keep a k =>
        .done { s with
          acc := BitVec.ofNat 7 a, accN := Fin.ofNat 3 k, rem := BitVec.ofNat 16 rem1 } .none

/-- `PCK.DATA b` (R140). -/
def execPckData (b : Byte) (s : State) : Host.Outcome State Fault Refusal :=
  gated (.pckData b) s (pckDataEffect defaultConfig b s)

/-- Step 3 of `PCK.TERM` (R141): `k` pad codewords, `0xEC` when `even`, then alternating. -/
def padCodewords : Nat → Bool → State → State
  | 0, _, s => s
  | k + 1, even, s => padCodewords k (!even) (push 8 (if even then 0xEC else 0x11) s)

/-- LEN after steps 1 and 2 of `PCK.TERM` (R141), from `LEN = l ≤ c`: the terminator, and the zero
fill to the next byte boundary. -/
def terminatedLen (c l : Nat) : Nat :=
  let l1 := l + min 4 (c - l)
  if l1 < c then 8 * ((l1 + 7) / 8) else l1

/-- The four steps of `PCK.TERM` (R141) at capacity `c`, for `LEN ≤ c`. The loop of step 3 runs
`(c − LEN) div 8` times, since each turn adds 8 to LEN. -/
def terminate (c : Nat) (s : State) : State :=
  let s2 := setLen (terminatedLen c s.len.toNat) s
  let s3 := padCodewords ((c - s2.len.toNat) / 8) true s2
  if s3.len.toNat < c then setLen c s3 else s3

/-- The pseudocode of `PCK.TERM` (R141). -/
def pckTermEffect (cfg : Config) (s : State) : Effect :=
  if s.rem ≠ 0#16 then .raise .badSequence
  else match capacity cfg s with
    | none => .raise .invalidVersion
    | some c => if c < s.len.toNat then .raise .dataTooLong else .done (terminate c s) .none

/-- `PCK.TERM` (R141). -/
def execPckTerm (s : State) : Host.Outcome State Fault Refusal :=
  gated .pckTerm s (pckTermEffect defaultConfig s)

/-- `RD.PBUF idx` (R142). -/
def execRdPbuf (idx : Nat) (s : State) : Host.Outcome State Fault Refusal :=
  gated (.rdPbuf idx) s
    (if pbufBytes ≤ idx then .raise .illegalOperand
     else .done s (.word ((Memory.read s.buf idx).setWidth 32)))

end Sys2Proof.Machine
end

