-- ==== Sys2Proof/Machine/Gf.lean ====
section
/-! DEFINITION. GF(256) and the generator polynomials of 43_reed_solomon.md (R171, R173). A polynomial is
the list of its coefficients, highest power first (R174). -/

namespace Sys2Proof.Machine

/-- The first loop of `gmul` in R171: the product of two bytes as polynomials over GF(2). -/
def carrylessMul (a b : Byte) : BitVec 15 :=
  [0, 1, 2, 3, 4, 5, 6, 7].foldl
    (fun acc i => if b.getLsbD i then acc ^^^ (a.setWidth 15 <<< i) else acc) 0#15

/-- The second loop of `gmul` in R171: reduction modulo `GF_POLY = 0x11D`. -/
def reduceGf (p : BitVec 15) : Byte :=
  ([14, 13, 12, 11, 10, 9, 8].foldl
    (fun acc i => if acc.getLsbD i then acc ^^^ (0x11D#15 <<< (i - 8)) else acc)
    p).setWidth 8

/-- `gmul(a, b)` (R171). -/
def gmul (a b : Byte) : Byte := reduceGf (carrylessMul a b)

/-- `α^i`, with the primitive element `α = 0x02` (R171; `EXP[i]` of R172 for `i` in 0..254). -/
def alphaPow : Nat → Byte
  | 0 => 1#8
  | i + 1 => gmul (alphaPow i) 2#8

/-- `g(x) (x ⊕ a)`, highest power first. -/
def mulLinear (g : List Byte) (a : Byte) : List Byte :=
  List.zipWith (· ^^^ ·) (g ++ [0#8]) (0#8 :: g.map fun c => gmul c a)

/-- The generator polynomial `g_n(x) = (x ⊕ α^0) ... (x ⊕ α^(n−1))` with its leading 1 (R173). -/
def genPoly : Nat → List Byte
  | 0 => [1#8]
  | n + 1 => mulLinear (genPoly n) (alphaPow n)

/-- `G_n[0..n−1]`: the coefficients of `g_n(x)` below the leading one (R173). -/
def genCoeffs (n : Nat) : List Byte := (genPoly n).tail

end Sys2Proof.Machine
end

