-- ==== Sys2Proof/Machine/ReedSolomon.lean ====
section
/-! DEFINITION. Unit RSE, the Reed-Solomon encoder (43_reed_solomon.md). -/

namespace Sys2Proof.Machine

/-- The pseudocode of `RSE.START` (R175). -/
def rseStartEffect (n : Nat) (s : State) : Effect :=
  if n = 0 ∨ necMax < n then .raise .illegalOperand
  else .done { s with n := Fin.ofNat 31 n, r := Vector.replicate 30 0#8 } .none

/-- `RSE.START n` (R175). -/
def execRseStart (n : Nat) (s : State) : Host.Outcome State Fault Refusal :=
  gated (.rseStart n) s (rseStartEffect n s)

/-- The shift register of `RSE.DATA` (R176), with `g = G_N` and `f = b ⊕ R[0]`: below `N − 1` each
register takes its right neighbour and its tap, `R[N−1]` takes its tap alone, and the registers from
`N` on are not written. -/
def shiftRegister (n : Nat) (g : List Byte) (f : Byte) (r : Vector Byte 30) : Vector Byte 30 :=
  Vector.ofFn fun i : Fin 30 =>
    if i.val + 1 < n then r.toList.getD (i.val + 1) 0#8 ^^^ gmul (g.getD i.val 0#8) f
    else if i.val + 1 = n then gmul (g.getD i.val 0#8) f
    else r[i]

/-- The pseudocode of `RSE.DATA` (R176). -/
def rseDataEffect (b : Byte) (s : State) : Effect :=
  if s.n = 0 then .raise .badSequence
  else .done { s with r := shiftRegister s.n.val (genCoeffs s.n.val) (b ^^^ s.r[0]) s.r } .none

/-- `RSE.DATA b` (R176). -/
def execRseData (b : Byte) (s : State) : Host.Outcome State Fault Refusal :=
  gated (.rseData b) s (rseDataEffect b s)

/-- `R[idx]`, for an index below 30. -/
def remainder (s : State) (idx : Nat) : Byte := s.r.toList.getD idx 0#8

/-- `RD.EC idx` (R177). -/
def execRdEc (idx : Nat) (s : State) : Host.Outcome State Fault Refusal :=
  gated (.rdEc idx) s
    (if s.n.val ≤ idx then .raise .illegalOperand
     else .done s (.word ((remainder s idx).setWidth 32)))

end Sys2Proof.Machine
end

