-- ==== Sys2Proof/Machine/System.lean ====
section
/-! DEFINITION. The system commands NOP, RST and RD.CSR (40_system_commands.md). -/

namespace Sys2Proof.Machine

/-- `NOP` (R100). -/
def execNop (s : State) : Host.Outcome State Fault Refusal := gated .nop s (.done s .none)

/-- `RST` (R101): executed whatever FAULT is. -/
def execRst (s : State) : Host.Outcome State Fault Refusal :=
  .next (respond .none (resetTuple s))

/-- `RD.CSR a` (R102): a valid address is read whatever FAULT is; another raises IllegalOperand, or is
ignored while FAULT = 1. -/
def execRdCsr (a : Nat) (s : State) : Host.Outcome State Fault Refusal :=
  match csrRead s a with
  | some v => .next (respond (.word v) s)
  | none => gated (.rdCsr a) s (.raise .illegalOperand)

end Sys2Proof.Machine
end

