-- ==== Sys2Proof/Machine/Dispatch.lean ====
section
/-! DEFINITION. The meaning of each command, one arm per constructor of Instr. -/

namespace Sys2Proof.Machine

def exec (i : Instr) (s : State) : Host.Outcome State Fault Refusal :=
  match i with
  | .nop => Sys2Proof.Machine.execNop s
  | .rst => Sys2Proof.Machine.execRst s
  | .rdCsr a => Sys2Proof.Machine.execRdCsr a s
  | .clsClr => Sys2Proof.Machine.execClsClr s
  | .clsByte b => Sys2Proof.Machine.execClsByte b s
  | .clsEnd => Sys2Proof.Machine.execClsEnd s
  | .pckInit ver ec => Sys2Proof.Machine.execPckInit ver ec s
  | .pckBits n value => Sys2Proof.Machine.execPckBits n value s
  | .pckSeg mode count => Sys2Proof.Machine.execPckSeg mode count s
  | .pckData b => Sys2Proof.Machine.execPckData b s
  | .pckTerm => Sys2Proof.Machine.execPckTerm s
  | .rdPbuf idx => Sys2Proof.Machine.execRdPbuf idx s
  | .rseStart n => Sys2Proof.Machine.execRseStart n s
  | .rseData b => Sys2Proof.Machine.execRseData b s
  | .rdEc idx => Sys2Proof.Machine.execRdEc idx s

end Sys2Proof.Machine
end

