-- ==== Sys2Proof/Machine/Step.lean ====
section
/-! DEFINITION. One step: the next thing the host does at the ports, to completion (00_scope.md R5, R6;
30_encoding.md R74). -/

namespace Sys2Proof.Machine

/-- One step. A command word is taken from the host, decoded and executed; an illegal word is executed
as the fault IllegalCommand (30_encoding.md R73), so every word has an effect (R70). A pulse on `rst`
between transactions resets the state and has no response (70_reset_and_hazards.md R240). With nothing
presented there is no step (log entry 3). -/
def step (s : State) : Host.Outcome State Fault Refusal :=
  match s.inbox with
  | [] => .fault .noInput
  | .rst :: rest => .next (resetTuple { s with inbox := rest })
  | .cmd w :: rest =>
    match decode w with
    | .ok i => exec i { s with inbox := rest }
    | .error _ => .next (executeIllegal w { s with inbox := rest })

/-- The host presents, before anything else it is to present, the command word whose low `nbits` bits
are `w`: the very next step runs it (log entry 1). -/
def State.withFetchWord (s : State) (nbits w : Nat) : State :=
  { s with inbox := .cmd (BitVec.ofNat 32 (w % 2 ^ nbits)) :: s.inbox }

end Sys2Proof.Machine
end

