-- ==== Sys2Proof/Safety.lean ====
section
/-! DEFINITION. The terms claims about TQDP are stated in: what a command leaves unchanged, what it
means to be ignored or to fault, the invariants of 10_state.md R28, the completed activities of
70_reset_and_hazards.md R246, and what a command sequence should compute (41_classifier.md R116,
42_packer.md R143, R144, 43_reed_solomon.md R174). None of this is read by `step`. -/

namespace Sys2Proof.Machine

/-! ### Frames -/

/-- The fault group of 10_state.md R20 is the same. -/
structure SameFault (s t : State) : Prop where
  fault : t.fault = s.fault
  cause : t.cause = s.cause
  fcmd : t.fcmd = s.fcmd

/-- The CLS group of R20 is the same. -/
structure SameCls (s t : State) : Prop where
  cstate : t.cstate = s.cstate
  pos : t.pos = s.pos
  segBegin : t.segBegin = s.segBegin

/-- The target of the packer is the same. -/
structure SameTarget (s t : State) : Prop where
  version : t.version = s.version
  ecl : t.ecl = s.ecl

/-- The open segment of the packer is the same. -/
structure SameSegment (s t : State) : Prop where
  curMode : t.curMode = s.curMode
  rem : t.rem = s.rem
  acc : t.acc = s.acc
  accN : t.accN = s.accN

/-- Every byte of BUF reads as before. -/
def SameBuf (s t : State) : Prop := ∀ a, Memory.read t.buf a = Memory.read s.buf a

/-- The PCK group of R20 is the same. -/
structure SamePck (s t : State) : Prop where
  target : SameTarget s t
  segment : SameSegment s t
  len : t.len = s.len
  buf : SameBuf s t

/-- The RSE group of R20 is the same. -/
structure SameRse (s t : State) : Prop where
  n : t.n = s.n
  r : t.r = s.r

/-- The one response of the command is `resp`, and it took nothing more from the host (R74). -/
structure Answered (resp : Response) (s t : State) : Prop where
  resps : t.resps = resp :: s.resps
  inbox : t.inbox = s.inbox

/-- The whole state tuple of R20 is the same. -/
structure SameTuple (s t : State) : Prop where
  fault : SameFault s t
  cls : SameCls s t
  pck : SamePck s t
  rse : SameRse s t

/-- The command is ignored (60_exceptions.md R215): no state change at all, response `none`. -/
structure Ignored (s t : State) : Prop where
  same : SameTuple s t
  answered : Answered .none s t

/-- The command raised the fault `c` (60_exceptions.md R214): FAULT, CAUSE and FCMD are written, no
other register and no byte changes, and the response is `none`. -/
structure Raised (c : Cause) (w : Word) (s t : State) : Prop where
  fault : t.fault = true
  cause : t.cause = c
  fcmd : t.fcmd = w
  cls : SameCls s t
  pck : SamePck s t
  rse : SameRse s t
  answered : Answered .none s t

/-- The state tuple has the reset values of the last column of R20, each written out. -/
structure IsReset (t : State) : Prop where
  fault : t.fault = false
  cause : t.cause = .none
  fcmd : t.fcmd = 0#32
  cstate : t.cstate = .init
  pos : t.pos = 0#16
  segBegin : t.segBegin = 0#16
  version : t.version = 0#6
  ecl : t.ecl = .M
  len : t.len = 0#16
  buf : ∀ a, Memory.read t.buf a = 0#8
  curMode : t.curMode = .numeric
  rem : t.rem = 0#16
  acc : t.acc = 0#7
  accN : t.accN = 0
  n : t.n = 0
  r : ∀ i : Fin 30, t.r[i] = 0#8

/-- Executing the command raises the fault `c`, and nothing else happens. -/
def FaultsWith (c : Cause) (i : Instr) (s : State) : Prop :=
  ∃ t, exec i s = .next t ∧ Raised c (encode i) s t

/-- Executing the command is ignored. -/
def IsIgnored (i : Instr) (s : State) : Prop := ∃ t, exec i s = .next t ∧ Ignored s t

/-- The bits `bs` were appended to the stream, first one first (42_packer.md R135, 00_scope.md R9):
they stand at the positions from LEN on, LEN has grown by their number, and every other position and
every byte that holds none of these positions reads as before. -/
structure Appended (bs : List Bool) (s t : State) : Prop where
  len : t.len.toNat = s.len.toNat + bs.length
  bits : ∀ j b, bs[j]? = some b → Memory.readBit t.buf (s.len.toNat + j) = b
  others : ∀ p, p < s.len.toNat ∨ s.len.toNat + bs.length ≤ p →
    Memory.readBit t.buf p = Memory.readBit s.buf p
  bytes : ∀ a, a < s.len.toNat / 8 ∨ s.len.toNat + bs.length ≤ 8 * a →
    Memory.read t.buf a = Memory.read s.buf a

/-- The group of PCK registers of one unit, the whole CLS group, the whole RSE group, or nothing for
the system commands: what the commands of a unit may read beside the fault group (10_state.md R29). -/
def SameUnit : CmdUnit → State → State → Prop
  | .system, _, _ => True
  | .cls, s, t => SameCls s t
  | .pck, s, t => SamePck s t
  | .rse, s, t => SameRse s t

/-! ### Tables of the spec that no meaning reads, for statements -/

/-- The opcodes of 30_encoding.md R72, each with the must-be-zero bits of its format (R71). -/
def formatTable : List (Nat × Word) :=
  [(0x00, 0x00FFFFFF), (0x01, 0x00FFFFFF), (0x02, 0x00FFFF00), (0x10, 0x00FFFFFF),
   (0x11, 0x00FFFF00), (0x12, 0x00FFFFFF), (0x20, 0x00FF00FC), (0x21, 0x00E00000),
   (0x22, 0x00FC0000), (0x23, 0x00FFFF00), (0x24, 0x00FFFFFF), (0x25, 0x00FF0000),
   (0x30, 0x00FFFF00), (0x31, 0x00FFFF00), (0x32, 0x00FF0000)]

/-- A word is illegal (R73): its opcode is not in the table, or is and a must-be-zero bit is 1. -/
def IsIllegalWord (w : Word) : Prop :=
  ∀ entry ∈ formatTable, entry.1 = bits w 31 24 → w &&& entry.2 ≠ 0#32

/-- The causes each command can raise (60_exceptions.md R211). -/
def tabledCauses : Instr → List Cause
  | .nop | .rst | .clsClr | .clsEnd => []
  | .rdCsr _ | .rdPbuf _ | .rseStart _ | .rdEc _ => [.illegalOperand]
  | .clsByte _ => [.counterOverflow]
  | .pckInit _ _ => [.invalidVersion]
  | .pckBits _ _ => [.illegalOperand, .badSequence, .invalidVersion, .dataTooLong]
  | .pckSeg _ _ => [.illegalOperand, .badSequence, .invalidVersion, .dataTooLong]
  | .pckData _ => [.badSequence, .badChar, .dataTooLong]
  | .pckTerm => [.badSequence, .invalidVersion, .dataTooLong]
  | .rseData _ => [.badSequence]

/-- The transition table of 41_classifier.md R112, entry by entry: the next state, and the mode of the
segment emitted, if one is. `none` is the input `End`. -/
def transition : ClsState → Option CharClass → ClsState × Option Mode
  | .init, some .numeric => (.numeric, none)
  | .init, some .alpha => (.alpha, none)
  | .init, some .byte => (.byte, none)
  | .init, none => (.init, none)
  | .numeric, some .numeric => (.numeric, none)
  | .numeric, some .alpha => (.alpha, some .numeric)
  | .numeric, some .byte => (.byte, some .numeric)
  | .numeric, none => (.init, some .numeric)
  | .alpha, some .numeric => (.numeric, some .alphanumeric)
  | .alpha, some .alpha => (.alpha, none)
  | .alpha, some .byte => (.byte, some .alphanumeric)
  | .alpha, none => (.init, some .alphanumeric)
  | .byte, some .numeric => (.numeric, some .byte)
  | .byte, some .alpha => (.alpha, some .byte)
  | .byte, some .byte => (.byte, none)
  | .byte, none => (.init, some .byte)

/-- The response that emits the segment `[BEGIN, POS)` in a mode, or nothing (R112). -/
def emission (s : State) : Option Mode → Response
  | none => .none
  | some m => .seg m s.segBegin s.pos

/-- The 45 Alphanumeric-capable bytes in the order of their values (42_packer.md R133). -/
def alnumTable : List Byte :=
  (List.range 10).map (fun k => BitVec.ofNat 8 (0x30 + k)) ++
  (List.range 26).map (fun k => BitVec.ofNat 8 (0x41 + k)) ++
  [0x20, 0x24, 0x25, 0x2A, 0x2B, 0x2D, 0x2E, 0x2F, 0x3A]

/-! ### The invariants of 10_state.md R28 -/

/-- R28 items 1 to 9 (item 10 is about two states, item 5 holds by typing), and the canonical form of
BUF. -/
structure Inv (s : State) : Prop where
  /-- the model's canonical form of BUF -/
  bufWf : Memory.wf s.buf = true
  /-- item 1: in Init nothing is counted -/
  clsInit : s.cstate = .init → s.pos = 0#16 ∧ s.segBegin = 0#16
  /-- item 1: BEGIN ≤ POS -/
  clsOrder : s.segBegin.toNat ≤ s.pos.toNat
  /-- item 1: outside Init the run holds at least one byte -/
  clsRun : s.cstate ≠ .init → 1 ≤ s.pos.toNat ∧ s.segBegin.toNat < s.pos.toNat
  /-- item 2 -/
  version : s.version.toNat ≤ versionMax
  /-- item 3 -/
  lenFits : ∀ c, capacity defaultConfig s = some c → s.len.toNat ≤ c
  /-- item 4 -/
  bufZero : ∀ p, s.len.toNat ≤ p → Memory.readBit s.buf p = false
  /-- item 6: no segment open, no partial group -/
  noGroup : s.rem = 0#16 → s.acc = 0#7 ∧ s.accN = 0
  /-- item 6, Numeric -/
  numericGroup : s.curMode = .numeric →
    (s.accN = 0 → s.acc = 0#7) ∧ (s.accN = 1 → s.acc.toNat ≤ 9) ∧ (s.accN = 2 → s.acc.toNat ≤ 99)
  /-- item 6, Alphanumeric -/
  alnumGroup : s.curMode = .alphanumeric →
    s.accN.val ≤ 1 ∧ (s.accN = 0 → s.acc = 0#7) ∧ (s.accN = 1 → s.acc.toNat ≤ 44)
  /-- item 6, Byte -/
  byteGroup : s.curMode = .byte → s.accN = 0 ∧ s.acc = 0#7
  /-- item 7 -/
  openVersion : s.rem ≠ 0#16 → s.version ≠ 0#6
  /-- item 8 -/
  rZero : ∀ i : Fin 30, s.n.val ≤ i.val → s.r[i] = 0#8
  /-- item 9 -/
  noFault : s.fault = false → s.cause = .none ∧ s.fcmd = 0#32
  /-- item 9 -/
  faulted : s.fault = true → s.cause ≠ .none

/-! ### Command sequences and completed activities -/

/-- Execute commands one after another, stopping where one stops. -/
def execAll : List Instr → State → Host.Outcome State Fault Refusal
  | [], s => .next s
  | i :: is, s =>
    match exec i s with
    | .next t => execAll is t
    | .fault f => .fault f
    | .refused f => .refused f

/-- The commands that append to the buffer (10_state.md R29). -/
def appendsToBuffer : Instr → Bool
  | .pckBits _ _ | .pckSeg _ _ | .pckData _ | .pckTerm => true
  | .nop | .rst | .rdCsr _ | .clsClr | .clsByte _ | .clsEnd | .pckInit _ _ | .rdPbuf _
  | .rseStart _ | .rseData _ | .rdEc _ => false

/-- R246 item 1; `hist` is the commands executed, newest first. -/
def ClassificationComplete (hist : List Instr) (s : State) : Prop :=
  s.fault = false ∧ hist.find? (fun i => i.unit == .cls) = some .clsEnd

/-- R246 item 2. -/
def PackingComplete (cfg : Config) (hist : List Instr) (s : State) : Prop :=
  s.fault = false ∧ s.rem = 0#16 ∧ capacity cfg s = some s.len.toNat ∧
    hist.find? appendsToBuffer = some .pckTerm

/-- The data codewords fed since the last `RSE.START`, in the order they were fed. -/
def fedSinceStart : List Instr → Option (List Byte)
  | [] => none
  | .rseStart _ :: _ => some []
  | .rseData b :: hist => (fedSinceStart hist).map (· ++ [b])
  | _ :: hist => fedSinceStart hist

/-- R246 item 3. -/
def BlockComplete (block : List Byte) (hist : List Instr) (s : State) : Prop :=
  s.fault = false ∧ s.n ≠ 0 ∧ fedSinceStart hist = some block

/-! ### What a classification computes (41_classifier.md R116) -/

/-- The segments among responses listed newest first, in the order they were delivered. -/
def segmentsOf (resps : List Response) : List (Mode × Nat × Nat) :=
  resps.reverse.filterMap fun
    | .seg m first last => some (m, first.toNat, last.toNat)
    | .none | .word _ => none

/-- R116 item 1: non-empty segments that cover `[lo, hi)` exactly once, in order. -/
def Covers : Nat → Nat → List (Mode × Nat × Nat) → Prop
  | lo, hi, [] => lo = hi
  | lo, hi, (_, first, last) :: segs => first = lo ∧ first < last ∧ Covers last hi segs

/-- R116 item 3: adjacent segments have different modes. -/
def AdjacentDiffer : List (Mode × Nat × Nat) → Prop
  | [] => True
  | [_] => True
  | x :: y :: segs => x.1 ≠ y.1 ∧ AdjacentDiffer (y :: segs)

/-- R116 items 1 to 3: the maximal runs of equal class of the input `d`. -/
structure IsSegmentation (d : List Byte) (segs : List (Mode × Nat × Nat)) : Prop where
  covers : Covers 0 d.length segs
  classes : ∀ x ∈ segs, ∀ i b, x.2.1 ≤ i → i < x.2.2 → d[i]? = some b →
    modeOf (stateOf (classOf b)) = some x.1
  maximal : AdjacentDiffer segs

/-! ### What a packing computes (42_packer.md R140, R143, R144) -/

/-- The byte has an encoding in the mode: `PCK.DATA` does not raise BadChar (R140). -/
def validIn (m : Mode) (b : Byte) : Bool :=
  match m with
  | .numeric => decide (0x30 ≤ b.toNat ∧ b.toNat ≤ 0x39)
  | .alphanumeric => (alnumValue b).isSome
  | .byte => true

/-- `DataBits(m, L)` (R143). -/
def dataBits : Mode → Nat → Nat
  | .numeric, l => 10 * (l / 3) + [0, 4, 7].getD (l % 3) 0
  | .alphanumeric, l => 11 * (l / 2) + 6 * (l % 2)
  | .byte, l => 8 * l

/-- `SegBits(m, L, v)` (R143). -/
def segBits (m : Mode) (l v : Nat) : Nat := 4 + lenBits m v + dataBits m l

/-- The commands of one segment (R130). -/
def segCommands (m : Mode) (chars : List Byte) : List Instr :=
  .pckSeg (modeCode m) chars.length :: chars.map .pckData

/-- The `n` bits of `v`, most significant first. -/
def bitsOf (n v : Nat) : List Bool := (List.range n).map fun i => v.testBit (n - 1 - i)

/-- The value of a digit character. -/
def digit (b : Byte) : Nat := b.toNat - 0x30

/-- The source's numeric packing (R140): groups of 3 digits, a remainder of 2, a remainder of 1. -/
def numericStream : List Byte → List Bool
  | [] => []
  | [a] => bitsOf 4 (digit a)
  | [a, b] => bitsOf 7 (digit a * 10 + digit b)
  | a :: b :: c :: rest => bitsOf 10 (digit a * 100 + digit b * 10 + digit c) ++ numericStream rest

/-- The value of an alphanumeric character, where it has one. -/
def alnum (b : Byte) : Nat := (alnumValue b).getD 0

/-- The source's alphanumeric packing (R140): groups of 2 characters, a remainder of 1. -/
def alnumStream : List Byte → List Bool
  | [] => []
  | [a] => bitsOf 6 (alnum a)
  | a :: b :: rest => bitsOf 11 (alnum a * 45 + alnum b) ++ alnumStream rest

/-- The source's byte packing (R140). -/
def byteStream : List Byte → List Bool
  | [] => []
  | b :: rest => bitsOf 8 b.toNat ++ byteStream rest

/-- The bits of a segment's characters. -/
def charStream : Mode → List Byte → List Bool
  | .numeric, cs => numericStream cs
  | .alphanumeric, cs => alnumStream cs
  | .byte, cs => byteStream cs

/-- The bits of one segment at version `v` (R144): mode indicator, count, groups. -/
def segStream (m : Mode) (chars : List Byte) (v : Nat) : List Bool :=
  bitsOf 4 (modeInd m) ++ bitsOf (lenBits m v) chars.length ++ charStream m chars

/-- `PCK.DATA b` completes a group of `width` bits with value `v` at capacity `c` (R140): DataTooLong
if it does not fit, else it is appended, the partial group is empty again and one character fewer is
awaited. -/
def CompletesGroup (b : Byte) (width v c : Nat) (s : State) : Prop :=
  (c < s.len.toNat + width → FaultsWith .dataTooLong (.pckData b) s) ∧
  (s.len.toNat + width ≤ c → ∃ t, exec (.pckData b) s = .next t ∧
    Appended (bitsOf width v) s t ∧ t.acc = 0#7 ∧ t.accN = 0 ∧
    t.rem.toNat = s.rem.toNat - 1 ∧ t.curMode = s.curMode ∧
    SameFault s t ∧ SameCls s t ∧ SameTarget s t ∧ SameRse s t ∧ Answered .none s t)

/-- `PCK.DATA b` only keeps a partial group of `k` characters with value `a` (R140): nothing is
appended, whatever the capacity. -/
def KeepsGroup (b : Byte) (a : Nat) (k : Fin 3) (s : State) : Prop :=
  ∃ t, exec (.pckData b) s = .next t ∧ t.acc = BitVec.ofNat 7 a ∧ t.accN = k ∧
    t.rem.toNat = s.rem.toNat - 1 ∧ t.curMode = s.curMode ∧ t.len = s.len ∧ SameBuf s t ∧
    SameFault s t ∧ SameCls s t ∧ SameTarget s t ∧ SameRse s t ∧ Answered .none s t

/-! ### What a block computes (43_reed_solomon.md R174) -/

/-- Sum of two polynomials of equal length, highest power first. -/
def polyAdd (p q : List Byte) : List Byte := List.zipWith (· ^^^ ·) p q

/-- Product of two polynomials, highest power first, by long multiplication; the second is not
empty. The result has `p.length + q.length - 1` coefficients, leading zeros kept. -/
def polyMul : List Byte → List Byte → List Byte
  | [], q => List.replicate (q.length - 1) 0#8
  | c :: p, q => polyAdd (q.map (gmul c) ++ List.replicate p.length 0#8) (0#8 :: polyMul p q)

/-- The value of a polynomial, highest power first, at `x`. -/
def polyEval (p : List Byte) (x : Byte) : Byte := p.foldl (fun acc c => gmul acc x ^^^ c) 0#8

/-- The registers `R[0..N−1]`. -/
def remainderOf (s : State) : List Byte := s.r.toList.take s.n.val

end Sys2Proof.Machine
end

