-- ==== Sys2Proof/Certificates/Slice0/Obligations.lean ====
section
/-! DEFINITION. The statements about TQDP that the provers are to settle, from the numbered rules of
spec/. Statements about what a command stores in BUF assume that BUF is in its canonical form, which
`StepKeepsTheInvariants` says every step keeps. -/

open Sys2Proof Sys2Proof.Machine

/-! ### Encoding (30_encoding.md) -/

/-- R71, R72: decoding the word of a command whose operands fit their fields gives the command back. -/
def Obligations.DecodeOfEncodeIsTheCommand : Prop :=
  ∀ i : Instr, i.wellFormed = true → decode (encode i) = .ok i

/-- R70, R72: a word that decodes to a command is that command's one word, and the operands fit. -/
def Obligations.DecodedWordIsTheCommandsWord : Prop :=
  ∀ (w : Word) (i : Instr), decode w = .ok i → i.wellFormed = true ∧ encode i = w

/-- R78 (the spec marks it "[derived: from rules R71 and R72]"): a word that decodes matches the row of
its command, a word that matches no row is illegal, and no word matches two rows. -/
def Obligations.MatchAndMaskTableIsTheDecoder : Prop :=
  (∀ (w : Word) (i : Instr), decode w = .ok i → (rowOf i).matches w = true) ∧
  (∀ w : Word, (∃ e, decode w = .error e) ↔ ∀ row ∈ tableRows, row.matches w = false) ∧
  (∀ w : Word, (tableRows.filter fun row => row.matches w).length ≤ 1)

/-- R76: the words its examples print, each for the command it stands for, the one that is encodable
but meaningless among them. -/
def Obligations.AssemblerExamples : Prop :=
  decode 0x20000102 = .ok (.pckInit 1 .Q) ∧ decode 0x2201000B = .ok (.pckSeg 1 11) ∧
  decode 0x23000048 = .ok (.pckData 0x48) ∧ decode 0x21040002 = .ok (.pckBits 4 2) ∧
  decode 0x3000000D = .ok (.rseStart 13) ∧ decode 0x3200000C = .ok (.rdEc 12) ∧
  decode 0x02000000 = .ok (.rdCsr 0) ∧ decode 0x20002900 = .ok (.pckInit 41 .L)

/-! ### The step (00_scope.md R6, 30_encoding.md R70, R74) -/

/-- R70, R74: when the word the host presents decodes to a command, the step is that command's meaning
on the state with the word taken; a presented word is what withFetchWord presents. -/
def Obligations.StepRunsTheDecodedCommand : Prop :=
  (∀ (s : State) (w : Word) (i : Instr) (rest : List Input),
    s.inbox = .cmd w :: rest → decode w = .ok i → step s = exec i { s with inbox := rest }) ∧
  (∀ (s : State) (w : Nat) (i : Instr),
    decode (BitVec.ofNat 32 w) = .ok i → w < 2 ^ 32 → step (s.withFetchWord 32 w) = exec i s)

/-- R6, R70: the step is total. Whatever the host presents has a next state, in every state, and every
command has one; only when nothing is presented is there no step (the model's choice, log entry 3). -/
def Obligations.EveryPresentedWordHasANextState : Prop :=
  (∀ s : State, s.inbox ≠ [] → ∃ t, step s = .next t) ∧
  (∀ (i : Instr) (s : State), ∃ t, exec i s = .next t) ∧
  (∀ s : State, s.inbox = [] → step s = .fault .noInput)

/-- R74: for each command transaction exactly one response, and one word taken; a pulse on `rst` is no
command transaction. -/
def Obligations.OneResponsePerTransaction : Prop :=
  (∀ (s t : State) (w : Word) (rest : List Input), s.inbox = .cmd w :: rest → step s = .next t →
    t.inbox = rest ∧ ∃ resp, t.resps = resp :: s.resps) ∧
  (∀ (s t : State) (rest : List Input), s.inbox = .rst :: rest → step s = .next t →
    t.inbox = rest ∧ t.resps = s.resps)

/-- R75: the port layout of the three kinds of response; only a successful RD.CSR, RD.PBUF or RD.EC
returns a word, only CLS.BYTE and CLS.END return a segment, the one they close, with
the mode of CSTATE, BEGIN and POS before the command, a faulting or ignored command returns
nothing, and `resp_kind` 3 never occurs. -/
def Obligations.ResponsePortLayout : Prop :=
  (respKind .none = 0 ∧ respData .none = 0) ∧
  (∀ v : Word, respKind (.word v) = 1 ∧ (respData (.word v)).extractLsb' 0 32 = v ∧
    (respData (.word v)).extractLsb' 32 2 = 0) ∧
  (∀ (m : Mode) (first last : BitVec 16), respKind (.seg m first last) = 2 ∧
    (respData (.seg m first last)).extractLsb' 0 16 = last ∧
    (respData (.seg m first last)).extractLsb' 16 16 = first ∧
    (respData (.seg m first last)).extractLsb' 32 2 = BitVec.ofNat 2 (modeCode m)) ∧
  (∀ resp, respKind resp ≠ 3) ∧
  (∀ (i : Instr) (s t : State) (resp : Response), exec i s = .next t →
    t.resps = resp :: s.resps →
    (∀ v, resp = .word v → (∃ a, i = .rdCsr a) ∨ (∃ a, i = .rdPbuf a) ∨ ∃ a, i = .rdEc a) ∧
    (∀ m first last, resp = .seg m first last →
      ((∃ b, i = .clsByte b) ∨ i = .clsEnd) ∧ t.cstate ≠ s.cstate ∧
        modeOf s.cstate = some m ∧ first = s.segBegin ∧ last = s.pos) ∧
    (s.fault = false → t.fault = true → resp = .none) ∧
    (s.fault = true → resp = .none ∨ ∃ a v, i = .rdCsr a ∧ resp = .word v))

/-! ### Reset (70_reset_and_hazards.md R240, 40_system_commands.md R100, R101) -/

/-- R240, R20: `State.reset`, the `rst` port and the RST command all leave every element of the state
tuple at its reset value, whatever the state. -/
def Obligations.BothResetsLeaveTheResetValues : Prop :=
  IsReset State.reset ∧
  (∀ (s : State) (rest : List Input), s.inbox = .rst :: rest →
    ∃ t, step s = .next t ∧ IsReset t) ∧
  (∀ s : State, ∃ t, exec .rst s = .next t ∧ IsReset t)

/-- R100. -/
def Obligations.NopRule : Prop :=
  encode .nop = 0x00000000 ∧ decode 0x00000001 = .error .mustBeZero ∧
  ∀ s : State, ∃ t, exec .nop s = .next t ∧ SameTuple s t ∧ Answered .none s t

/-- R101: RST is executed whatever FAULT is; a word with opcode 0x01 and a low bit set is not RST. -/
def Obligations.RstRule : Prop :=
  encode .rst = 0x01000000 ∧
  (∀ s : State, ∃ t, exec .rst s = .next t ∧ IsReset t ∧ Answered .none s t) ∧
  (∀ (s : State) (w : Word) (rest : List Input), s.inbox = .cmd w :: rest →
    bits w 31 24 = 0x01 → bits w 23 0 ≠ 0 →
    (s.fault = false →
      ∃ t, step s = .next t ∧ Raised .illegalCommand w { s with inbox := rest } t) ∧
    (s.fault = true → ∃ t, step s = .next t ∧ Ignored { s with inbox := rest } t))

/-! ### The fault mechanism (60_exceptions.md) -/

/-- R73: which words are illegal; executing one with FAULT = 0 raises IllegalCommand and has no other
effect; no word but NOP is architecturally a no-op: every other word has an effect or a response in
some unfaulted state; and a meaningless operand does not make a word illegal, it raises its command's
own fault. -/
def Obligations.IllegalWordsRaiseIllegalCommand : Prop :=
  (∀ w : Word, (∃ e, decode w = .error e) ↔ IsIllegalWord w) ∧
  causeCode .illegalCommand = 3 ∧
  (∀ (s : State) (w : Word) (rest : List Input), s.inbox = .cmd w :: rest → IsIllegalWord w →
    s.fault = false →
    ∃ t, step s = .next t ∧ Raised .illegalCommand w { s with inbox := rest } t) ∧
  (∀ w : Word, w ≠ 0x00000000 → ∃ s t : State, s.inbox = [.cmd w] ∧ s.fault = false ∧
    step s = .next t ∧ ¬ Ignored { s with inbox := [] } t) ∧
  (∀ i : Instr, i.wellFormed = true → ¬ IsIllegalWord (encode i)) ∧
  (∀ s : State, s.fault = false → FaultsWith .illegalOperand (.pckSeg 3 0) s ∧
    FaultsWith .illegalOperand (.pckBits 17 0) s ∧ FaultsWith .invalidVersion (.pckInit 0 .L) s)

/-- R214: with FAULT = 0, a step that sets FAULT changes FAULT, CAUSE and FCMD and nothing else, FCMD
is the word being executed, the response is `none`, and `irq_fault` rises with FAULT. -/
def Obligations.FaultEntryIsPrecise : Prop :=
  ∀ (s t : State) (w : Word) (rest : List Input), s.inbox = .cmd w :: rest → s.fault = false →
    step s = .next t → t.fault = true →
    ∃ c, c ≠ .none ∧ Raised c w { s with inbox := rest } t ∧ irqFault s = false ∧
      irqFault t = true

/-- R215: while FAULT = 1 every word is ignored, the illegal ones too, except RST (exactly the word
0x01000000) and RD.CSR of an address 0..6, which execute. -/
def Obligations.FaultedBlockIgnoresCommands : Prop :=
  ∀ (s : State) (w : Word) (rest : List Input), s.inbox = .cmd w :: rest → s.fault = true →
    (w = 0x01000000 → ∃ t, step s = .next t ∧ IsReset t ∧
      Answered .none { s with inbox := rest } t) ∧
    (∀ a, a ≤ 6 → w = BitVec.ofNat 32 (0x02000000 + a) →
      ∃ t v, step s = .next t ∧ csrRead s a = some v ∧ SameTuple s t ∧
        Answered (.word v) { s with inbox := rest } t) ∧
    (w ≠ 0x01000000 → (∀ a, a ≤ 6 → w ≠ BitVec.ofNat 32 (0x02000000 + a)) →
      ∃ t, step s = .next t ∧ Ignored { s with inbox := rest } t)

/-- R216: the only exits from the faulted state are RST and the `rst` port, and both discard all
state. -/
def Obligations.OnlyResetLeavesTheFaultedState : Prop :=
  ∀ s t : State, s.fault = true → step s = .next t → t.fault = false →
    IsReset t ∧ ∃ rest, s.inbox = .rst :: rest ∨ s.inbox = .cmd 0x01000000 :: rest

/-- R211: the codes of the causes, and the causes each command can raise in a state that meets the
invariants of R28; an illegal word raises IllegalCommand alone, and no command does. -/
def Obligations.CommandsRaiseOnlyTheirTabledCauses : Prop :=
  [Cause.none, .dataTooLong, .invalidVersion, .illegalCommand, .illegalOperand, .badSequence,
    .badChar, .counterOverflow].map causeCode = [0, 1, 2, 3, 4, 5, 6, 7] ∧
  ∀ (i : Instr) (s t : State), Inv s → s.fault = false → exec i s = .next t → t.fault = true →
    t.cause ∈ tabledCauses i

/-! ### Control and status registers (10_state.md R26, R27, 40_system_commands.md R102) -/

/-- R27: every field of every control and status register at its place, the bits not listed 0, and
the reset words. -/
def Obligations.CsrLayout : Prop :=
  (∀ s : State,
    (∃ w, csrRead s 0 = some w ∧ bits w 0 0 = s.fault.toNat ∧ bits w 3 1 = 0 ∧
      bits w 7 4 = causeCode s.cause ∧ bits w 9 8 = clsStateCode s.cstate ∧
      (bits w 10 10 = 1 ↔ s.rem ≠ 0#16) ∧ (bits w 11 11 = 1 ↔ s.n ≠ 0) ∧ bits w 31 12 = 0) ∧
    (csrRead s 1 = some s.fcmd) ∧
    (∃ w, csrRead s 2 = some w ∧ bits w 15 0 = s.pos.toNat ∧ bits w 31 16 = s.segBegin.toNat) ∧
    (∃ w, csrRead s 3 = some w ∧ bits w 5 0 = s.version.toNat ∧ bits w 7 6 = 0 ∧
      bits w 9 8 = s.ecl.code ∧ bits w 31 10 = 0) ∧
    (∃ w, csrRead s 4 = some w ∧ bits w 15 0 = s.len.toNat ∧ bits w 31 16 = 0) ∧
    (∃ w, csrRead s 5 = some w ∧ bits w 15 0 = s.rem.toNat ∧
      bits w 17 16 = modeCode s.curMode ∧ bits w 19 18 = s.accN.val ∧
      bits w 26 20 = s.acc.toNat ∧ bits w 31 27 = 0) ∧
    (∃ w, csrRead s 6 = some w ∧ bits w 4 0 = s.n.val ∧ bits w 31 5 = 0)) ∧
  (∀ s : State, IsReset s → ∀ a, a ≤ 6 →
    csrRead s a = some (if a = 3 then 0x00000100 else 0x00000000))

/-- R102: RD.CSR of an address 0..6 returns that register and changes nothing, whatever FAULT is; of
another address it raises IllegalOperand, or is ignored while FAULT = 1. -/
def Obligations.RdCsrRule : Prop :=
  ∀ (a : Nat) (s : State), a < 2 ^ 8 →
    encode (.rdCsr a) = BitVec.ofNat 32 (0x02000000 + a) ∧
    (a ≤ 6 → ∃ t v, exec (.rdCsr a) s = .next t ∧ csrRead s a = some v ∧ SameTuple s t ∧
      Answered (.word v) s t) ∧
    (6 < a → s.fault = false → FaultsWith .illegalOperand (.rdCsr a) s) ∧
    (6 < a → s.fault = true → IsIgnored (.rdCsr a) s)

/-! ### The mode classifier (41_classifier.md) -/

/-- R110: the three exclusive classes, how many bytes each has, and that the exclusive class of a byte
is the lowest mode capable of it. -/
def Obligations.ExclusiveClasses : Prop :=
  (∀ b : Byte, classOf b = .numeric ↔ 0x30 ≤ b.toNat ∧ b.toNat ≤ 0x39) ∧
  (∀ b : Byte, classOf b = .alpha ↔ (0x41 ≤ b.toNat ∧ b.toNat ≤ 0x5A) ∨
    b ∈ [0x20, 0x24, 0x25, 0x2A, 0x2B, 0x2D, 0x2E, 0x2F, 0x3A]) ∧
  (∀ b : Byte, classOf b = .numeric ↔ validIn .numeric b = true) ∧
  (∀ b : Byte, classOf b = .alpha ↔
    validIn .numeric b = false ∧ validIn .alphanumeric b = true) ∧
  (∀ b : Byte, classOf b = .byte ↔ validIn .alphanumeric b = false) ∧
  (∀ b : Byte, validIn .numeric b = true → validIn .alphanumeric b = true) ∧
  [CharClass.numeric, .alpha, .byte].map (fun k =>
    ((List.range 256).filter fun v => classOf (BitVec.ofNat 8 v) = k).length) = [10, 35, 211]

/-- R112: the sixteen entries of the transition table, the three input classes through CLS.BYTE and
`End` through CLS.END; a segment emitted is `[BEGIN, POS)`, and BEGIN becomes the old POS. -/
def Obligations.ClassifierTransitionTable : Prop :=
  (∀ (s : State) (b : Byte), s.fault = false → s.pos ≠ 0xFFFF →
    ∃ t, exec (.clsByte b) s = .next t ∧
      t.cstate = (transition s.cstate (some (classOf b))).1 ∧
      Answered (emission s (transition s.cstate (some (classOf b))).2) s t ∧
      ((transition s.cstate (some (classOf b))).2 ≠ none → t.segBegin = s.pos)) ∧
  (∀ s : State, s.fault = false →
    ∃ t, exec .clsEnd s = .next t ∧ t.cstate = (transition s.cstate none).1 ∧
      Answered (emission s (transition s.cstate none).2) s t)

/-- R113. -/
def Obligations.ClsClrRule : Prop :=
  encode .clsClr = 0x10000000 ∧
  (∀ s : State, s.fault = true → IsIgnored .clsClr s) ∧
  (∀ s : State, s.fault = false → ∃ t, exec .clsClr s = .next t ∧
    t.cstate = .init ∧ t.pos = 0#16 ∧ t.segBegin = 0#16 ∧
    SameFault s t ∧ SamePck s t ∧ SameRse s t ∧ Answered .none s t)

/-- R114. -/
def Obligations.ClsByteRule : Prop :=
  ∀ (b : Byte) (s : State),
    encode (.clsByte b) = BitVec.ofNat 32 (0x11000000 + b.toNat) ∧
    (s.fault = true → IsIgnored (.clsByte b) s) ∧
    (s.fault = false → s.pos.toNat = 65535 → FaultsWith .counterOverflow (.clsByte b) s) ∧
    (s.fault = false → s.pos.toNat < 65535 → ∃ t, exec (.clsByte b) s = .next t ∧
      t.cstate = stateOf (classOf b) ∧ t.pos.toNat = s.pos.toNat + 1 ∧
      (s.cstate = .init → t.segBegin = s.pos ∧ Answered .none s t) ∧
      (s.cstate = stateOf (classOf b) → t.segBegin = s.segBegin ∧ Answered .none s t) ∧
      (s.cstate ≠ .init → s.cstate ≠ stateOf (classOf b) → t.segBegin = s.pos ∧
        ∃ m, modeOf s.cstate = some m ∧ Answered (.seg m s.segBegin s.pos) s t) ∧
      SameFault s t ∧ SamePck s t ∧ SameRse s t)

/-- R115. -/
def Obligations.ClsEndRule : Prop :=
  encode .clsEnd = 0x12000000 ∧
  (∀ s : State, s.fault = true → IsIgnored .clsEnd s) ∧
  (∀ s : State, s.fault = false → ∃ t, exec .clsEnd s = .next t ∧
    t.cstate = .init ∧ t.pos = 0#16 ∧ t.segBegin = 0#16 ∧
    (s.cstate = .init → Answered .none s t) ∧
    (s.cstate ≠ .init → ∃ m, modeOf s.cstate = some m ∧
      Answered (.seg m s.segBegin s.pos) s t) ∧
    SameFault s t ∧ SamePck s t ∧ SameRse s t)

/-- R116 (the spec marks it "[derived: from rules R112, R114, R115 by induction on i]"): from Init,
without a fault, feeding an input of at most 65535 bytes and CLS.END emits exactly the one list of
segments that covers the input with maximal runs of equal class, and leaves the classifier ready for
the next input. -/
def Obligations.ClassifierEmitsTheMaximalRuns : Prop :=
  ∀ (d : List Byte) (s : State), d.length ≤ 65535 → s.fault = false → s.cstate = .init →
    s.pos = 0#16 →
    ∃ t new, execAll (d.map .clsByte ++ [.clsEnd]) s = .next t ∧ t.fault = false ∧
      t.cstate = .init ∧ t.pos = 0#16 ∧ t.segBegin = 0#16 ∧
      t.resps = new ++ s.resps ∧ new.length = d.length + 1 ∧
      IsSegmentation d (segmentsOf new) ∧
      (∀ segs, IsSegmentation d segs → segs = segmentsOf new) ∧
      SamePck s t ∧ SameRse s t

/-! ### The packer (42_packer.md) -/

/-- R131, R132, R133: the mode indicators, the length-field widths of every version 1..40, and the
values of the alphanumeric characters, undefined for every other byte. -/
def Obligations.PackerTables : Prop :=
  (modeInd .numeric = 0b0001 ∧ modeInd .alphanumeric = 0b0010 ∧ modeInd .byte = 0b0100) ∧
  (∀ v, 1 ≤ v → v ≤ 9 → lenBits .numeric v = 10 ∧ lenBits .alphanumeric v = 9 ∧
    lenBits .byte v = 8) ∧
  (∀ v, 10 ≤ v → v ≤ 26 → lenBits .numeric v = 12 ∧ lenBits .alphanumeric v = 11 ∧
    lenBits .byte v = 16) ∧
  (∀ v, 27 ≤ v → v ≤ 40 → lenBits .numeric v = 14 ∧ lenBits .alphanumeric v = 13 ∧
    lenBits .byte v = 16) ∧
  alnumTable.length = 45 ∧
  (∀ (b : Byte) (v : Nat), alnumValue b = some v ↔ alnumTable[v]? = some b)

/-- R136, for every configuration: Cap() is eight times the data codewords of a version 1..40, a
multiple of 8, at least 8 and at most 32768; for every other value of VERSION it raises
InvalidVersion. -/
def Obligations.CapacityForEveryConfiguration : Prop :=
  ∀ (cfg : Config) (s : State),
    (1 ≤ s.version.toNat → s.version.toNat ≤ 40 → ∃ c, capacity cfg s = some c ∧
      c = 8 * cfg.dataCodewords s.version.toNat s.ecl ∧ c % 8 = 0 ∧ 8 ≤ c ∧ c ≤ 32768) ∧
    (s.version.toNat = 0 ∨ 40 < s.version.toNat → capacity cfg s = none)

/-- R135: Push(n, v) appends the bits of `v`, most significant first, and writes nothing else; Push(0,
0) changes nothing; where the bits from LEN on are 0, appending zero bits only moves LEN, and Push is
OR-ing the 1 bits of `v` into place. -/
def Obligations.PushAppendsMostSignificantFirst : Prop :=
  ∀ (n v : Nat) (s : State), Memory.wf s.buf = true → n ≤ 16 → v < 2 ^ n →
    s.len.toNat + n ≤ 8 * pbufBytes →
    Appended (bitsOf n v) s (push n v s) ∧ Memory.wf (push n v s).buf = true ∧
    SameFault s (push n v s) ∧ SameCls s (push n v s) ∧ SameTarget s (push n v s) ∧
    SameSegment s (push n v s) ∧ SameRse s (push n v s) ∧
    push 0 0 s = s ∧
    ((∀ p, s.len.toNat ≤ p → Memory.readBit s.buf p = false) →
      push n 0 s = setLen (s.len.toNat + n) s ∧
      ∀ p, Memory.readBit (push n v s).buf p = (Memory.readBit s.buf p ||
        (decide (s.len.toNat ≤ p ∧ p < s.len.toNat + n) &&
          v.testBit (n - 1 - (p - s.len.toNat)))))

/-- R137. -/
def Obligations.PckInitRule : Prop :=
  ∀ (ver : Nat) (ec : EcLevel) (s : State), ver < 2 ^ 8 →
    encode (.pckInit ver ec) = BitVec.ofNat 32 (0x20000000 + ver * 2 ^ 8 + ec.code) ∧
    (s.fault = true → IsIgnored (.pckInit ver ec) s) ∧
    (s.fault = false → ver = 0 ∨ 40 < ver → FaultsWith .invalidVersion (.pckInit ver ec) s) ∧
    (s.fault = false → 1 ≤ ver → ver ≤ 40 → ∃ t, exec (.pckInit ver ec) s = .next t ∧
      t.version.toNat = ver ∧ t.ecl = ec ∧ t.len = 0#16 ∧ (∀ a, Memory.read t.buf a = 0#8) ∧
      t.curMode = .numeric ∧ t.rem = 0#16 ∧ t.acc = 0#7 ∧ t.accN = 0 ∧
      SameFault s t ∧ SameCls s t ∧ SameRse s t ∧ Answered .none s t)

/-- R138. -/
def Obligations.PckBitsRule : Prop :=
  ∀ (n value : Nat) (s : State), n < 2 ^ 5 → value < 2 ^ 16 → Memory.wf s.buf = true →
    encode (.pckBits n value) = BitVec.ofNat 32 (0x21000000 + n * 2 ^ 16 + value) ∧
    (s.fault = true → IsIgnored (.pckBits n value) s) ∧
    (s.fault = false →
      (16 < n ∨ 2 ^ n ≤ value → FaultsWith .illegalOperand (.pckBits n value) s) ∧
      (n ≤ 16 → value < 2 ^ n →
        (s.rem ≠ 0#16 → FaultsWith .badSequence (.pckBits n value) s) ∧
        (s.rem = 0#16 →
          (capacity defaultConfig s = none →
            FaultsWith .invalidVersion (.pckBits n value) s) ∧
          (∀ c, capacity defaultConfig s = some c →
            (c < s.len.toNat + n → FaultsWith .dataTooLong (.pckBits n value) s) ∧
            (s.len.toNat + n ≤ c → ∃ t, exec (.pckBits n value) s = .next t ∧
              Appended (bitsOf n value) s t ∧ SameFault s t ∧ SameCls s t ∧ SameTarget s t ∧
              SameSegment s t ∧ SameRse s t ∧ Answered .none s t)))))

/-- R139: the header is appended as a whole or not at all, and the segment is open for `count`
characters. -/
def Obligations.PckSegRule : Prop :=
  ∀ (mode count : Nat) (s : State), mode < 2 ^ 2 → count < 2 ^ 16 → Memory.wf s.buf = true →
    encode (.pckSeg mode count) = BitVec.ofNat 32 (0x22000000 + mode * 2 ^ 16 + count) ∧
    (s.fault = true → IsIgnored (.pckSeg mode count) s) ∧
    (s.fault = false →
      (mode = 3 → FaultsWith .illegalOperand (.pckSeg mode count) s) ∧
      (∀ m, modeCode m = mode →
        (s.rem ≠ 0#16 → FaultsWith .badSequence (.pckSeg mode count) s) ∧
        (s.rem = 0#16 →
          (capacity defaultConfig s = none →
            FaultsWith .invalidVersion (.pckSeg mode count) s) ∧
          (∀ c, capacity defaultConfig s = some c →
            (2 ^ lenBits m s.version.toNat ≤ count →
              FaultsWith .dataTooLong (.pckSeg mode count) s) ∧
            (count < 2 ^ lenBits m s.version.toNat →
              (c < s.len.toNat + 4 + lenBits m s.version.toNat →
                FaultsWith .dataTooLong (.pckSeg mode count) s) ∧
              (s.len.toNat + 4 + lenBits m s.version.toNat ≤ c →
                ∃ t, exec (.pckSeg mode count) s = .next t ∧
                  Appended (bitsOf 4 (modeInd m) ++ bitsOf (lenBits m s.version.toNat) count)
                    s t ∧
                  t.curMode = m ∧ t.rem.toNat = count ∧ t.acc = 0#7 ∧ t.accN = 0 ∧
                  SameFault s t ∧ SameCls s t ∧ SameTarget s t ∧ SameRse s t ∧
                  Answered .none s t))))))

/-- R140 in every state, those that no run reaches among them: the three packings and the faults, in
their order; on a fault nothing changes. Two clauses are not R140's own: that a group whose value does
not fit its width, which only an unreachable partial group gives (GroupsFitTheirWidths), is pushed as
its low bits is log entry 9 (DEDUCED), and InvalidVersion with a segment open, where R140 says that the
capacity cannot fault, is R136's fault in a state that breaks R28 item 7. -/
def Obligations.PckDataRule : Prop :=
  ∀ (b : Byte) (s : State), Memory.wf s.buf = true →
    encode (.pckData b) = BitVec.ofNat 32 (0x23000000 + b.toNat) ∧
    (s.fault = true → IsIgnored (.pckData b) s) ∧
    (s.fault = false →
      (s.rem = 0#16 → FaultsWith .badSequence (.pckData b) s) ∧
      (s.rem ≠ 0#16 →
        (capacity defaultConfig s = none → FaultsWith .invalidVersion (.pckData b) s) ∧
        (∀ c, capacity defaultConfig s = some c →
          (validIn s.curMode b = false → FaultsWith .badChar (.pckData b) s) ∧
          (validIn s.curMode b = true →
            (s.curMode = .numeric →
              (s.accN = 2 →
                CompletesGroup b 10 (s.acc.toNat * 10 + digit b) c s) ∧
              (s.accN = 1 → s.rem = 1#16 →
                CompletesGroup b 7 (s.acc.toNat * 10 + digit b) c s) ∧
              (s.accN = 1 → s.rem ≠ 1#16 →
                KeepsGroup b (s.acc.toNat * 10 + digit b) 2 s) ∧
              (s.accN = 0 → s.rem = 1#16 →
                CompletesGroup b 4 (s.acc.toNat * 10 + digit b) c s) ∧
              (s.accN = 0 → s.rem ≠ 1#16 →
                KeepsGroup b (s.acc.toNat * 10 + digit b) 1 s)) ∧
            (s.curMode = .alphanumeric →
              (s.accN = 1 → CompletesGroup b 11 (s.acc.toNat * 45 + alnum b) c s) ∧
              (s.accN ≠ 1 → s.rem = 1#16 → CompletesGroup b 6 (alnum b) c s) ∧
              (s.accN ≠ 1 → s.rem ≠ 1#16 → KeepsGroup b (alnum b) 1 s)) ∧
            (s.curMode = .byte → CompletesGroup b 8 b.toNat c s)))))

/-- R141: the terminator and the zero fill only move LEN, the pad codewords alternate from the byte
boundary to the end, LEN ends at the capacity, a second PCK.TERM is a no-op, and every append of at
least one bit then faults with DataTooLong. -/
def Obligations.PckTermRule : Prop :=
  encode .pckTerm = 0x24000000 ∧
  ∀ s : State, Memory.wf s.buf = true →
    (s.fault = true → IsIgnored .pckTerm s) ∧
    (s.fault = false →
      (s.rem ≠ 0#16 → FaultsWith .badSequence .pckTerm s) ∧
      (s.rem = 0#16 →
        (capacity defaultConfig s = none → FaultsWith .invalidVersion .pckTerm s) ∧
        (∀ c, capacity defaultConfig s = some c →
          (c < s.len.toNat → FaultsWith .dataTooLong .pckTerm s) ∧
          (s.len.toNat ≤ c → ∃ t, exec .pckTerm s = .next t ∧
            t.len.toNat = c ∧
            (∀ a, (s.len.toNat + min 4 (c - s.len.toNat) + 7) / 8 ≤ a → a < c / 8 →
              Memory.read t.buf a =
                if (a - (s.len.toNat + min 4 (c - s.len.toNat) + 7) / 8) % 2 = 0 then 0xEC#8
                else 0x11#8) ∧
            (∀ a, a < (s.len.toNat + min 4 (c - s.len.toNat) + 7) / 8 ∨ c / 8 ≤ a →
              Memory.read t.buf a = Memory.read s.buf a) ∧
            (s.len.toNat = c → SamePck s t) ∧
            (∀ n value, 1 ≤ n → n ≤ 16 → value < 2 ^ n →
              FaultsWith .dataTooLong (.pckBits n value) t) ∧
            (∀ m count, FaultsWith .dataTooLong (.pckSeg (modeCode m) count) t) ∧
            SameFault s t ∧ SameCls s t ∧ SameTarget s t ∧ SameSegment s t ∧ SameRse s t ∧
            Answered .none s t))))

/-- R142. -/
def Obligations.RdPbufRule : Prop :=
  ∀ (idx : Nat) (s : State), idx < 2 ^ 16 →
    encode (.rdPbuf idx) = BitVec.ofNat 32 (0x25000000 + idx) ∧
    (s.fault = true → IsIgnored (.rdPbuf idx) s) ∧
    (s.fault = false → 4096 ≤ idx → FaultsWith .illegalOperand (.rdPbuf idx) s) ∧
    (s.fault = false → idx < 4096 → ∃ t, exec (.rdPbuf idx) s = .next t ∧ SameTuple s t ∧
      Answered (.word (BitVec.ofNat 32 (Memory.read s.buf idx).toNat)) s t)

/-- R28 item 3 and R136, for every configuration (the spec marks R28 "[derived: ...]"): no packer
command that appends takes LEN above the capacity, and PCK.TERM, where it does not fault, ends at it. -/
def Obligations.AppendsFitEveryConfiguration : Prop :=
  ∀ (cfg : Config) (s t : State) (c : Nat) (resp : Response), capacity cfg s = some c →
    s.len.toNat ≤ c →
    (∀ n value, pckBitsEffect cfg n value s = .done t resp →
      s.len.toNat ≤ t.len.toNat ∧ t.len.toNat ≤ c) ∧
    (∀ mode count, pckSegEffect cfg mode count s = .done t resp →
      s.len.toNat ≤ t.len.toNat ∧ t.len.toNat ≤ c) ∧
    (∀ b, pckDataEffect cfg b s = .done t resp →
      s.len.toNat ≤ t.len.toNat ∧ t.len.toNat ≤ c) ∧
    (pckTermEffect cfg s = .done t resp → t.len.toNat = c)

/-- R28 item 10 (the spec marks R28 "[derived: ...]"): LEN never decreases but by PCK.INIT and by the
two resets. -/
def Obligations.LenNeverDecreases : Prop :=
  ∀ (i : Instr) (s t : State), i ≠ .rst → (∀ ver ec, i ≠ .pckInit ver ec) →
    exec i s = .next t → s.len.toNat ≤ t.len.toNat

/-- R143, and the part of R144 for one segment (both marked "[derived: ...]"): from a state with no
segment open, PCK.SEG and the segment's characters, all valid in the mode, append exactly the
segment's stream, of SegBits bits, and leave no partial group, if the count fits its field and the
bits fit the capacity; else the sequence faults with DataTooLong. -/
def Obligations.SegmentAppendsItsStream : Prop :=
  ∀ (m : Mode) (chars : List Byte) (s : State) (c : Nat), Memory.wf s.buf = true →
    s.fault = false → s.rem = 0#16 → capacity defaultConfig s = some c →
    chars.length < 2 ^ 16 → (∀ b ∈ chars, validIn m b = true) →
    (segStream m chars s.version.toNat).length = segBits m chars.length s.version.toNat ∧
    (chars.length < 2 ^ lenBits m s.version.toNat →
      s.len.toNat + segBits m chars.length s.version.toNat ≤ c →
      ∃ t, execAll (segCommands m chars) s = .next t ∧ t.fault = false ∧
        Appended (segStream m chars s.version.toNat) s t ∧
        t.rem = 0#16 ∧ t.acc = 0#7 ∧ t.accN = 0 ∧
        SameCls s t ∧ SameTarget s t ∧ SameRse s t) ∧
    (2 ^ lenBits m s.version.toNat ≤ chars.length ∨
        c < s.len.toNat + segBits m chars.length s.version.toNat →
      ∃ t, execAll (segCommands m chars) s = .next t ∧ t.fault = true ∧
        t.cause = .dataTooLong)

/-- R140 corner case (2): in a state that meets the invariants every group PCK.DATA completes fits its
width, of at most 11 bits, and every partial group it keeps fits ACC and ACCN. -/
def Obligations.GroupsFitTheirWidths : Prop :=
  ∀ (s : State) (b : Byte), Inv s → s.rem ≠ 0#16 →
    (∀ n v, dataGroup s.curMode s.acc.toNat s.accN.val (s.rem.toNat - 1) b = .emit n v →
      n ≤ 11 ∧ v < 2 ^ n) ∧
    (∀ a k, dataGroup s.curMode s.acc.toNat s.accN.val (s.rem.toNat - 1) b = .keep a k →
      a ≤ 99 ∧ 1 ≤ k ∧ k ≤ 2)

/-- R143: the two forms of DataBits agree: the packing rule and the source's cost function. -/
def Obligations.DataBitsIsTheCostFunction : Prop :=
  ∀ l : Nat, dataBits .numeric l = (10 * l + 2) / 3 ∧ dataBits .alphanumeric l = (11 * l + 1) / 2 ∧
    dataBits .byte l = 8 * l

/-- R144 case (b) (the spec marks it "[derived: from rules R137 to R143]"): if every count fits its
field and the segments' bits fit the capacity, the whole sequence of R130 ends with LEN at the
capacity and the buffer equal to the concatenated segments, then zeros to a byte boundary, then the
pad codewords. -/
def Obligations.MessageIsItsStream : Prop :=
  ∀ (v : Nat) (e : EcLevel) (segs : List (Mode × List Byte)) (s : State), s.fault = false →
    1 ≤ v → v ≤ 40 →
    (∀ x ∈ segs, x.2.length < 2 ^ lenBits x.1 v ∧ ∀ b ∈ x.2, validIn x.1 b = true) →
    (segs.map fun x => segBits x.1 x.2.length v).sum ≤ 8 * defaultDataCodewords v e →
    ∃ t, execAll ([.pckInit v e] ++ segs.flatMap (fun x => segCommands x.1 x.2) ++ [.pckTerm]) s =
        .next t ∧
      t.fault = false ∧ t.len.toNat = 8 * defaultDataCodewords v e ∧
      (∀ j b, (segs.flatMap fun x => segStream x.1 x.2 v)[j]? = some b →
        Memory.readBit t.buf j = b) ∧
      (∀ p, (segs.flatMap fun x => segStream x.1 x.2 v).length ≤ p →
        p < 8 * (((segs.flatMap fun x => segStream x.1 x.2 v).length + min 4
          (8 * defaultDataCodewords v e -
            (segs.flatMap fun x => segStream x.1 x.2 v).length) + 7) / 8) →
        Memory.readBit t.buf p = false) ∧
      (∀ a, ((segs.flatMap fun x => segStream x.1 x.2 v).length + min 4
          (8 * defaultDataCodewords v e -
            (segs.flatMap fun x => segStream x.1 x.2 v).length) + 7) / 8 ≤ a →
        a < defaultDataCodewords v e →
        Memory.read t.buf a =
          if (a - ((segs.flatMap fun x => segStream x.1 x.2 v).length + min 4
            (8 * defaultDataCodewords v e -
              (segs.flatMap fun x => segStream x.1 x.2 v).length) + 7) / 8) % 2 = 0
          then 0xEC#8 else 0x11#8) ∧
      (∀ a, defaultDataCodewords v e ≤ a → Memory.read t.buf a = 0#8)

/-- R145 (the spec marks it "[derived: from rules R141 and R143]"): a segment to which no further
character can be added leaves less than a byte of room, and PCK.TERM then appends only zero bits, no
pad codeword. -/
def Obligations.MaximalSegmentLeavesNoPadCodeword : Prop :=
  ∀ (m : Mode) (v : Nat) (e : EcLevel) (chars : List Byte) (s : State), s.fault = false →
    1 ≤ v → v ≤ 40 → (∀ b ∈ chars, validIn m b = true) → chars.length < 2 ^ lenBits m v →
    segBits m chars.length v ≤ 8 * defaultDataCodewords v e →
    8 * defaultDataCodewords v e < segBits m (chars.length + 1) v →
    8 * defaultDataCodewords v e - segBits m chars.length v < 8 ∧
    ∃ t, execAll ([.pckInit v e] ++ segCommands m chars ++ [.pckTerm]) s = .next t ∧
      t.fault = false ∧ t.len.toNat = 8 * defaultDataCodewords v e ∧
      ∀ p, segBits m chars.length v ≤ p → Memory.readBit t.buf p = false

/-! ### The Reed-Solomon encoder (43_reed_solomon.md) -/

/-- R171: `gmul` is commutative and associative, distributes over exclusive-or, and has 0 and 1. -/
def Obligations.GmulIsAFieldProduct : Prop :=
  (∀ a b : Byte, gmul a b = gmul b a) ∧
  (∀ a b c : Byte, gmul (gmul a b) c = gmul a (gmul b c)) ∧
  (∀ a b c : Byte, gmul a (b ^^^ c) = gmul a b ^^^ gmul a c) ∧
  (∀ a : Byte, gmul a 0 = 0 ∧ gmul a 1 = a)

/-- R171, R172: α = 0x02 is a primitive element, so every nonzero byte is exactly one of
`α^0 .. α^254`, and a product of two powers is the power of the summed exponents modulo 255. -/
def Obligations.PowersOfAlpha : Prop :=
  alphaPow 255 = 1 ∧
  (∀ a : Byte, a ≠ 0 → ∃ i, i < 255 ∧ alphaPow i = a ∧ ∀ j, j < 255 → alphaPow j = a → j = i) ∧
  (∀ i j : Nat, gmul (alphaPow i) (alphaPow j) = alphaPow ((i + j) % 255))

/-- R173: `g_n` has degree n, leading coefficient 1, and the roots `α^0 .. α^(n−1)`; and the
generator of length 7 is the printed one. -/
def Obligations.GeneratorRoots : Prop :=
  (∀ n, (genPoly n).length = n + 1 ∧ (genPoly n)[0]? = some 1#8) ∧
  (∀ n i, i < n → polyEval (genPoly n) (alphaPow i) = 0#8) ∧
  genCoeffs 7 = [0x7F, 0x7A, 0x9A, 0xA4, 0x0B, 0x44, 0x75]

/-- R175. -/
def Obligations.RseStartRule : Prop :=
  ∀ (n : Nat) (s : State), n < 2 ^ 8 →
    encode (.rseStart n) = BitVec.ofNat 32 (0x30000000 + n) ∧
    (s.fault = true → IsIgnored (.rseStart n) s) ∧
    (s.fault = false → n = 0 ∨ 30 < n → FaultsWith .illegalOperand (.rseStart n) s) ∧
    (s.fault = false → 1 ≤ n → n ≤ 30 → ∃ t, exec (.rseStart n) s = .next t ∧
      t.n.val = n ∧ (∀ i : Fin 30, t.r[i] = 0#8) ∧ rsActive t = true ∧
      SameFault s t ∧ SameCls s t ∧ SamePck s t ∧ Answered .none s t)

/-- R176. -/
def Obligations.RseDataRule : Prop :=
  ∀ (b : Byte) (s : State),
    encode (.rseData b) = BitVec.ofNat 32 (0x31000000 + b.toNat) ∧
    (s.fault = true → IsIgnored (.rseData b) s) ∧
    (s.fault = false → s.n = 0 → FaultsWith .badSequence (.rseData b) s) ∧
    (s.fault = false → s.n ≠ 0 → ∃ t, exec (.rseData b) s = .next t ∧
      (∀ i, i + 1 < s.n.val → remainder t i = remainder s (i + 1) ^^^
        gmul ((genCoeffs s.n.val).getD i 0#8) (b ^^^ remainder s 0)) ∧
      (remainder t (s.n.val - 1) =
        gmul ((genCoeffs s.n.val).getD (s.n.val - 1) 0#8) (b ^^^ remainder s 0)) ∧
      (∀ i, s.n.val ≤ i → remainder t i = remainder s i) ∧
      (s.n.val = 1 → remainder t 0 = b ^^^ remainder s 0) ∧
      t.n = s.n ∧ SameFault s t ∧ SameCls s t ∧ SamePck s t ∧ Answered .none s t)

/-- R177. -/
def Obligations.RdEcRule : Prop :=
  ∀ (idx : Nat) (s : State), idx < 2 ^ 16 →
    encode (.rdEc idx) = BitVec.ofNat 32 (0x32000000 + idx) ∧
    (s.fault = true → IsIgnored (.rdEc idx) s) ∧
    (s.fault = false → s.n.val ≤ idx → FaultsWith .illegalOperand (.rdEc idx) s) ∧
    (s.fault = false → idx < s.n.val → ∃ t, exec (.rdEc idx) s = .next t ∧ SameTuple s t ∧
      Answered (.word (BitVec.ofNat 32 (remainder s idx).toNat)) s t)

/-- R174, R178 (the spec marks R178 "[derived: from rules R174 and R176]"): after RSE.START n and the
block's data, the data followed by `R[0..n−1]` is a multiple of the generator polynomial, so the
registers are the remainder; and they are the only bytes of which that is true. -/
def Obligations.RegistersHoldTheRemainder : Prop :=
  ∀ (n : Nat) (data : List Byte) (s : State), 1 ≤ n → n ≤ 30 → s.fault = false →
    ∃ t, execAll (.rseStart n :: data.map .rseData) s = .next t ∧ t.fault = false ∧
      t.n.val = n ∧ (remainderOf t).length = n ∧
      (∃ q, q.length = data.length ∧ polyMul q (genPoly n) = data ++ remainderOf t) ∧
      (∀ q e, q.length = data.length → e.length = n →
        polyMul q (genPoly n) = data ++ e → e = remainderOf t)

/-- R179 items 1, 2 and 4 (the spec marks it "[derived: from rule R178]"): the remainder of the
exclusive-or of two blocks is the exclusive-or of their remainders, all-zero data gives an all-zero
remainder, and leading zeros do not change it. -/
def Obligations.RemainderIsLinear : Prop :=
  ∀ (n : Nat) (s : State), 1 ≤ n → n ≤ 30 → s.fault = false →
    (∀ d d' t t' u, d.length = d'.length →
      execAll (.rseStart n :: d.map .rseData) s = .next t →
      execAll (.rseStart n :: d'.map .rseData) s = .next t' →
      execAll (.rseStart n :: (polyAdd d d').map .rseData) s = .next u →
      remainderOf u = polyAdd (remainderOf t) (remainderOf t')) ∧
    (∀ k t, execAll (.rseStart n :: (List.replicate k 0#8).map .rseData) s = .next t →
      remainderOf t = List.replicate n 0#8) ∧
    (∀ k d t u, execAll (.rseStart n :: d.map .rseData) s = .next t →
      execAll (.rseStart n :: (List.replicate k 0#8 ++ d).map .rseData) s = .next u →
      remainderOf u = remainderOf t)

/-! ### The whole machine (10_state.md R28, R29, R32, 20_memory.md R58) -/

/-- R28 (the spec marks it "[derived: from the command rules of files 40 to 43 and 60_exceptions.md
rule R214, by induction on the sequence]"): every step keeps the invariants, whatever the host
presents, faulting or not. -/
def Obligations.StepKeepsTheInvariants : Prop :=
  ∀ s t : State, Inv s → step s = .next t → Inv t

/-- R28: the reset state meets the invariants. -/
def Obligations.ResetMeetsTheInvariants : Prop := Inv State.reset

/-- R29 (the spec marks it "[derived: from the command rules of files 40 to 43]"): the write matrix.
But for RST, a command writes a register only where the matrix says so; a faulting command writes only
the fault group; NOP and the reads write none when they succeed. -/
def Obligations.WriteMatrix : Prop :=
  ∀ (i : Instr) (s t : State), exec i s = .next t → i ≠ .rst →
    (t.fault = s.fault → SameFault s t) ∧
    (s.fault = true → t.fault = true) ∧
    (s.fault = false → t.fault = true → SameCls s t ∧ SamePck s t ∧ SameRse s t) ∧
    (i.unit ≠ .cls → SameCls s t) ∧
    ((∀ ver ec, i ≠ .pckInit ver ec) → SameTarget s t) ∧
    ((∀ ver ec, i ≠ .pckInit ver ec) → appendsToBuffer i = false → t.len = s.len ∧ SameBuf s t) ∧
    ((∀ ver ec, i ≠ .pckInit ver ec) → (∀ m k, i ≠ .pckSeg m k) → (∀ b, i ≠ .pckData b) →
      SameSegment s t) ∧
    ((∀ k, i ≠ .rseStart k) → t.n = s.n) ∧
    ((∀ k, i ≠ .rseStart k) → (∀ b, i ≠ .rseData b) → t.r = s.r) ∧
    ((i = .nop ∨ (∃ a, i = .rdCsr a) ∨ (∃ a, i = .rdPbuf a) ∨ ∃ a, i = .rdEc a) →
      t.fault = s.fault → SameTuple s t)

/-- R58: a read that succeeds changes no state, and repeating it returns the same value; its only
possible state change is the fault IllegalOperand. -/
def Obligations.ReadsHaveNoSideEffects : Prop :=
  ∀ (i : Instr) (s t : State),
    ((∃ a, i = .rdCsr a) ∨ (∃ a, i = .rdPbuf a) ∨ ∃ a, i = .rdEc a) → exec i s = .next t →
    (SameTuple s t ∨ Raised .illegalOperand (encode i) s t) ∧
    (∀ v u, t.resps = .word v :: s.resps → exec i t = .next u →
      SameTuple s u ∧ u.resps = .word v :: t.resps)

/-- R29 and R198 (both marked "[derived: ...]"): with no fault, what a CLS, PCK or RSE command does to
its own unit, whether it faults and with what cause, and what it responds depend on the registers of
its unit alone. -/
def Obligations.UnitsAreIndependent : Prop :=
  ∀ (i : Instr) (s s' t t' : State), i.unit ≠ .system → s.fault = false → s'.fault = false →
    Memory.wf s.buf = true → Memory.wf s'.buf = true → SameUnit i.unit s s' →
    exec i s = .next t → exec i s' = .next t' →
    SameUnit i.unit t t' ∧ t'.fault = t.fault ∧ (t.fault = true → t'.cause = t.cause) ∧
    t'.resps.head? = t.resps.head?

/-- R198 (the spec marks it "[derived: ...]"): with no fault, after a unit's initialising command the
registers of the unit do not depend on anything before it. -/
def Obligations.InitialisingCommandsForgetThePast : Prop :=
  ∀ s s' : State, s.fault = false → s'.fault = false →
    (∀ i t t', i = .clsClr ∨ i = .clsEnd → exec i s = .next t → exec i s' = .next t' →
      SameCls t t') ∧
    (∀ ver ec t t', 1 ≤ ver → ver ≤ 40 → exec (.pckInit ver ec) s = .next t →
      exec (.pckInit ver ec) s' = .next t' → SamePck t t') ∧
    (∀ n t t', 1 ≤ n → n ≤ 30 → exec (.rseStart n) s = .next t →
      exec (.rseStart n) s' = .next t' → SameRse t t')

/-- R32 (the spec marks it "[derived: from rules R23, R26, R27]"): no state is hidden. Two states that
meet the invariants and read the same through every CSR, every byte of PBUF and every readable
remainder register have the same state tuple. -/
def Obligations.AllStateIsObservable : Prop :=
  ∀ s t : State, Inv s → Inv t → (∀ a, a ≤ 6 → csrRead t a = csrRead s a) →
    (∀ a, a < 4096 → Memory.read t.buf a = Memory.read s.buf a) →
    (∀ i, i < s.n.val → remainder t i = remainder s i) → SameTuple s t

/-- R246: PCK.TERM, where it does not fault, completes a packing; CLS.END completes a classification;
and a faulted state is no completed state of any activity. -/
def Obligations.CompletedActivities : Prop :=
  (∀ (hist : List Instr) (s t : State), s.fault = false → exec .pckTerm s = .next t →
    t.fault = false → PackingComplete defaultConfig (.pckTerm :: hist) t) ∧
  (∀ (hist : List Instr) (s t : State), s.fault = false → exec .clsEnd s = .next t →
    ClassificationComplete (.clsEnd :: hist) t ∧ t.cstate = .init ∧ t.pos = 0#16) ∧
  (∀ (n : Nat) (data : List Byte) (s t : State), s.fault = false → 1 ≤ n → n ≤ 30 →
    execAll (.rseStart n :: data.map .rseData) s = .next t →
    BlockComplete data ((.rseStart n :: data.map Instr.rseData).reverse) t) ∧
  (∀ (cfg : Config) (hist : List Instr) (block : List Byte) (s : State), s.fault = true →
    ¬ ClassificationComplete hist s ∧ ¬ PackingComplete cfg hist s ∧
    ¬ BlockComplete block hist s)
end

