-- ==== Sys2Proof/Laws/State.lean ====
section
/-! SUPPORT. One lemma per field per update of State, each true by rfl: no proof need unfold a record
update of a shared operation. -/

namespace Sys2Proof.Machine

/-! ### respond -/

@[simp] theorem respond_fault (resp : Response) (s : State) : (respond resp s).fault = s.fault := rfl
@[simp] theorem respond_cause (resp : Response) (s : State) : (respond resp s).cause = s.cause := rfl
@[simp] theorem respond_fcmd (resp : Response) (s : State) : (respond resp s).fcmd = s.fcmd := rfl
@[simp] theorem respond_cstate (resp : Response) (s : State) : (respond resp s).cstate = s.cstate := rfl
@[simp] theorem respond_pos (resp : Response) (s : State) : (respond resp s).pos = s.pos := rfl
@[simp] theorem respond_segBegin (resp : Response) (s : State) : (respond resp s).segBegin = s.segBegin := rfl
@[simp] theorem respond_version (resp : Response) (s : State) : (respond resp s).version = s.version := rfl
@[simp] theorem respond_ecl (resp : Response) (s : State) : (respond resp s).ecl = s.ecl := rfl
@[simp] theorem respond_len (resp : Response) (s : State) : (respond resp s).len = s.len := rfl
@[simp] theorem respond_buf (resp : Response) (s : State) : (respond resp s).buf = s.buf := rfl
@[simp] theorem respond_curMode (resp : Response) (s : State) : (respond resp s).curMode = s.curMode := rfl
@[simp] theorem respond_rem (resp : Response) (s : State) : (respond resp s).rem = s.rem := rfl
@[simp] theorem respond_acc (resp : Response) (s : State) : (respond resp s).acc = s.acc := rfl
@[simp] theorem respond_accN (resp : Response) (s : State) : (respond resp s).accN = s.accN := rfl
@[simp] theorem respond_n (resp : Response) (s : State) : (respond resp s).n = s.n := rfl
@[simp] theorem respond_r (resp : Response) (s : State) : (respond resp s).r = s.r := rfl
@[simp] theorem respond_inbox (resp : Response) (s : State) : (respond resp s).inbox = s.inbox := rfl
@[simp] theorem respond_resps (resp : Response) (s : State) : (respond resp s).resps = resp :: s.resps := rfl

/-! ### raiseFault -/

@[simp] theorem raiseFault_fault (c : Cause) (w : Word) (s : State) : (raiseFault c w s).fault = true := rfl
@[simp] theorem raiseFault_cause (c : Cause) (w : Word) (s : State) : (raiseFault c w s).cause = c := rfl
@[simp] theorem raiseFault_fcmd (c : Cause) (w : Word) (s : State) : (raiseFault c w s).fcmd = w := rfl
@[simp] theorem raiseFault_cstate (c : Cause) (w : Word) (s : State) : (raiseFault c w s).cstate = s.cstate := rfl
@[simp] theorem raiseFault_pos (c : Cause) (w : Word) (s : State) : (raiseFault c w s).pos = s.pos := rfl
@[simp] theorem raiseFault_segBegin (c : Cause) (w : Word) (s : State) : (raiseFault c w s).segBegin = s.segBegin := rfl
@[simp] theorem raiseFault_version (c : Cause) (w : Word) (s : State) : (raiseFault c w s).version = s.version := rfl
@[simp] theorem raiseFault_ecl (c : Cause) (w : Word) (s : State) : (raiseFault c w s).ecl = s.ecl := rfl
@[simp] theorem raiseFault_len (c : Cause) (w : Word) (s : State) : (raiseFault c w s).len = s.len := rfl
@[simp] theorem raiseFault_buf (c : Cause) (w : Word) (s : State) : (raiseFault c w s).buf = s.buf := rfl
@[simp] theorem raiseFault_curMode (c : Cause) (w : Word) (s : State) : (raiseFault c w s).curMode = s.curMode := rfl
@[simp] theorem raiseFault_rem (c : Cause) (w : Word) (s : State) : (raiseFault c w s).rem = s.rem := rfl
@[simp] theorem raiseFault_acc (c : Cause) (w : Word) (s : State) : (raiseFault c w s).acc = s.acc := rfl
@[simp] theorem raiseFault_accN (c : Cause) (w : Word) (s : State) : (raiseFault c w s).accN = s.accN := rfl
@[simp] theorem raiseFault_n (c : Cause) (w : Word) (s : State) : (raiseFault c w s).n = s.n := rfl
@[simp] theorem raiseFault_r (c : Cause) (w : Word) (s : State) : (raiseFault c w s).r = s.r := rfl
@[simp] theorem raiseFault_inbox (c : Cause) (w : Word) (s : State) : (raiseFault c w s).inbox = s.inbox := rfl
@[simp] theorem raiseFault_resps (c : Cause) (w : Word) (s : State) : (raiseFault c w s).resps = .none :: s.resps := rfl

/-! ### clsClear -/

@[simp] theorem clsClear_fault (s : State) : (clsClear s).fault = s.fault := rfl
@[simp] theorem clsClear_cause (s : State) : (clsClear s).cause = s.cause := rfl
@[simp] theorem clsClear_fcmd (s : State) : (clsClear s).fcmd = s.fcmd := rfl
@[simp] theorem clsClear_cstate (s : State) : (clsClear s).cstate = .init := rfl
@[simp] theorem clsClear_pos (s : State) : (clsClear s).pos = 0#16 := rfl
@[simp] theorem clsClear_segBegin (s : State) : (clsClear s).segBegin = 0#16 := rfl
@[simp] theorem clsClear_version (s : State) : (clsClear s).version = s.version := rfl
@[simp] theorem clsClear_ecl (s : State) : (clsClear s).ecl = s.ecl := rfl
@[simp] theorem clsClear_len (s : State) : (clsClear s).len = s.len := rfl
@[simp] theorem clsClear_buf (s : State) : (clsClear s).buf = s.buf := rfl
@[simp] theorem clsClear_curMode (s : State) : (clsClear s).curMode = s.curMode := rfl
@[simp] theorem clsClear_rem (s : State) : (clsClear s).rem = s.rem := rfl
@[simp] theorem clsClear_acc (s : State) : (clsClear s).acc = s.acc := rfl
@[simp] theorem clsClear_accN (s : State) : (clsClear s).accN = s.accN := rfl
@[simp] theorem clsClear_n (s : State) : (clsClear s).n = s.n := rfl
@[simp] theorem clsClear_r (s : State) : (clsClear s).r = s.r := rfl
@[simp] theorem clsClear_inbox (s : State) : (clsClear s).inbox = s.inbox := rfl
@[simp] theorem clsClear_resps (s : State) : (clsClear s).resps = s.resps := rfl

/-! ### push -/

@[simp] theorem push_fault (k v : Nat) (s : State) : (push k v s).fault = s.fault := rfl
@[simp] theorem push_cause (k v : Nat) (s : State) : (push k v s).cause = s.cause := rfl
@[simp] theorem push_fcmd (k v : Nat) (s : State) : (push k v s).fcmd = s.fcmd := rfl
@[simp] theorem push_cstate (k v : Nat) (s : State) : (push k v s).cstate = s.cstate := rfl
@[simp] theorem push_pos (k v : Nat) (s : State) : (push k v s).pos = s.pos := rfl
@[simp] theorem push_segBegin (k v : Nat) (s : State) : (push k v s).segBegin = s.segBegin := rfl
@[simp] theorem push_version (k v : Nat) (s : State) : (push k v s).version = s.version := rfl
@[simp] theorem push_ecl (k v : Nat) (s : State) : (push k v s).ecl = s.ecl := rfl
@[simp] theorem push_len (k v : Nat) (s : State) : (push k v s).len = BitVec.ofNat 16 (s.len.toNat + k) := rfl
@[simp] theorem push_buf (k v : Nat) (s : State) : (push k v s).buf = Memory.pushBits s.buf s.len.toNat k v := rfl
@[simp] theorem push_curMode (k v : Nat) (s : State) : (push k v s).curMode = s.curMode := rfl
@[simp] theorem push_rem (k v : Nat) (s : State) : (push k v s).rem = s.rem := rfl
@[simp] theorem push_acc (k v : Nat) (s : State) : (push k v s).acc = s.acc := rfl
@[simp] theorem push_accN (k v : Nat) (s : State) : (push k v s).accN = s.accN := rfl
@[simp] theorem push_n (k v : Nat) (s : State) : (push k v s).n = s.n := rfl
@[simp] theorem push_r (k v : Nat) (s : State) : (push k v s).r = s.r := rfl
@[simp] theorem push_inbox (k v : Nat) (s : State) : (push k v s).inbox = s.inbox := rfl
@[simp] theorem push_resps (k v : Nat) (s : State) : (push k v s).resps = s.resps := rfl

/-! ### setLen -/

@[simp] theorem setLen_fault (l : Nat) (s : State) : (setLen l s).fault = s.fault := rfl
@[simp] theorem setLen_cause (l : Nat) (s : State) : (setLen l s).cause = s.cause := rfl
@[simp] theorem setLen_fcmd (l : Nat) (s : State) : (setLen l s).fcmd = s.fcmd := rfl
@[simp] theorem setLen_cstate (l : Nat) (s : State) : (setLen l s).cstate = s.cstate := rfl
@[simp] theorem setLen_pos (l : Nat) (s : State) : (setLen l s).pos = s.pos := rfl
@[simp] theorem setLen_segBegin (l : Nat) (s : State) : (setLen l s).segBegin = s.segBegin := rfl
@[simp] theorem setLen_version (l : Nat) (s : State) : (setLen l s).version = s.version := rfl
@[simp] theorem setLen_ecl (l : Nat) (s : State) : (setLen l s).ecl = s.ecl := rfl
@[simp] theorem setLen_len (l : Nat) (s : State) : (setLen l s).len = BitVec.ofNat 16 l := rfl
@[simp] theorem setLen_buf (l : Nat) (s : State) : (setLen l s).buf = s.buf := rfl
@[simp] theorem setLen_curMode (l : Nat) (s : State) : (setLen l s).curMode = s.curMode := rfl
@[simp] theorem setLen_rem (l : Nat) (s : State) : (setLen l s).rem = s.rem := rfl
@[simp] theorem setLen_acc (l : Nat) (s : State) : (setLen l s).acc = s.acc := rfl
@[simp] theorem setLen_accN (l : Nat) (s : State) : (setLen l s).accN = s.accN := rfl
@[simp] theorem setLen_n (l : Nat) (s : State) : (setLen l s).n = s.n := rfl
@[simp] theorem setLen_r (l : Nat) (s : State) : (setLen l s).r = s.r := rfl
@[simp] theorem setLen_inbox (l : Nat) (s : State) : (setLen l s).inbox = s.inbox := rfl
@[simp] theorem setLen_resps (l : Nat) (s : State) : (setLen l s).resps = s.resps := rfl

/-! ### resetTuple and the reset state -/

@[simp] theorem resetTuple_fault (s : State) : (resetTuple s).fault = false := rfl
@[simp] theorem resetTuple_cause (s : State) : (resetTuple s).cause = .none := rfl
@[simp] theorem resetTuple_fcmd (s : State) : (resetTuple s).fcmd = 0#32 := rfl
@[simp] theorem resetTuple_cstate (s : State) : (resetTuple s).cstate = .init := rfl
@[simp] theorem resetTuple_pos (s : State) : (resetTuple s).pos = 0#16 := rfl
@[simp] theorem resetTuple_segBegin (s : State) : (resetTuple s).segBegin = 0#16 := rfl
@[simp] theorem resetTuple_version (s : State) : (resetTuple s).version = 0#6 := rfl
@[simp] theorem resetTuple_ecl (s : State) : (resetTuple s).ecl = .M := rfl
@[simp] theorem resetTuple_len (s : State) : (resetTuple s).len = 0#16 := rfl
@[simp] theorem resetTuple_buf (s : State) : (resetTuple s).buf = [] := rfl
@[simp] theorem resetTuple_curMode (s : State) : (resetTuple s).curMode = .numeric := rfl
@[simp] theorem resetTuple_rem (s : State) : (resetTuple s).rem = 0#16 := rfl
@[simp] theorem resetTuple_acc (s : State) : (resetTuple s).acc = 0#7 := rfl
@[simp] theorem resetTuple_accN (s : State) : (resetTuple s).accN = 0 := rfl
@[simp] theorem resetTuple_n (s : State) : (resetTuple s).n = 0 := rfl
@[simp] theorem resetTuple_r (s : State) : (resetTuple s).r = Vector.replicate 30 0#8 := rfl
@[simp] theorem resetTuple_inbox (s : State) : (resetTuple s).inbox = s.inbox := rfl
@[simp] theorem resetTuple_resps (s : State) : (resetTuple s).resps = s.resps := rfl

@[simp] theorem reset_fault : State.reset.fault = false := rfl
@[simp] theorem reset_cause : State.reset.cause = .none := rfl
@[simp] theorem reset_fcmd : State.reset.fcmd = 0#32 := rfl
@[simp] theorem reset_cstate : State.reset.cstate = .init := rfl
@[simp] theorem reset_pos : State.reset.pos = 0#16 := rfl
@[simp] theorem reset_segBegin : State.reset.segBegin = 0#16 := rfl
@[simp] theorem reset_version : State.reset.version = 0#6 := rfl
@[simp] theorem reset_ecl : State.reset.ecl = .M := rfl
@[simp] theorem reset_len : State.reset.len = 0#16 := rfl
@[simp] theorem reset_buf : State.reset.buf = [] := rfl
@[simp] theorem reset_curMode : State.reset.curMode = .numeric := rfl
@[simp] theorem reset_rem : State.reset.rem = 0#16 := rfl
@[simp] theorem reset_acc : State.reset.acc = 0#7 := rfl
@[simp] theorem reset_accN : State.reset.accN = 0 := rfl
@[simp] theorem reset_n : State.reset.n = 0 := rfl
@[simp] theorem reset_r : State.reset.r = Vector.replicate 30 0#8 := rfl
@[simp] theorem reset_inbox : State.reset.inbox = [] := rfl
@[simp] theorem reset_resps : State.reset.resps = [] := rfl

/-! ### padCodewords and terminate: everything but LEN and BUF is left alone -/

@[simp] theorem padCodewords_fault (k : Nat) (even : Bool) (s : State) :
    (padCodewords k even s).fault = s.fault := by
  induction k generalizing even s with
  | zero => rfl
  | succ k ih => simp [padCodewords, ih]

@[simp] theorem padCodewords_cause (k : Nat) (even : Bool) (s : State) :
    (padCodewords k even s).cause = s.cause := by
  induction k generalizing even s with
  | zero => rfl
  | succ k ih => simp [padCodewords, ih]

@[simp] theorem padCodewords_fcmd (k : Nat) (even : Bool) (s : State) :
    (padCodewords k even s).fcmd = s.fcmd := by
  induction k generalizing even s with
  | zero => rfl
  | succ k ih => simp [padCodewords, ih]

@[simp] theorem padCodewords_cstate (k : Nat) (even : Bool) (s : State) :
    (padCodewords k even s).cstate = s.cstate := by
  induction k generalizing even s with
  | zero => rfl
  | succ k ih => simp [padCodewords, ih]

@[simp] theorem padCodewords_pos (k : Nat) (even : Bool) (s : State) :
    (padCodewords k even s).pos = s.pos := by
  induction k generalizing even s with
  | zero => rfl
  | succ k ih => simp [padCodewords, ih]

@[simp] theorem padCodewords_segBegin (k : Nat) (even : Bool) (s : State) :
    (padCodewords k even s).segBegin = s.segBegin := by
  induction k generalizing even s with
  | zero => rfl
  | succ k ih => simp [padCodewords, ih]

@[simp] theorem padCodewords_version (k : Nat) (even : Bool) (s : State) :
    (padCodewords k even s).version = s.version := by
  induction k generalizing even s with
  | zero => rfl
  | succ k ih => simp [padCodewords, ih]

@[simp] theorem padCodewords_ecl (k : Nat) (even : Bool) (s : State) :
    (padCodewords k even s).ecl = s.ecl := by
  induction k generalizing even s with
  | zero => rfl
  | succ k ih => simp [padCodewords, ih]

@[simp] theorem padCodewords_curMode (k : Nat) (even : Bool) (s : State) :
    (padCodewords k even s).curMode = s.curMode := by
  induction k generalizing even s with
  | zero => rfl
  | succ k ih => simp [padCodewords, ih]

@[simp] theorem padCodewords_rem (k : Nat) (even : Bool) (s : State) :
    (padCodewords k even s).rem = s.rem := by
  induction k generalizing even s with
  | zero => rfl
  | succ k ih => simp [padCodewords, ih]

@[simp] theorem padCodewords_acc (k : Nat) (even : Bool) (s : State) :
    (padCodewords k even s).acc = s.acc := by
  induction k generalizing even s with
  | zero => rfl
  | succ k ih => simp [padCodewords, ih]

@[simp] theorem padCodewords_accN (k : Nat) (even : Bool) (s : State) :
    (padCodewords k even s).accN = s.accN := by
  induction k generalizing even s with
  | zero => rfl
  | succ k ih => simp [padCodewords, ih]

@[simp] theorem padCodewords_n (k : Nat) (even : Bool) (s : State) :
    (padCodewords k even s).n = s.n := by
  induction k generalizing even s with
  | zero => rfl
  | succ k ih => simp [padCodewords, ih]

@[simp] theorem padCodewords_r (k : Nat) (even : Bool) (s : State) :
    (padCodewords k even s).r = s.r := by
  induction k generalizing even s with
  | zero => rfl
  | succ k ih => simp [padCodewords, ih]

@[simp] theorem padCodewords_inbox (k : Nat) (even : Bool) (s : State) :
    (padCodewords k even s).inbox = s.inbox := by
  induction k generalizing even s with
  | zero => rfl
  | succ k ih => simp [padCodewords, ih]

@[simp] theorem padCodewords_resps (k : Nat) (even : Bool) (s : State) :
    (padCodewords k even s).resps = s.resps := by
  induction k generalizing even s with
  | zero => rfl
  | succ k ih => simp [padCodewords, ih]

@[simp] theorem terminate_fault (c : Nat) (s : State) : (terminate c s).fault = s.fault := by
  simp only [terminate]
  split <;> simp

@[simp] theorem terminate_cause (c : Nat) (s : State) : (terminate c s).cause = s.cause := by
  simp only [terminate]
  split <;> simp

@[simp] theorem terminate_fcmd (c : Nat) (s : State) : (terminate c s).fcmd = s.fcmd := by
  simp only [terminate]
  split <;> simp

@[simp] theorem terminate_cstate (c : Nat) (s : State) : (terminate c s).cstate = s.cstate := by
  simp only [terminate]
  split <;> simp

@[simp] theorem terminate_pos (c : Nat) (s : State) : (terminate c s).pos = s.pos := by
  simp only [terminate]
  split <;> simp

@[simp] theorem terminate_segBegin (c : Nat) (s : State) : (terminate c s).segBegin = s.segBegin := by
  simp only [terminate]
  split <;> simp

@[simp] theorem terminate_version (c : Nat) (s : State) : (terminate c s).version = s.version := by
  simp only [terminate]
  split <;> simp

@[simp] theorem terminate_ecl (c : Nat) (s : State) : (terminate c s).ecl = s.ecl := by
  simp only [terminate]
  split <;> simp

@[simp] theorem terminate_curMode (c : Nat) (s : State) : (terminate c s).curMode = s.curMode := by
  simp only [terminate]
  split <;> simp

@[simp] theorem terminate_rem (c : Nat) (s : State) : (terminate c s).rem = s.rem := by
  simp only [terminate]
  split <;> simp

@[simp] theorem terminate_acc (c : Nat) (s : State) : (terminate c s).acc = s.acc := by
  simp only [terminate]
  split <;> simp

@[simp] theorem terminate_accN (c : Nat) (s : State) : (terminate c s).accN = s.accN := by
  simp only [terminate]
  split <;> simp

@[simp] theorem terminate_n (c : Nat) (s : State) : (terminate c s).n = s.n := by
  simp only [terminate]
  split <;> simp

@[simp] theorem terminate_r (c : Nat) (s : State) : (terminate c s).r = s.r := by
  simp only [terminate]
  split <;> simp

@[simp] theorem terminate_inbox (c : Nat) (s : State) : (terminate c s).inbox = s.inbox := by
  simp only [terminate]
  split <;> simp

@[simp] theorem terminate_resps (c : Nat) (s : State) : (terminate c s).resps = s.resps := by
  simp only [terminate]
  split <;> simp

end Sys2Proof.Machine
end

