-- ==== Sys2Proof/Laws/Memory.lean ====
section
/-! SUPPORT. The buffer BUF: every operation keeps the canonical form, a read after a write gives the
value written, a write leaves every other place alone, and equal contents are equal lists. First for
bytes, then for single bits of the stream, then for the loop of Push. -/

namespace Sys2Proof.Machine

/-! ### The canonical form -/

theorem Memory.canonicalFrom_cons {lo a : Nat} {b : Byte} {m : Memory} :
    Memory.canonicalFrom lo ((a, b) :: m) = true ↔
      lo ≤ a ∧ a < pbufBytes ∧ b ≠ 0#8 ∧ Memory.canonicalFrom (a + 1) m = true := by
  simp [Memory.canonicalFrom, and_assoc]

theorem Memory.canonicalFrom_mono {lo lo' : Nat} (h : lo' ≤ lo) {m : Memory}
    (hm : Memory.canonicalFrom lo m = true) : Memory.canonicalFrom lo' m = true := by
  cases m with
  | nil => rfl
  | cons c m =>
    rw [Memory.canonicalFrom_cons] at *
    exact ⟨h.trans hm.1, hm.2⟩

theorem Memory.read_below {m : Memory} {lo x : Nat} (hm : Memory.canonicalFrom lo m = true)
    (hx : x < lo) : Memory.read m x = 0#8 := by
  induction m generalizing lo with
  | nil => rfl
  | cons c m ih =>
    rw [Memory.canonicalFrom_cons] at hm
    have : c.1 ≠ x := by omega
    simp only [Memory.read, this, if_false]
    exact ih hm.2.2.2 (by omega)

theorem Memory.read_above {m : Memory} {lo x : Nat} (hm : Memory.canonicalFrom lo m = true)
    (hx : pbufBytes ≤ x) : Memory.read m x = 0#8 := by
  induction m generalizing lo with
  | nil => rfl
  | cons c m ih =>
    rw [Memory.canonicalFrom_cons] at hm
    have : c.1 ≠ x := by omega
    simp only [Memory.read, this, if_false]
    exact ih hm.2.2.2

/-- Two buffers that read alike are the same list. -/
theorem Memory.ext_of_canonical {m m' : Memory} {lo : Nat} (hm : Memory.canonicalFrom lo m = true)
    (hm' : Memory.canonicalFrom lo m' = true) (h : ∀ a, Memory.read m a = Memory.read m' a) :
    m = m' := by
  induction m generalizing m' lo with
  | nil =>
    cases m' with
    | nil => rfl
    | cons c m' =>
      rw [Memory.canonicalFrom_cons] at hm'
      have := h c.1
      simp only [Memory.read, if_true] at this
      exact absurd this.symm hm'.2.2.1
  | cons c m ih =>
    rw [Memory.canonicalFrom_cons] at hm
    cases m' with
    | nil =>
      have := h c.1
      simp only [Memory.read, if_true] at this
      exact absurd this hm.2.2.1
    | cons c' m' =>
      rw [Memory.canonicalFrom_cons] at hm'
      have head : c.1 = c'.1 := by
        rcases Nat.lt_trichotomy c.1 c'.1 with hlt | heq | hgt
        · have := h c.1
          have hne : c'.1 ≠ c.1 := by omega
          simp only [Memory.read, if_true, hne, if_false] at this
          rw [Memory.read_below hm'.2.2.2 (by omega)] at this
          exact absurd this hm.2.2.1
        · exact heq
        · have := h c'.1
          have hne : c.1 ≠ c'.1 := by omega
          simp only [Memory.read, if_true, hne, if_false] at this
          rw [Memory.read_below hm.2.2.2 (by omega)] at this
          exact absurd this.symm hm'.2.2.1
      have value : c.2 = c'.2 := by
        have := h c.1
        simpa [Memory.read, head] using this
      have tail : m = m' := by
        refine ih hm.2.2.2 (head ▸ hm'.2.2.2) fun a => ?_
        by_cases ha : c.1 = a
        · rw [Memory.read_below hm.2.2.2 (by omega), Memory.read_below hm'.2.2.2 (by omega)]
        · have := h a
          have ha' : c'.1 ≠ a := head ▸ ha
          simpa only [Memory.read, ha, ha', if_false] using this
      rw [tail, Prod.ext head value]

/-- Equal contents are equal data. -/
theorem Memory.ext_of_wf {m m' : Memory} (hm : Memory.wf m = true) (hm' : Memory.wf m' = true)
    (h : ∀ a, Memory.read m a = Memory.read m' a) : m = m' :=
  Memory.ext_of_canonical hm hm' h

/-! ### Bytes -/

theorem Memory.put_canonical {m : Memory} {lo x : Nat} (v : Byte)
    (hm : Memory.canonicalFrom lo m = true) (hlo : lo ≤ x) (hx : x < pbufBytes) :
    Memory.canonicalFrom lo (Memory.put m x v) = true := by
  induction m generalizing lo with
  | nil =>
    by_cases hv : v = 0#8
    · simp [Memory.put, hv, Memory.canonicalFrom]
    · simp only [Memory.put, hv, if_false, Memory.canonicalFrom_cons]
      exact ⟨hlo, hx, hv, rfl⟩
  | cons c m ih =>
    have hm' := hm
    rw [Memory.canonicalFrom_cons] at hm
    simp only [Memory.put]
    split
    · split
      · exact hm'
      · rename_i hv
        rw [Memory.canonicalFrom_cons, Memory.canonicalFrom_cons]
        exact ⟨hlo, hx, hv, by omega, hm.2.1, hm.2.2⟩
    · split
      · split
        · exact Memory.canonicalFrom_mono (by omega) hm.2.2.2
        · rename_i h1 h2 hv
          rw [Memory.canonicalFrom_cons]
          exact ⟨hlo, hx, hv, h2 ▸ hm.2.2.2⟩
      · rw [Memory.canonicalFrom_cons]
        exact ⟨hm.1, hm.2.1, hm.2.2.1, ih hm.2.2.2 (by omega)⟩

theorem Memory.read_put_same {m : Memory} {lo : Nat} (x : Nat) (v : Byte)
    (hm : Memory.canonicalFrom lo m = true) : Memory.read (Memory.put m x v) x = v := by
  induction m generalizing lo with
  | nil =>
    by_cases hv : v = 0#8
    · simp [Memory.put, hv, Memory.read]
    · simp [Memory.put, hv, Memory.read]
  | cons c m ih =>
    rw [Memory.canonicalFrom_cons] at hm
    simp only [Memory.put]
    split
    · split
      · rename_i h1 hv
        have : c.1 ≠ x := by omega
        simp only [Memory.read, this, if_false, hv]
        exact Memory.read_below hm.2.2.2 (by omega)
      · simp [Memory.read]
    · split
      · split
        · rename_i h1 h2 hv
          rw [hv]
          exact Memory.read_below hm.2.2.2 (by omega)
        · simp [Memory.read]
      · rename_i h1 h2
        have : c.1 ≠ x := fun h => h2 h.symm
        simp only [Memory.read, this, if_false]
        exact ih hm.2.2.2

theorem Memory.read_put_other {m : Memory} {x y : Nat} (v : Byte) (hxy : y ≠ x) :
    Memory.read (Memory.put m x v) y = Memory.read m y := by
  induction m with
  | nil =>
    by_cases hv : v = 0#8
    · simp [Memory.put, hv]
    · simp [Memory.put, hv, Memory.read, hxy.symm]
  | cons c m ih =>
    simp only [Memory.put]
    split
    · split
      · rfl
      · simp [Memory.read, hxy.symm]
    · split
      · rename_i h1 h2
        split
        · simp [Memory.read, ← h2, hxy.symm]
        · simp [Memory.read, ← h2, hxy.symm]
      · simp only [Memory.read, ih]

/-- Every write keeps the canonical form. -/
theorem Memory.write_wf {m : Memory} (x : Nat) (v : Byte) (hm : Memory.wf m = true) :
    Memory.wf (Memory.write m x v) = true := by
  unfold Memory.write
  split
  · exact Memory.put_canonical v hm (Nat.zero_le _) ‹_›
  · exact hm

theorem Memory.read_write_same {m : Memory} {x : Nat} (v : Byte) (hm : Memory.wf m = true)
    (hx : x < pbufBytes) : Memory.read (Memory.write m x v) x = v := by
  simp only [Memory.write, hx, if_true]
  exact Memory.read_put_same x v hm

theorem Memory.read_write_other (m : Memory) {x y : Nat} (v : Byte) (hxy : y ≠ x) :
    Memory.read (Memory.write m x v) y = Memory.read m y := by
  unfold Memory.write
  split
  · exact Memory.read_put_other v hxy
  · rfl

/-! ### Bits of the stream -/

theorem setBit_getLsbD (b : Byte) {k : Nat} (hk : k < 8) (v : Bool) (j : Nat) :
    (setBit b k v).getLsbD j = if j = k then v else b.getLsbD j := by
  cases v with
  | true =>
    by_cases hj : j = k
    · subst hj
      simp [setBit, hk]
    · by_cases hlt : j < 8
      · simp only [setBit, if_true, BitVec.getLsbD_or, BitVec.getLsbD_shiftLeft, hj, if_false]
        by_cases hjk : j < k
        · simp [hjk]
        · have : j - k ≠ 0 := by omega
          simp [hlt, hjk, BitVec.getLsbD_one, this]
      · have h1 : (setBit b k true).getLsbD j = false := BitVec.getLsbD_of_ge _ j (by omega)
        have h2 : b.getLsbD j = false := BitVec.getLsbD_of_ge _ j (by omega)
        simp [h1, h2, hj]
  | false =>
    by_cases hlt : j < 8
    · by_cases hj : j = k
      · subst hj
        simp [setBit, hlt]
      · simp only [setBit, Bool.false_eq_true, if_false, BitVec.getLsbD_and, BitVec.getLsbD_not,
          BitVec.getLsbD_shiftLeft, hj]
        by_cases hjk : j < k
        · simp [hlt, hjk]
        · have : j - k ≠ 0 := by omega
          simp [hlt, hjk, BitVec.getLsbD_one, this]
    · have h1 : (setBit b k false).getLsbD j = false := BitVec.getLsbD_of_ge _ j (by omega)
      have h2 : b.getLsbD j = false := BitVec.getLsbD_of_ge _ j (by omega)
      simp [h1, h2]

theorem Memory.writeBit_wf {m : Memory} (p : Nat) (v : Bool) (hm : Memory.wf m = true) :
    Memory.wf (Memory.writeBit m p v) = true :=
  Memory.write_wf _ _ hm

theorem Memory.readBit_writeBit_same {m : Memory} {p : Nat} (v : Bool) (hm : Memory.wf m = true)
    (hp : p < 8 * pbufBytes) : Memory.readBit (Memory.writeBit m p v) p = v := by
  have hx : p / 8 < pbufBytes := by omega
  simp only [Memory.readBit, Memory.writeBit, Memory.read_write_same _ hm hx,
    setBit_getLsbD _ (show 7 - p % 8 < 8 by omega), if_true]

theorem Memory.readBit_writeBit_other (m : Memory) {p q : Nat} (v : Bool)
    (hm : Memory.wf m = true) (hpq : q ≠ p) :
    Memory.readBit (Memory.writeBit m p v) q = Memory.readBit m q := by
  by_cases hb : q / 8 = p / 8
  · by_cases hx : p / 8 < pbufBytes
    · have hk : 7 - q % 8 ≠ 7 - p % 8 := by omega
      simp only [Memory.readBit, Memory.writeBit, hb, Memory.read_write_same _ hm hx,
        setBit_getLsbD _ (show 7 - p % 8 < 8 by omega), hk, if_false]
    · simp only [Memory.writeBit, Memory.write, hx, if_false]
  · simp only [Memory.readBit, Memory.writeBit, Memory.read_write_other _ _ hb]

theorem Memory.read_writeBit_other (m : Memory) {p a : Nat} (v : Bool) (ha : a ≠ p / 8) :
    Memory.read (Memory.writeBit m p v) a = Memory.read m a :=
  Memory.read_write_other m _ ha

/-- A byte is its eight bits, most significant first. -/
theorem Memory.read_eq_of_readBit {m : Memory} {a : Nat} {b : Byte}
    (h : ∀ k < 8, Memory.readBit m (8 * a + k) = b.getLsbD (7 - k)) : Memory.read m a = b := by
  apply BitVec.eq_of_getLsbD_eq
  intro i hi
  have := h (7 - i) (by omega)
  have h1 : (8 * a + (7 - i)) / 8 = a := by omega
  have h2 : 7 - (8 * a + (7 - i)) % 8 = i := by omega
  have h3 : 7 - (7 - i) = i := by omega
  simpa only [Memory.readBit, h1, h2, h3] using this

/-! ### The loop of Push -/

theorem Memory.pushBits_wf (n v : Nat) {m : Memory} (p : Nat) (hm : Memory.wf m = true) :
    Memory.wf (Memory.pushBits m p n v) = true := by
  induction n generalizing m p with
  | zero => exact hm
  | succ n ih => exact ih _ (Memory.writeBit_wf _ _ hm)

/-- Everything `Push` does to the stream (42_packer.md R135): the `n` positions from `p` on hold the
bits of `v`, most significant first, and every other position is as before. -/
theorem Memory.readBit_pushBits (n v : Nat) {m : Memory} (p q : Nat) (hm : Memory.wf m = true)
    (hp : p + n ≤ 8 * pbufBytes) :
    Memory.readBit (Memory.pushBits m p n v) q =
      if p ≤ q ∧ q < p + n then v.testBit (n - 1 - (q - p)) else Memory.readBit m q := by
  induction n generalizing m p with
  | zero =>
    have : ¬(p ≤ q ∧ q < p + 0) := by omega
    rw [if_neg this]
    rfl
  | succ n ih =>
    simp only [Memory.pushBits]
    rw [ih _ (Memory.writeBit_wf _ _ hm) (by omega)]
    by_cases h1 : p + 1 ≤ q ∧ q < p + 1 + n
    · have h2 : p ≤ q ∧ q < p + (n + 1) := by omega
      have h3 : n + 1 - 1 - (q - p) = n - 1 - (q - (p + 1)) := by omega
      rw [if_pos h1, if_pos h2, h3]
    · rw [if_neg h1]
      by_cases h2 : q = p
      · subst h2
        rw [Memory.readBit_writeBit_same _ hm (by omega), if_pos (by omega)]
        congr 1
        omega
      · rw [Memory.readBit_writeBit_other _ _ hm h2, if_neg (by omega)]

/-- The bytes `Push` does not reach read as before. -/
theorem Memory.read_pushBits_other (n v : Nat) {m : Memory} (p a : Nat)
    (ha : a < p / 8 ∨ p + n ≤ 8 * a) :
    Memory.read (Memory.pushBits m p n v) a = Memory.read m a := by
  induction n generalizing m p with
  | zero => rfl
  | succ n ih =>
    simp only [Memory.pushBits]
    rw [ih _ (by omega), Memory.read_writeBit_other _ _ (by omega)]

end Sys2Proof.Machine
end

