-- ==== Sys2Proof/Laws/Ops.lean ====
section
/-! SUPPORT. What each shared operation can do, said once: the gate, raising a fault, ignoring, reset,
reading the control and status registers, decoding. -/

namespace Sys2Proof.Machine

/-! ### The gate -/

theorem gated_ignored {i : Instr} {s : State} (e : Effect) (h : s.fault = true) :
    gated i s e = .next (respond .none s) := by
  simp [gated, h]

theorem gated_raise {i : Instr} {s : State} (c : Cause) (h : s.fault = false) :
    gated i s (.raise c) = .next (raiseFault c (encode i) s) := by
  simp [gated, h]

theorem gated_done {i : Instr} {s : State} (t : State) (resp : Response) (h : s.fault = false) :
    gated i s (.done t resp) = .next (respond resp t) := by
  simp [gated, h]

/-- Everything a gated command can do. -/
theorem gated_cases {i : Instr} {s t : State} {e : Effect} (h : gated i s e = .next t) :
    (s.fault = true ∧ t = respond .none s) ∨
    (s.fault = false ∧ ∃ c, e = .raise c ∧ t = raiseFault c (encode i) s) ∨
    (s.fault = false ∧ ∃ u resp, e = .done u resp ∧ t = respond resp u) := by
  unfold gated at h
  cases hf : s.fault with
  | true =>
    rw [hf, if_pos rfl] at h
    injection h with h
    exact .inl ⟨rfl, h.symm⟩
  | false =>
    rw [hf, if_neg Bool.false_ne_true] at h
    cases e with
    | raise c =>
      injection h with h
      exact .inr (.inl ⟨rfl, c, rfl, h.symm⟩)
    | done u resp =>
      injection h with h
      exact .inr (.inr ⟨rfl, u, resp, rfl, h.symm⟩)

/-- A gated command always completes. -/
theorem gated_next (i : Instr) (s : State) (e : Effect) : ∃ t, gated i s e = .next t := by
  unfold gated
  split
  · exact ⟨_, rfl⟩
  · cases e with
    | raise c => exact ⟨_, rfl⟩
    | done u resp => exact ⟨_, rfl⟩

/-! ### Frames -/

theorem SameBuf.refl (s : State) : SameBuf s s := fun _ => rfl

theorem SameFault.refl (s : State) : SameFault s s := ⟨rfl, rfl, rfl⟩

theorem SameCls.refl (s : State) : SameCls s s := ⟨rfl, rfl, rfl⟩

theorem SamePck.refl (s : State) : SamePck s s :=
  ⟨⟨rfl, rfl⟩, ⟨rfl, rfl, rfl, rfl⟩, rfl, fun _ => rfl⟩

theorem SameRse.refl (s : State) : SameRse s s := ⟨rfl, rfl⟩

theorem respond_sameTuple (resp : Response) (s : State) : SameTuple s (respond resp s) :=
  ⟨⟨rfl, rfl, rfl⟩, ⟨rfl, rfl, rfl⟩, ⟨⟨rfl, rfl⟩, ⟨rfl, rfl, rfl, rfl⟩, rfl, fun _ => rfl⟩,
    ⟨rfl, rfl⟩⟩

theorem respond_answered (resp : Response) (s : State) : Answered resp s (respond resp s) :=
  ⟨rfl, rfl⟩

/-- Responding `none` and nothing else is being ignored. -/
theorem respond_ignored (s : State) : Ignored s (respond .none s) :=
  ⟨respond_sameTuple _ s, respond_answered _ s⟩

/-- Raising a fault is precise. -/
theorem raiseFault_raised (c : Cause) (w : Word) (s : State) : Raised c w s (raiseFault c w s) :=
  ⟨rfl, rfl, rfl, ⟨rfl, rfl, rfl⟩, ⟨⟨rfl, rfl⟩, ⟨rfl, rfl, rfl, rfl⟩, rfl, fun _ => rfl⟩,
    ⟨rfl, rfl⟩, ⟨rfl, rfl⟩⟩

/-- Reset leaves the reset values. -/
theorem resetTuple_isReset (s : State) : IsReset (resetTuple s) where
  fault := rfl
  cause := rfl
  fcmd := rfl
  cstate := rfl
  pos := rfl
  segBegin := rfl
  version := rfl
  ecl := rfl
  len := rfl
  buf _ := rfl
  curMode := rfl
  rem := rfl
  acc := rfl
  accN := rfl
  n := rfl
  r i := by simp

/-! ### Control and status registers -/

theorem csrRead_of_lt {s : State} {a : Nat} (h : a ≤ 6) : ∃ v, csrRead s a = some v := by
  interval_cases a <;> exact ⟨_, rfl⟩

theorem csrRead_of_gt {s : State} {a : Nat} (h : 6 < a) : csrRead s a = none := by
  unfold csrRead
  split <;> first | omega | rfl

/-- What a control and status register reads depends on the state tuple alone. -/
theorem csrRead_respond (resp : Response) (s : State) (a : Nat) :
    csrRead (respond resp s) a = csrRead s a := by
  unfold csrRead
  split <;> rfl

/-! ### Decoding -/

theorem takeOperands_ok {zero : Bool} {i j : Instr} (h : takeOperands zero i = .ok j) :
    zero = true ∧ j = i := by
  cases zero with
  | true => exact ⟨rfl, by simpa [takeOperands] using h.symm⟩
  | false => simp [takeOperands] at h

end Sys2Proof.Machine
end

