-- ==== Sys2Proof/Laws/Packer.lean ====
section
/-! SUPPORT. The packer's shared operations: the capacity, Push on the whole state, the pad codewords,
and the four steps of PCK.TERM. -/

namespace Sys2Proof.Machine

theorem pbufBytes_eq : pbufBytes = 4096 := rfl

/-! ### Capacity (42_packer.md R136) -/

theorem capacity_eq_some {cfg : Config} {s : State} {c : Nat} (h : capacity cfg s = some c) :
    1 ≤ s.version.toNat ∧ s.version.toNat ≤ 40 ∧
      c = 8 * cfg.dataCodewords s.version.toNat s.ecl := by
  simp only [capacity, versionMin, versionMax] at h
  split at h
  · cases h
  · injection h with h
    exact ⟨by omega, by omega, h.symm⟩

theorem capacity_bounds {cfg : Config} {s : State} {c : Nat} (h : capacity cfg s = some c) :
    8 ≤ c ∧ c ≤ 8 * pbufBytes ∧ c % 8 = 0 := by
  obtain ⟨h1, h40, rfl⟩ := capacity_eq_some h
  have := cfg.bounded s.version.toNat s.ecl h1 h40
  omega

theorem capacity_congr {cfg : Config} {s t : State} (hv : t.version = s.version)
    (he : t.ecl = s.ecl) : capacity cfg t = capacity cfg s := by
  simp only [capacity, hv, he]

/-! ### Push (42_packer.md R135) -/

theorem push_len_toNat {k v : Nat} {s : State} (h : s.len.toNat + k ≤ 8 * pbufBytes) :
    (push k v s).len.toNat = s.len.toNat + k := by
  simp only [push_len, BitVec.toNat_ofNat]
  exact Nat.mod_eq_of_lt (by have := pbufBytes_eq; omega)

theorem push_bufWf {s : State} (k v : Nat) (h : Memory.wf s.buf = true) :
    Memory.wf (push k v s).buf = true :=
  Memory.pushBits_wf _ _ _ h

/-- The stream after a Push. -/
theorem push_readBit {k v : Nat} {s : State} (hw : Memory.wf s.buf = true)
    (h : s.len.toNat + k ≤ 8 * pbufBytes) (q : Nat) :
    Memory.readBit (push k v s).buf q =
      if s.len.toNat ≤ q ∧ q < s.len.toNat + k then v.testBit (k - 1 - (q - s.len.toNat))
      else Memory.readBit s.buf q :=
  Memory.readBit_pushBits _ _ _ _ hw h

/-- The bytes a Push does not reach. -/
theorem push_read_other {k v : Nat} {s : State} {a : Nat}
    (ha : a < s.len.toNat / 8 ∨ s.len.toNat + k ≤ 8 * a) :
    Memory.read (push k v s).buf a = Memory.read s.buf a :=
  Memory.read_pushBits_other _ _ _ _ ha

/-- A Push of 8 bits at a byte boundary stores one byte. -/
theorem push_read_byte {v : Nat} {s : State} {a : Nat} (hw : Memory.wf s.buf = true)
    (hl : s.len.toNat = 8 * a) (ha : a < pbufBytes) :
    Memory.read (push 8 v s).buf a = BitVec.ofNat 8 v := by
  refine Memory.read_eq_of_readBit fun k hk => ?_
  rw [push_readBit hw (by omega), if_pos (by omega), BitVec.getLsbD_ofNat]
  have : 8 - 1 - (8 * a + k - s.len.toNat) = 7 - k := by omega
  rw [this, decide_eq_true (by omega), Bool.true_and]

/-! ### Appending (42_packer.md R135) -/

@[simp] theorem bitsOf_length (n v : Nat) : (bitsOf n v).length = n := by simp [bitsOf]

/-- The `j`-th bit of a value, most significant first. -/
theorem bitsOf_get {n v j : Nat} {b : Bool} (h : (bitsOf n v)[j]? = some b) :
    j < n ∧ b = v.testBit (n - 1 - j) := by
  simp only [bitsOf, List.getElem?_map, Option.map_eq_some_iff] at h
  obtain ⟨a, ha, rfl⟩ := h
  rw [List.getElem?_eq_some_iff] at ha
  obtain ⟨hl, rfl⟩ := ha
  simp only [List.length_range] at hl
  exact ⟨hl, by rw [List.getElem_range]⟩

/-- Everything Push does to the stream. -/
theorem push_appended {k v : Nat} {s : State} (hw : Memory.wf s.buf = true)
    (h : s.len.toNat + k ≤ 8 * pbufBytes) : Appended (bitsOf k v) s (push k v s) where
  len := by rw [push_len_toNat h, bitsOf_length]
  bits j b hb := by
    obtain ⟨hj, rfl⟩ := bitsOf_get hb
    rw [push_readBit hw h, if_pos (by omega)]
    congr 1
    omega
  others p hp := by
    rw [bitsOf_length] at hp
    rw [push_readBit hw h, if_neg (by omega)]
  bytes a ha := by
    rw [bitsOf_length] at ha
    exact push_read_other ha

theorem Appended.nil {s t : State} (hl : t.len = s.len) (hb : t.buf = s.buf) :
    Appended [] s t where
  len := by rw [hl, List.length_nil, Nat.add_zero]
  bits j b h := by simp at h
  others p _ := by rw [hb]
  bytes a _ := by rw [hb]

/-- Appending twice is appending the concatenation. -/
theorem Appended.trans {b1 b2 : List Bool} {s t u : State} (h1 : Appended b1 s t)
    (h2 : Appended b2 t u) : Appended (b1 ++ b2) s u where
  len := by
    rw [h2.len, h1.len, List.length_append]
    omega
  bits j b hb := by
    have l1 := h1.len
    by_cases hj : j < b1.length
    · rw [List.getElem?_append_left hj] at hb
      rw [h2.others _ (by omega)]
      exact h1.bits j b hb
    · rw [List.getElem?_append_right (by omega)] at hb
      have e : s.len.toNat + b1.length + (j - b1.length) = s.len.toNat + j := by omega
      have := h2.bits _ _ hb
      rwa [l1, e] at this
  others p hp := by
    have l1 := h1.len
    rw [List.length_append] at hp
    rw [h2.others _ (by omega), h1.others _ (by omega)]
  bytes a ha := by
    have l1 := h1.len
    rw [List.length_append] at ha
    rw [h2.bytes _ (by omega), h1.bytes _ (by omega)]

/-- Appending is about LEN and BUF alone. -/
theorem Appended.congr {b : List Bool} {s t s' t' : State} (h : Appended b s t)
    (hsl : s'.len = s.len) (hsb : s'.buf = s.buf) (htl : t'.len = t.len) (htb : t'.buf = t.buf) :
    Appended b s' t' where
  len := by rw [htl, hsl, h.len]
  bits := by rw [hsl, htb]; exact h.bits
  others := by rw [hsl, hsb, htb]; exact h.others
  bytes := by rw [hsl, hsb, htb]; exact h.bytes

theorem modeOfCode_modeCode (m : Mode) : modeOfCode (modeCode m) = some m := by cases m <;> rfl

theorem lenBits_bounds (m : Mode) (v : Nat) : 8 ≤ lenBits m v ∧ lenBits m v ≤ 16 := by
  unfold lenBits
  cases m <;> cases tierOf v <;> decide

/-! ### The pad codewords (42_packer.md R141 step 3) -/

theorem padCodewords_len {k : Nat} (even : Bool) {s : State}
    (h : s.len.toNat + 8 * k ≤ 8 * pbufBytes) :
    (padCodewords k even s).len.toNat = s.len.toNat + 8 * k := by
  induction k generalizing even s with
  | zero => rfl
  | succ k ih =>
    have hl := push_len_toNat (v := if even then 0xEC else 0x11) (s := s) (k := 8) (by omega)
    rw [padCodewords, ih _ (by omega), hl]
    omega

theorem padCodewords_bufWf (k : Nat) (even : Bool) {s : State} (h : Memory.wf s.buf = true) :
    Memory.wf (padCodewords k even s).buf = true := by
  induction k generalizing even s with
  | zero => exact h
  | succ k ih => exact ih _ (push_bufWf _ _ h)

theorem padCodewords_read_other {k a : Nat} (even : Bool) {s : State}
    (h : s.len.toNat + 8 * k ≤ 8 * pbufBytes) (hl : s.len.toNat % 8 = 0)
    (ha : 8 * a < s.len.toNat ∨ s.len.toNat + 8 * k ≤ 8 * a) :
    Memory.read (padCodewords k even s).buf a = Memory.read s.buf a := by
  induction k generalizing even s with
  | zero => rfl
  | succ k ih =>
    have hp := push_len_toNat (v := if even then 0xEC else 0x11) (s := s) (k := 8) (by omega)
    rw [padCodewords, ih _ (by omega) (by omega) (by omega), push_read_other (by omega)]

/-- The `j`-th pad codeword, counted from the first one. -/
theorem padCodewords_read {k j : Nat} (even : Bool) {s : State} (hw : Memory.wf s.buf = true)
    (h : s.len.toNat + 8 * k ≤ 8 * pbufBytes) (hl : s.len.toNat % 8 = 0) (hj : j < k) :
    Memory.read (padCodewords k even s).buf (s.len.toNat / 8 + j) =
      if (j % 2 == 0) == even then 0xEC#8 else 0x11#8 := by
  induction k generalizing even s j with
  | zero => omega
  | succ k ih =>
    have hp := push_len_toNat (v := if even then 0xEC else 0x11) (s := s) (k := 8) (by omega)
    rw [padCodewords]
    cases j with
    | zero =>
      rw [padCodewords_read_other _ (by omega) (by omega) (by omega),
        push_read_byte hw (by omega) (by omega)]
      cases even <;> rfl
    | succ j =>
      have e : s.len.toNat / 8 + (j + 1) =
          (push 8 (if even then 0xEC else 0x11) s).len.toNat / 8 + j := by omega
      rw [e, ih _ (push_bufWf _ _ hw) (by omega) (by omega) (by omega)]
      have : ((j + 1) % 2 == 0) = !(j % 2 == 0) := by
        rcases Nat.mod_two_eq_zero_or_one j with h0 | h0
        · have : (j + 1) % 2 = 1 := by omega
          simp [h0, this]
        · have : (j + 1) % 2 = 0 := by omega
          simp [h0, this]
      rw [this]
      cases (j % 2 == 0) <;> cases even <;> rfl

/-! ### PCK.TERM (42_packer.md R141) -/

theorem terminatedLen_bounds {c l : Nat} (hc : c % 8 = 0) (hl : l ≤ c) :
    l ≤ terminatedLen c l ∧ terminatedLen c l ≤ c ∧ terminatedLen c l % 8 = 0 := by
  unfold terminatedLen
  simp only
  split <;> omega

/-- The first byte a pad codeword may go to: the byte boundary at or after the terminator. -/
theorem terminatedLen_eq {c l : Nat} (hc : c % 8 = 0) (hl : l ≤ c) :
    terminatedLen c l = 8 * ((l + min 4 (c - l) + 7) / 8) := by
  unfold terminatedLen
  simp only
  split <;> omega

theorem terminate_len {c : Nat} {s : State} (hc : c % 8 = 0) (hm : c ≤ 8 * pbufBytes)
    (hl : s.len.toNat ≤ c) : (terminate c s).len.toNat = c := by
  have hb := terminatedLen_bounds hc hl
  have h2 : (setLen (terminatedLen c s.len.toNat) s).len.toNat = terminatedLen c s.len.toNat := by
    rw [setLen_len, BitVec.toNat_ofNat]
    exact Nat.mod_eq_of_lt (by have := pbufBytes_eq; omega)
  have h3 := padCodewords_len (k := (c - terminatedLen c s.len.toNat) / 8) true
    (s := setLen (terminatedLen c s.len.toNat) s) (by omega)
  unfold terminate
  simp only [h2, h3]
  split
  · omega
  · rw [h3, h2]
    omega

theorem terminate_buf {c : Nat} {s : State} (hc : c % 8 = 0) (hm : c ≤ 8 * pbufBytes)
    (hl : s.len.toNat ≤ c) :
    (terminate c s).buf = (padCodewords ((c - terminatedLen c s.len.toNat) / 8) true
      (setLen (terminatedLen c s.len.toNat) s)).buf := by
  have hb := terminatedLen_bounds hc hl
  have h2 : (setLen (terminatedLen c s.len.toNat) s).len.toNat = terminatedLen c s.len.toNat := by
    rw [setLen_len, BitVec.toNat_ofNat]
    exact Nat.mod_eq_of_lt (by have := pbufBytes_eq; omega)
  unfold terminate
  simp only [h2]
  split <;> rfl

end Sys2Proof.Machine
end

