-- ==== Sys2Proof/Laws/Exec.lean ====
section
/-! SUPPORT. Each command as its gated pseudocode, and what a step is. A proof about a command rewrites
with its equation here and then with `gated_raise`, `gated_done` or `gated_ignored`, and unfolds
neither `exec` nor `gated`. -/

namespace Sys2Proof.Machine

/-! ### The meanings -/

theorem exec_nop (s : State) : exec .nop s = gated .nop s (.done s .none) := rfl

theorem exec_rst (s : State) : exec .rst s = .next (respond .none (resetTuple s)) := rfl

theorem exec_rdCsr_valid {a : Nat} {v : Word} {s : State} (h : csrRead s a = some v) :
    exec (.rdCsr a) s = .next (respond (.word v) s) := by
  simp only [exec, execRdCsr, h]

theorem exec_rdCsr_invalid {a : Nat} {s : State} (h : csrRead s a = none) :
    exec (.rdCsr a) s = gated (.rdCsr a) s (.raise .illegalOperand) := by
  simp only [exec, execRdCsr, h]

theorem exec_clsClr (s : State) : exec .clsClr s = gated .clsClr s (.done (clsClear s) .none) :=
  rfl

theorem exec_clsByte (b : Byte) (s : State) :
    exec (.clsByte b) s = gated (.clsByte b) s (clsByteEffect b s) := rfl

theorem exec_clsEnd (s : State) : exec .clsEnd s = gated .clsEnd s (clsEndEffect s) := rfl

theorem exec_pckInit (ver : Nat) (ec : EcLevel) (s : State) :
    exec (.pckInit ver ec) s = gated (.pckInit ver ec) s (pckInitEffect ver ec s) := rfl

theorem exec_pckBits (n value : Nat) (s : State) :
    exec (.pckBits n value) s =
      gated (.pckBits n value) s (pckBitsEffect defaultConfig n value s) := rfl

theorem exec_pckSeg (mode count : Nat) (s : State) :
    exec (.pckSeg mode count) s =
      gated (.pckSeg mode count) s (pckSegEffect defaultConfig mode count s) := rfl

theorem exec_pckData (b : Byte) (s : State) :
    exec (.pckData b) s = gated (.pckData b) s (pckDataEffect defaultConfig b s) := rfl

theorem exec_pckTerm (s : State) :
    exec .pckTerm s = gated .pckTerm s (pckTermEffect defaultConfig s) := rfl

theorem exec_rdPbuf (idx : Nat) (s : State) :
    exec (.rdPbuf idx) s = gated (.rdPbuf idx) s
      (if pbufBytes ≤ idx then .raise .illegalOperand
       else .done s (.word ((Memory.read s.buf idx).setWidth 32))) := rfl

theorem exec_rseStart (n : Nat) (s : State) :
    exec (.rseStart n) s = gated (.rseStart n) s (rseStartEffect n s) := rfl

theorem exec_rseData (b : Byte) (s : State) :
    exec (.rseData b) s = gated (.rseData b) s (rseDataEffect b s) := rfl

theorem exec_rdEc (idx : Nat) (s : State) :
    exec (.rdEc idx) s = gated (.rdEc idx) s
      (if s.n.val ≤ idx then .raise .illegalOperand
       else .done s (.word ((remainder s idx).setWidth 32))) := rfl

/-! ### The step -/

theorem step_of_ok {s : State} {w : Word} {i : Instr} {rest : List Input}
    (h : s.inbox = .cmd w :: rest) (hd : decode w = .ok i) :
    step s = exec i { s with inbox := rest } := by
  simp only [step, h, hd]

theorem step_of_error {s : State} {w : Word} {e : Illegal} {rest : List Input}
    (h : s.inbox = .cmd w :: rest) (hd : decode w = .error e) :
    step s = .next (executeIllegal w { s with inbox := rest }) := by
  simp only [step, h, hd]

theorem step_of_rst {s : State} {rest : List Input} (h : s.inbox = .rst :: rest) :
    step s = .next (resetTuple { s with inbox := rest }) := by
  simp only [step, h]

end Sys2Proof.Machine
end

