-- ==== Sys2Proof/Laws/PerInstr.lean ====
section
/-! SUPPORT. Statements about every instruction as syntax, one lemma a constructor. -/

namespace Sys2Proof.Laws.MatchesRow

/-- The word of a well-formed command matches the command's own row of the match and mask table
(30_encoding.md R78). -/
def Statement (i : Instr) : Prop := i.wellFormed = true → (rowOf i).matches (encode i) = true

/-- A mask of the bits from `k` on clears the bits below `k`. -/
theorem and_highMask (w : Word) (k : Nat) :
    w &&& (BitVec.allOnes 32 <<< k) = (w >>> k) <<< k := by
  apply BitVec.eq_of_getLsbD_eq
  intro j hj
  by_cases h : j < k
  · simp [h]
  · have e : k + (j - k) = j := by omega
    have l : j - k < 32 := by omega
    have o : (BitVec.allOnes 32).getLsbD (j - k) = true := by
      rw [BitVec.getLsbD_allOnes, decide_eq_true l]
    rw [BitVec.getLsbD_and, BitVec.getLsbD_shiftLeft, BitVec.getLsbD_shiftLeft,
      BitVec.getLsbD_ushiftRight, o, e, Bool.and_true]
    simp [h, hj]

/-- A word whose operand bits all lie below `k` matches its opcode in the bits from `k` on. -/
theorem wordOf_high {op low k : Nat} (hk : k ≤ 24) (ho : op < 256) (hl : low < 2 ^ k) :
    wordOf op low &&& (BitVec.allOnes 32 <<< k) = BitVec.ofNat 32 (op * 2 ^ 24) := by
  rw [and_highMask]
  apply BitVec.eq_of_toNat_eq
  have e : 2 ^ 24 = 2 ^ k * 2 ^ (24 - k) := by rw [← pow_add]; congr 1; omega
  have p : 0 < 2 ^ k := Nat.two_pow_pos k
  have b : low < 2 ^ 24 := lt_of_lt_of_le hl (Nat.pow_le_pow_right (by omega) hk)
  have q : (op * 2 ^ 24 + low) / 2 ^ k = op * 2 ^ (24 - k) := by
    rw [e, show op * (2 ^ k * 2 ^ (24 - k)) + low = low + 2 ^ k * (op * 2 ^ (24 - k)) by ring,
      Nat.add_mul_div_left _ _ p, Nat.div_eq_of_lt hl, Nat.zero_add]
  have m : (op * 2 ^ 24 + low) % 2 ^ 32 = op * 2 ^ 24 + low := Nat.mod_eq_of_lt (by omega)
  rw [BitVec.toNat_shiftLeft, BitVec.toNat_ushiftRight, Nat.shiftRight_eq_div_pow,
    Nat.shiftLeft_eq, wordOf, BitVec.toNat_ofNat, m, q, BitVec.toNat_ofNat, mul_assoc, ← pow_add,
    Nat.sub_add_cancel hk]

/-- A row whose mask is the bits from `k` on. -/
theorem matches_high {op low k : Nat} {row : TableRow} (hk : k ≤ 24) (ho : op < 256)
    (hl : low < 2 ^ k) (hmask : row.mask = BitVec.allOnes 32 <<< k)
    (hmtch : row.mtch = BitVec.ofNat 32 (op * 2 ^ 24)) :
    row.matches (wordOf op low) = true := by
  rw [TableRow.matches, hmask, hmtch, wordOf_high hk ho hl, beq_self_eq_true]

theorem nop : Statement .nop := fun _ => rfl

theorem rst : Statement .rst := fun _ => rfl

theorem rdCsr (a : Nat) : Statement (.rdCsr a) := fun h =>
  matches_high (k := 8) (by decide) (by decide) (of_decide_eq_true h) rfl rfl

theorem clsClr : Statement .clsClr := fun _ => rfl

theorem clsByte (b : Byte) : Statement (.clsByte b) := fun _ =>
  matches_high (k := 8) (by decide) (by decide) b.isLt rfl rfl

theorem clsEnd : Statement .clsEnd := fun _ => rfl

theorem pckInit_bytes : ∀ (v : Byte) (ec : EcLevel),
    wordOf 0x20 (v.toNat * 2 ^ 8 + ec.code) &&& 0xFFFF00FC#32 = 0x20000000#32 := by
  intro v ec
  cases ec <;> revert v <;> decide +kernel

theorem pckInit (ver : Nat) (ec : EcLevel) : Statement (.pckInit ver ec) := by
  intro h
  have hv : ver < 2 ^ 8 := of_decide_eq_true h
  have e := pckInit_bytes (BitVec.ofNat 8 ver) ec
  rw [BitVec.toNat_ofNat, Nat.mod_eq_of_lt hv] at e
  simp only [rowOf, TableRow.matches, encode, beq_iff_eq]
  exact e

theorem pckBits (n value : Nat) : Statement (.pckBits n value) := by
  intro h
  simp only [Instr.wellFormed, Bool.and_eq_true, decide_eq_true_eq] at h
  exact matches_high (k := 21) (by decide) (by decide) (by omega) rfl rfl

theorem pckSeg (mode count : Nat) : Statement (.pckSeg mode count) := by
  intro h
  simp only [Instr.wellFormed, Bool.and_eq_true, decide_eq_true_eq] at h
  exact matches_high (k := 18) (by decide) (by decide) (by omega) rfl rfl

theorem pckData (b : Byte) : Statement (.pckData b) := fun _ =>
  matches_high (k := 8) (by decide) (by decide) b.isLt rfl rfl

theorem pckTerm : Statement .pckTerm := fun _ => rfl

theorem rdPbuf (idx : Nat) : Statement (.rdPbuf idx) := fun h =>
  matches_high (k := 16) (by decide) (by decide) (of_decide_eq_true h) rfl rfl

theorem rseStart (n : Nat) : Statement (.rseStart n) := fun h =>
  matches_high (k := 8) (by decide) (by decide) (of_decide_eq_true h) rfl rfl

theorem rseData (b : Byte) : Statement (.rseData b) := fun _ =>
  matches_high (k := 8) (by decide) (by decide) b.isLt rfl rfl

theorem rdEc (idx : Nat) : Statement (.rdEc idx) := fun h =>
  matches_high (k := 16) (by decide) (by decide) (of_decide_eq_true h) rfl rfl

end Sys2Proof.Laws.MatchesRow
end

