-- ==== Sys2Proof/Tests/Slice0.lean ====
section
/-! SUPPORT. Tests: the well-formedness smoke, one written-out word for every command, one small step
for every command with the expected values of the spec's own examples, and for every statement a
concrete state and operands that meet its hypotheses. -/

namespace Sys2Proof.Machine

/-! ### States the tests start from -/

/-- The state after a command, where it answers one. -/
def after (i : Instr) (s : State) : State :=
  match exec i s with
  | .next t => t
  | .fault _ => s
  | .refused _ => s

/-- The newest response. -/
def answer (s : State) : Response := s.resps.headD .none

/-- STATUS (10_state.md R27). -/
def status (s : State) : Nat := (statusWord s).toNat

/-- Version 1, level L, nothing packed: `Cap() = 152`. -/
def idle : State := { State.reset with version := 1#6, ecl := .L }

/-- The same target with `l` zero bits packed. -/
def packed (l : Nat) : State := { idle with len := BitVec.ofNat 16 l }

/-- A Numeric segment open with `k` characters of value `a` in the partial group. -/
def inNumeric (k : Fin 3) (a remaining : Nat) : State :=
  { packed 14 with rem := BitVec.ofNat 16 remaining, accN := k, acc := BitVec.ofNat 7 a }

/-- An Alphanumeric segment open with `k` characters of value `a` in the partial group. -/
def inAlnum (k : Fin 3) (a remaining : Nat) : State :=
  { packed 13 with
    curMode := .alphanumeric, rem := BitVec.ofNat 16 remaining, accN := k
    acc := BitVec.ofNat 7 a }

/-- A Byte segment open at stream position `l`. -/
def inByte (l remaining : Nat) : State :=
  { packed l with curMode := .byte, rem := BitVec.ofNat 16 remaining }

/-- A classification in progress. -/
def classifying (c : ClsState) (first last : Nat) : State :=
  { State.reset with cstate := c, segBegin := BitVec.ofNat 16 first, pos := BitVec.ofNat 16 last }

/-- A block in progress with remainder length `n`. -/
def dividing (n : Fin 31) : State := { State.reset with n := n }

/-- A faulted state. -/
def faulted : State :=
  { State.reset with fault := true, cause := .illegalCommand, fcmd := 0x00000001 }

/-- The host presents one word. -/
def presents (w : Word) (s : State) : State := { s with inbox := [.cmd w] }

/-- A state in the middle of everything: a segment being classified, a Numeric segment open after
`PCK.SEG NUM, 3` and one digit, a block started, and a word presented. -/
def busy : State :=
  { inNumeric 1 5 2 with
    buf := [(0, 0x10), (1, 0x0C)]
    cstate := .alpha, segBegin := 1#16, pos := 3#16, n := 2, inbox := [.cmd 0x23000037] }

/-! ### WellFormed: each check refuses a term (30_encoding.md R71, R76) -/

theorem test_wellFormed_refuses_address : (Instr.rdCsr 256).wellFormed = false := by decide
theorem test_wellFormed_refuses_version : (Instr.pckInit 256 .L).wellFormed = false := by decide
theorem test_wellFormed_refuses_width : (Instr.pckBits 32 0).wellFormed = false := by decide
theorem test_wellFormed_refuses_value : (Instr.pckBits 16 65536).wellFormed = false := by decide
theorem test_wellFormed_refuses_mode : (Instr.pckSeg 4 0).wellFormed = false := by decide
theorem test_wellFormed_refuses_count : (Instr.pckSeg 0 65536).wellFormed = false := by decide
theorem test_wellFormed_refuses_byteIndex : (Instr.rdPbuf 65536).wellFormed = false := by decide
theorem test_wellFormed_refuses_length : (Instr.rseStart 256).wellFormed = false := by decide
theorem test_wellFormed_refuses_registerIndex : (Instr.rdEc 65536).wellFormed = false := by decide
/-- Operands that fit but are meaningless are well-formed (R76). -/
theorem test_wellFormed_takes_meaningless :
    (Instr.pckInit 41 .L).wellFormed = true ∧ (Instr.pckSeg 3 0).wellFormed = true := by decide

/-! ### Decoding: every command's word, field by field from R71 and the opcode of R72 -/

theorem test_decode_nop : decode (0x00#8 ++ 0#24) = .ok .nop := by decide
theorem test_decode_rst : decode (0x01#8 ++ 0#24) = .ok .rst := by decide
theorem test_decode_rdCsr : decode (0x02#8 ++ 0#16 ++ 0x06#8) = .ok (.rdCsr 6) := by decide
theorem test_decode_clsClr : decode (0x10#8 ++ 0#24) = .ok .clsClr := by decide
theorem test_decode_clsByte : decode (0x11#8 ++ 0#16 ++ 0x9C#8) = .ok (.clsByte 0x9C) := by decide
theorem test_decode_clsEnd : decode (0x12#8 ++ 0#24) = .ok .clsEnd := by decide
theorem test_decode_pckInit :
    decode (0x20#8 ++ 0#8 ++ 0x28#8 ++ 0#6 ++ 3#2) = .ok (.pckInit 40 .H) := by decide
theorem test_decode_pckBits :
    decode (0x21#8 ++ 0#3 ++ 0b10110#5 ++ 0xA1B2#16) = .ok (.pckBits 22 0xA1B2) := by decide
theorem test_decode_pckSeg :
    decode (0x22#8 ++ 0#6 ++ 0b10#2 ++ 0x1234#16) = .ok (.pckSeg 2 0x1234) := by decide
theorem test_decode_pckData : decode (0x23#8 ++ 0#16 ++ 0x45#8) = .ok (.pckData 0x45) := by decide
theorem test_decode_pckTerm : decode (0x24#8 ++ 0#24) = .ok .pckTerm := by decide
theorem test_decode_rdPbuf : decode (0x25#8 ++ 0#8 ++ 0x0FFE#16) = .ok (.rdPbuf 4094) := by decide
theorem test_decode_rseStart : decode (0x30#8 ++ 0#16 ++ 0x1E#8) = .ok (.rseStart 30) := by decide
theorem test_decode_rseData : decode (0x31#8 ++ 0#16 ++ 0xD3#8) = .ok (.rseData 0xD3) := by decide
theorem test_decode_rdEc : decode (0x32#8 ++ 0#8 ++ 0x000C#16) = .ok (.rdEc 12) := by decide

/-- Must-be-zero bits, the illegal words of 95_test_vectors.md section 2.4. -/
theorem test_decode_mustBeZero :
    [0x00000001, 0x00800000, 0x01000001, 0x02000100, 0x10000001, 0x11000100, 0x24000001,
      0x20000104, 0x20010100, 0x21200000, 0x22040000, 0x25010000, 0x30000100].map decode =
    List.replicate 13 (.error .mustBeZero) := by decide
/-- Undefined opcodes, from the same table. -/
theorem test_decode_undefinedOpcode :
    [0x03000000, 0x0F000000, 0x13000000, 0x26000000, 0x33000000, 0x80000000, 0xFFFFFFFF].map
      decode = List.replicate 7 (.error .undefinedOpcode) := by decide
/-- A table row's word, with 32 bits. -/
theorem test_decodeTableWord : decodeTableWord 32 0x2201000B = some (.pckSeg 1 11) := by decide

/-! ### One step each; expected values from the rules' own examples and 95_test_vectors.md -/

/-- R100: an unchanged state, response `none`. -/
theorem test_exec_nop :
    (after .nop busy).pos = 3#16 ∧ answer (after .nop busy) = .none := by decide
/-- R101: from a state with STATUS 0x411. -/
theorem test_exec_rst :
    status { inNumeric 2 67 1 with fault := true, cause := .dataTooLong } = 0x411 ∧
    status (after .rst { inNumeric 2 67 1 with fault := true, cause := .dataTooLong }) = 0 ∧
    (pckCfgWord (after .rst busy)).toNat = 0x100 := by decide
/-- R102: CSR 3 after reset. -/
theorem test_exec_rdCsr : answer (after (.rdCsr 3) State.reset) = .word 0x00000100 := by decide
/-- Section 2.4: an address above 6. -/
theorem test_exec_rdCsr_illegal : status (after (.rdCsr 7) State.reset) = 0x041 := by decide
/-- R113. -/
theorem test_exec_clsClr :
    (after .clsClr (classifying .alpha 2 5)).cstate = .init ∧
    (clsPosWord (after .clsClr (classifying .alpha 2 5))).toNat = 0 := by decide
/-- R114: a digit after two letters. -/
theorem test_exec_clsByte :
    answer (after (.clsByte 0x31) (classifying .alpha 0 2)) = .seg .alphanumeric 0 2 ∧
    (clsPosWord (after (.clsByte 0x31) (classifying .alpha 0 2))).toNat = 0x00020003 := by decide
/-- Section 2.1: the 65536th byte. -/
theorem test_exec_clsByte_overflow :
    status (after (.clsByte 0x30) (classifying .numeric 0 65535)) = 0x171 := by decide
/-- R115. -/
theorem test_exec_clsEnd :
    answer (after .clsEnd (classifying .byte 2 3)) = .seg .byte 2 3 ∧
    status (after .clsEnd (classifying .byte 2 3)) = 0 := by decide
/-- R137 and section 2.4: level and version. -/
theorem test_exec_pckInit :
    (pckCfgWord (after (.pckInit 40 .H) State.reset)).toNat = 0x328 ∧
    (after (.pckInit 1 .Q) busy).len = 0#16 ∧ (after (.pckInit 1 .Q) busy).rem = 0#16 := by decide
/-- Section 1.5: version 41. -/
theorem test_exec_pckInit_illegal :
    status (after (.pckInit 41 .L) State.reset) = 0x021 ∧
    (after (.pckInit 41 .L) State.reset).fcmd = 0x20002900 := by decide
/-- R138: `PCK.BITS 4, 2` at 1-L. -/
theorem test_exec_pckBits :
    (after (.pckBits 4 2) idle).buf = [(0, 0x20)] ∧
    (after (.pckBits 4 2) idle).len = 4#16 := by decide +kernel
/-- R213, section 2.4: the operand is checked before the sequence. -/
theorem test_exec_pckBits_priority :
    status (after (.pckBits 17 0) (inNumeric 0 0 2)) = 0x441 := by decide
/-- R139: `PCK.SEG ALN, 11` at 1-L. -/
theorem test_exec_pckSeg :
    (after (.pckSeg 1 11) idle).buf = [(0, 0x20), (1, 0x58)] ∧
    (after (.pckSeg 1 11) idle).len = 13#16 ∧
    (after (.pckSeg 1 11) idle).rem = 11#16 := by decide +kernel
/-- Section 2.2: a count of 256 does not fit the 8 bits of a Byte segment of version 1. -/
theorem test_exec_pckSeg_tooLong : status (after (.pckSeg 2 256) idle) = 0x011 := by decide
/-- R140: `'E'` after `'H'`: 779 in 11 bits from position 13 on. -/
theorem test_exec_pckData :
    (after (.pckData 0x45) { inAlnum 1 17 10 with buf := [(0, 0x20), (1, 0x58)] }).buf =
      [(0, 0x20), (1, 0x5B), (2, 0x0B)] ∧
    (pckSegWord (after (.pckData 0x45) (inAlnum 1 17 10))).toNat = 0x00010009 := by
  decide +kernel
/-- Section 2.2: `'A'` in a Numeric segment. -/
theorem test_exec_pckData_badChar :
    status (after (.pckData 0x41) (inNumeric 1 1 1)) = 0x461 ∧
    (pckSegWord (after (.pckData 0x41) (inNumeric 1 1 1))).toNat = 0x00140001 := by decide
/-- Section 2.2: the empty Numeric message at 1-H. -/
theorem test_exec_pckTerm :
    (after .pckTerm { packed 14 with ecl := .H, buf := [(0, 0x10)] }).buf =
      [(0, 0x10), (3, 0xEC), (4, 0x11), (5, 0xEC), (6, 0x11), (7, 0xEC), (8, 0x11)] ∧
    (after .pckTerm { packed 14 with ecl := .H }).len = 72#16 := by decide +kernel
/-- Section 2.4: with a segment open. -/
theorem test_exec_pckTerm_open :
    status (after .pckTerm (inNumeric 1 1 1)) = 0x451 := by decide
/-- R142. -/
theorem test_exec_rdPbuf :
    answer (after (.rdPbuf 10) { idle with buf := [(10, 0xEC)] }) = .word 0x000000EC ∧
    answer (after (.rdPbuf 4095) State.reset) = .word 0 := by decide
theorem test_exec_rdPbuf_illegal : status (after (.rdPbuf 4096) State.reset) = 0x041 := by decide
/-- R175, section 2.3. -/
theorem test_exec_rseStart :
    status (after (.rseStart 30) State.reset) = 0x800 ∧
    (rseCfgWord (after (.rseStart 13) State.reset)).toNat = 0x0000000D := by decide
theorem test_exec_rseStart_illegal : status (after (.rseStart 31) State.reset) = 0x041 := by decide
/-- R176: `RSE.DATA 0x12` with `N = 2`. -/
theorem test_exec_rseData :
    remainderOf (after (.rseData 0x12) (dividing 2)) = [0x36, 0x24] := by decide +kernel
/-- Section 2.3: before any `RSE.START`. -/
theorem test_exec_rseData_unstarted : status (after (.rseData 0) State.reset) = 0x051 := by decide
/-- R177. -/
theorem test_exec_rdEc :
    answer (after (.rdEc 0) { dividing 13 with r := Vector.replicate 30 0xA8#8 }) =
      .word 0x000000A8 := by decide
/-- Section 2.3: after `RSE.START 13`, register 13 is not readable. -/
theorem test_exec_rdEc_illegal : status (after (.rdEc 13) (dividing 13)) = 0x841 := by decide

/-- Section 2.3: products. -/
theorem test_gmul :
    gmul 0x02 0x80 = 0x1D ∧ gmul 0x53 0xCA = 0x8F ∧ gmul 0xFF 0xFF = 0xE2 ∧
    gmul 0x80 0x80 = 0x13 := by decide
/-- R173: the printed generator of length 7. -/
theorem test_genCoeffs_7 :
    genCoeffs 7 = [0x7F, 0x7A, 0x9A, 0xA4, 0x0B, 0x44, 0x75] := by decide +kernel
/-- The step runs the word it is given, from reset (`RSE.START 1`, section 2.4). -/
theorem test_step_withFetchWord :
    step (State.reset.withFetchWord 32 0x30000001) = exec (.rseStart 1) State.reset := by rfl

/-! ### Witnesses: states and operands that meet every statement's hypotheses, clause by clause -/

/-- The busy state meets every invariant of 10_state.md R28. -/
theorem witness_inv : Inv busy where
  bufWf := by decide
  clsInit h := absurd h (by decide)
  clsOrder := by decide
  clsRun _ := by decide
  version := by decide
  lenFits c h := by
    have e : capacity defaultConfig busy = some 152 := by decide
    rw [e] at h
    injection h with h
    subst h
    decide
  bufZero p hp := by
    have e : busy.len.toNat = 14 := by decide
    rw [e] at hp
    by_cases h : p < 16
    · interval_cases p <;> decide
    · have hb : Memory.read busy.buf (p / 8) = 0#8 := by
        have h0 : ¬ (0 = p / 8) := by omega
        have h1 : ¬ (1 = p / 8) := by omega
        simp only [busy, Memory.read, if_neg h0, if_neg h1]
      rw [Memory.readBit, hb]
      exact BitVec.getLsbD_zero
  noGroup h := absurd h (by decide)
  numericGroup _ := by decide
  alnumGroup h := absurd h (by decide)
  byteGroup h := absurd h (by decide)
  openVersion _ := by decide
  rZero i _ := by
    have e : busy.r = Vector.replicate 30 0#8 := rfl
    simp [e]
  noFault _ := by decide
  faulted h := absurd h (by decide)

theorem witness_DecodeOfEncode : (Instr.pckBits 31 65535).wellFormed = true := by decide

theorem witness_DecodedWord : decode 0x211FFFFF = .ok (.pckBits 31 65535) := by decide

theorem witness_MatchAndMask :
    decode 0x20002803 = .ok (.pckInit 40 .H) ∧ decode 0x11000100 = .error .mustBeZero ∧
    (∀ row ∈ tableRows, row.matches 0x11000100 = false) := by decide

theorem witness_StepRuns :
    busy.inbox = .cmd 0x23000037 :: [] ∧ decode 0x23000037 = .ok (.pckData 0x37) ∧
    decode (BitVec.ofNat 32 0x23000037) = .ok (.pckData 0x37) ∧ 0x23000037 < 2 ^ 32 := by decide

theorem witness_EveryPresented : busy.inbox ≠ [] ∧ State.reset.inbox = [] := by decide

/-- Also the hypotheses of OneResponsePerTransaction and of the resets' statement. -/
theorem witness_steps :
    (∃ t, step busy = .next t) ∧
    (∃ t, step { busy with inbox := [.rst, .cmd 0] } = .next t) ∧
    ({ busy with inbox := [.rst, .cmd 0] } : State).inbox = .rst :: [.cmd 0] :=
  ⟨⟨_, rfl⟩, ⟨_, rfl⟩, rfl⟩

/-- Each clause of ResponsePortLayout about a command. -/
theorem witness_ResponsePort :
    (∃ t, exec (.rdCsr 6) busy = .next t ∧ t.resps = .word 2 :: busy.resps) ∧
    (∃ t, exec .clsEnd busy = .next t ∧ t.resps = .seg .alphanumeric 1 3 :: busy.resps) ∧
    (∃ t, exec .pckTerm busy = .next t ∧ t.resps = .none :: busy.resps ∧ busy.fault = false ∧
      t.fault = true) ∧
    (∃ t, exec (.rdCsr 1) faulted = .next t ∧ t.resps = .word 1 :: faulted.resps ∧
      faulted.fault = true) :=
  ⟨⟨_, rfl, rfl⟩, ⟨_, rfl, rfl⟩, ⟨_, rfl, rfl, rfl, rfl⟩, ⟨_, rfl, rfl, rfl⟩⟩

theorem witness_RstRule :
    (presents 0x01000001 busy).inbox = .cmd 0x01000001 :: [] ∧ bits 0x01000001 31 24 = 0x01 ∧
    bits 0x01000001 23 0 ≠ 0 ∧ (presents 0x01000001 busy).fault = false ∧
    (presents 0x01000001 faulted).fault = true := by decide

theorem witness_IllegalWords : IsIllegalWord 0x11000100 ∧ IsIllegalWord 0xFF000000 ∧
    (presents 0xFF000000 busy).inbox = .cmd 0xFF000000 :: [] ∧
    (presents 0xFF000000 busy).fault = false ∧ (0x01000000 : Word) ≠ 0x00000000 ∧
    (Instr.pckSeg 3 0).wellFormed = true := by
  unfold IsIllegalWord
  decide

theorem witness_FaultEntry :
    ∃ t, (presents 0x24000000 busy).inbox = .cmd 0x24000000 :: [] ∧
      (presents 0x24000000 busy).fault = false ∧ step (presents 0x24000000 busy) = .next t ∧
      t.fault = true :=
  ⟨_, rfl, rfl, rfl, rfl⟩

/-- The three clauses, with the addresses 6 and 7 on either side of the last one that is read. -/
theorem witness_FaultedBlock :
    faulted.fault = true ∧ (presents 0x01000000 faulted).inbox = .cmd 0x01000000 :: [] ∧
    (0x02000006 : Word) = BitVec.ofNat 32 (0x02000000 + 6) ∧ (0x02000007 : Word) ≠ 0x01000000 ∧
    (∀ a, a ≤ 6 → (0x02000007 : Word) ≠ BitVec.ofNat 32 (0x02000000 + a)) := by
  refine ⟨rfl, rfl, rfl, by decide, fun a ha => ?_⟩
  interval_cases a <;> decide

theorem witness_OnlyReset :
    (∃ t, step (presents 0x01000000 faulted) = .next t ∧ t.fault = false) ∧
    (∃ t, step { faulted with inbox := [.rst] } = .next t ∧ t.fault = false) ∧
    faulted.fault = true :=
  ⟨⟨_, rfl, rfl⟩, ⟨_, rfl, rfl⟩, rfl⟩

theorem witness_CommandsRaise :
    Inv busy ∧ ∃ t, busy.fault = false ∧ exec (.pckData 0x41) busy = .next t ∧ t.fault = true :=
  ⟨witness_inv, _, rfl, rfl, rfl⟩

theorem witness_CsrLayout : IsReset (resetTuple busy) := resetTuple_isReset busy

theorem witness_RdCsr :
    255 < 2 ^ 8 ∧ 6 ≤ 6 ∧ 6 < 7 ∧ busy.fault = false ∧ faulted.fault = true := by decide

/-- The two sides of the counter's limit, and the three places a byte can find the classifier. -/
theorem witness_ClsByte :
    (classifying .numeric 0 65535).pos.toNat = 65535 ∧
    (classifying .numeric 0 65534).pos.toNat < 65535 ∧
    (classifying .numeric 0 65534).pos ≠ 0xFFFF ∧
    (classifying .numeric 0 65535).fault = false ∧ (classifying .numeric 0 65534).fault = false ∧
    State.reset.cstate = .init ∧
    (classifying .numeric 0 65534).cstate = stateOf (classOf 0x39) ∧
    (classifying .numeric 0 65534).cstate ≠ .init ∧
    (classifying .numeric 0 65534).cstate ≠ stateOf (classOf 0x3A) ∧
    (transition (classifying .numeric 0 65534).cstate (some (classOf 0x3A))).2 ≠ none ∧
    faulted.fault = true := by decide

/-- CLS.CLR and CLS.END, and the two places CLS.END can find the classifier. -/
theorem witness_ClsEnd :
    busy.fault = false ∧ faulted.fault = true ∧ State.reset.cstate = .init ∧
    busy.cstate ≠ .init := by decide

theorem witness_ClassifierEmits :
    [0x41#8, 0x31#8, 0x62#8].length ≤ 65535 ∧ idle.fault = false ∧ idle.cstate = .init ∧
    idle.pos = 0#16 := by decide

/-- The segments of 95_test_vectors.md section 3.1 (`A1b`) meet what IsSegmentation asks. -/
theorem witness_IsSegmentation :
    IsSegmentation [0x41#8, 0x31#8, 0x62#8] [(.alphanumeric, 0, 1), (.numeric, 1, 2), (.byte, 2, 3)]
    where
  covers := by simp [Covers]
  classes := by
    intro x hx i b h1 h2 hb
    simp only [List.mem_cons, List.not_mem_nil, or_false] at hx
    rcases hx with rfl | rfl | rfl <;> simp only at h1 h2
    · have : i = 0 := by omega
      subst this
      cases hb
      decide
    · have : i = 1 := by omega
      subst this
      cases hb
      decide
    · have : i = 2 := by omega
      subst this
      cases hb
      decide
  maximal := by simp [AdjacentDiffer]

theorem witness_PackerTables :
    (1 ≤ 1 ∧ 1 ≤ 9 ∧ 9 ≤ 9) ∧ (10 ≤ 10 ∧ 26 ≤ 26) ∧ (27 ≤ 27 ∧ 40 ≤ 40) ∧
    alnumValue 0x3A = some 44 ∧ alnumTable[44]? = some 0x3A := by decide

theorem witness_Capacity :
    ({ idle with version := 1#6 } : State).version.toNat = 1 ∧
    ({ idle with version := 40#6 } : State).version.toNat = 40 ∧
    State.reset.version.toNat = 0 ∧ 40 < ({ idle with version := 41#6 } : State).version.toNat := by
  decide

/-- The widest value at the very end of the buffer, and a buffer with zeros from LEN on. -/
theorem witness_Push :
    Memory.wf (packed 32752).buf = true ∧ 16 ≤ 16 ∧ 65535 < 2 ^ 16 ∧
    (packed 32752).len.toNat + 16 ≤ 8 * pbufBytes ∧
    (∀ p, (packed 32752).len.toNat ≤ p → Memory.readBit (packed 32752).buf p = false) :=
  ⟨rfl, by decide, by decide, by decide, fun _ _ => BitVec.getLsbD_zero⟩

theorem witness_PckInit :
    255 < 2 ^ 8 ∧ (0 = 0 ∨ 40 < 0) ∧ (41 = 0 ∨ 40 < 41) ∧ (1 ≤ 1 ∧ 1 ≤ 40) ∧
    (1 ≤ 40 ∧ 40 ≤ 40) ∧ busy.fault = false ∧ faulted.fault = true := by decide

/-- Every clause: the operand, the sequence, no target, one bit too many, the last bit that fits. -/
theorem witness_PckBits :
    (17 < 2 ^ 5 ∧ 65535 < 2 ^ 16 ∧ 16 < 17) ∧ 2 ^ 4 ≤ 16 ∧ (16 ≤ 16 ∧ 65535 < 2 ^ 16) ∧
    (busy.rem ≠ 0#16 ∧ Memory.wf busy.buf = true ∧ busy.fault = false) ∧
    (State.reset.rem = 0#16 ∧ capacity defaultConfig State.reset = none) ∧
    (capacity defaultConfig (packed 136) = some 152 ∧ (packed 136).len.toNat + 16 ≤ 152 ∧
      (packed 136).rem = 0#16 ∧ Memory.wf (packed 136).buf = true ∧ (packed 136).fault = false) ∧
    (capacity defaultConfig (packed 137) = some 152 ∧ 152 < (packed 137).len.toNat + 16) ∧
    faulted.fault = true := by decide

/-- Every clause: the code 3, the sequence, no target, a count of one too many, a header of one bit
too many, the last header that fits. -/
theorem witness_PckSeg :
    (3 < 2 ^ 2 ∧ 65535 < 2 ^ 16) ∧ modeCode .byte = 2 ∧
    (busy.rem ≠ 0#16 ∧ Memory.wf busy.buf = true ∧ busy.fault = false) ∧
    (State.reset.rem = 0#16 ∧ capacity defaultConfig State.reset = none) ∧
    (2 ^ lenBits .byte idle.version.toNat ≤ 256 ∧ 255 < 2 ^ lenBits .byte idle.version.toNat) ∧
    (capacity defaultConfig (packed 140) = some 152 ∧
      (packed 140).len.toNat + 4 + lenBits .byte (packed 140).version.toNat ≤ 152 ∧
      (packed 140).rem = 0#16 ∧ Memory.wf (packed 140).buf = true ∧
      (packed 140).fault = false) ∧
    (capacity defaultConfig (packed 141) = some 152 ∧
      152 < (packed 141).len.toNat + 4 + lenBits .byte (packed 141).version.toNat) ∧
    faulted.fault = true := by decide

/-- The clauses before the case distinction. -/
theorem witness_PckData :
    (idle.rem = 0#16 ∧ Memory.wf idle.buf = true ∧ idle.fault = false) ∧
    (({ inNumeric 0 0 2 with version := 0#6 } : State).rem ≠ 0#16 ∧
      capacity defaultConfig { inNumeric 0 0 2 with version := 0#6 } = none) ∧
    (capacity defaultConfig (inNumeric 0 0 2) = some 152 ∧
      validIn (inNumeric 0 0 2).curMode 0x2F = false ∧
      validIn (inNumeric 0 0 2).curMode 0x3A = false ∧
      validIn (inNumeric 0 0 2).curMode 0x30 = true ∧
      validIn (inNumeric 0 0 2).curMode 0x39 = true) ∧
    faulted.fault = true := by decide

/-- The Numeric clauses; a group of 10, 7 and 4 bits at the last position where it fits and at the
first where it does not. -/
theorem witness_PckData_numeric :
    (inNumeric 2 99 1).curMode = .numeric ∧ (inNumeric 2 99 1).accN = 2 ∧
    ((inNumeric 1 9 1).accN = 1 ∧ (inNumeric 1 9 1).rem = 1#16) ∧
    ((inNumeric 1 9 2).accN = 1 ∧ (inNumeric 1 9 2).rem ≠ 1#16) ∧
    ((inNumeric 0 0 1).accN = 0 ∧ (inNumeric 0 0 1).rem = 1#16) ∧
    ((inNumeric 0 0 2).accN = 0 ∧ (inNumeric 0 0 2).rem ≠ 1#16) ∧
    ((packed 142).len.toNat + 10 ≤ 152 ∧ 152 < (packed 143).len.toNat + 10) ∧
    ((packed 145).len.toNat + 7 ≤ 152 ∧ 152 < (packed 146).len.toNat + 7) ∧
    ((packed 148).len.toNat + 4 ≤ 152 ∧ 152 < (packed 149).len.toNat + 4) := by decide

/-- The Alphanumeric and Byte clauses, likewise. -/
theorem witness_PckData_alnum_byte :
    (inAlnum 1 44 1).curMode = .alphanumeric ∧ (inAlnum 1 44 1).accN = 1 ∧
    ((inAlnum 0 0 1).accN ≠ 1 ∧ (inAlnum 0 0 1).rem = 1#16) ∧
    ((inAlnum 0 0 2).accN ≠ 1 ∧ (inAlnum 0 0 2).rem ≠ 1#16) ∧
    validIn (inAlnum 0 0 2).curMode 0x3A = true ∧ validIn (inAlnum 0 0 2).curMode 0x3B = false ∧
    (inByte 144 1).curMode = .byte ∧ validIn (inByte 144 1).curMode 0xFF = true ∧
    ((packed 141).len.toNat + 11 ≤ 152 ∧ 152 < (packed 142).len.toNat + 11) ∧
    ((packed 146).len.toNat + 6 ≤ 152 ∧ 152 < (packed 147).len.toNat + 6) ∧
    ((packed 144).len.toNat + 8 ≤ 152 ∧ 152 < (packed 145).len.toNat + 8) := by decide

/-- Every clause: the sequence, no target, a buffer above the capacity (no run reaches it), a full
one, an empty one. -/
theorem witness_PckTerm :
    (busy.rem ≠ 0#16 ∧ Memory.wf busy.buf = true ∧ busy.fault = false) ∧
    (State.reset.rem = 0#16 ∧ capacity defaultConfig State.reset = none) ∧
    (capacity defaultConfig (packed 153) = some 152 ∧ 152 < (packed 153).len.toNat ∧
      (packed 153).rem = 0#16) ∧
    (capacity defaultConfig (packed 152) = some 152 ∧ (packed 152).len.toNat = 152) ∧
    (capacity defaultConfig idle = some 152 ∧ idle.len.toNat ≤ 152 ∧ idle.rem = 0#16) ∧
    faulted.fault = true := by decide

theorem witness_RdPbuf :
    65535 < 2 ^ 16 ∧ 4096 ≤ 4096 ∧ 4095 < 4096 ∧ busy.fault = false ∧ faulted.fault = true := by
  decide

/-- One command of each clause of AppendsFitEveryConfiguration, and LenNeverDecreases. -/
theorem witness_Appends :
    (capacity defaultConfig idle = some 152 ∧ idle.len.toNat ≤ 152) ∧
    (∃ t, pckBitsEffect defaultConfig 4 2 idle = .done t .none) ∧
    (∃ t, pckSegEffect defaultConfig 1 11 idle = .done t .none) ∧
    (∃ t, pckDataEffect defaultConfig 0x37 busy = .done t .none) ∧
    (∃ t, pckTermEffect defaultConfig idle = .done t .none) ∧
    (∃ t, exec (.pckBits 4 2) idle = .next t) ∧ Instr.pckBits 4 2 ≠ .rst ∧
    (∀ ver ec, Instr.pckBits 4 2 ≠ .pckInit ver ec) :=
  ⟨by decide, ⟨_, rfl⟩, ⟨_, rfl⟩, ⟨_, rfl⟩, ⟨_, rfl⟩, ⟨_, rfl⟩, by decide, by simp⟩

/-- A segment that fits, one whose count does not fit its field, and one whose bits do not fit. -/
theorem witness_Segment :
    (Memory.wf idle.buf = true ∧ idle.fault = false ∧ idle.rem = 0#16 ∧
      capacity defaultConfig idle = some 152) ∧
    ([0x31#8, 0x32#8].length < 2 ^ 16 ∧ (∀ b ∈ [0x31#8, 0x32#8], validIn .numeric b = true)) ∧
    ([0x31#8, 0x32#8].length < 2 ^ lenBits .numeric idle.version.toNat ∧
      idle.len.toNat + segBits .numeric 2 idle.version.toNat ≤ 152) ∧
    2 ^ lenBits .byte idle.version.toNat ≤ (List.replicate 256 0#8).length ∧
    152 < (packed 132).len.toNat + segBits .numeric 2 idle.version.toNat := by decide +kernel

theorem witness_Message :
    idle.fault = false ∧ (1 ≤ 1 ∧ 1 ≤ 40) ∧
    (∀ x ∈ [(Mode.alphanumeric, [0x41#8]), (Mode.numeric, [0x31#8])],
      x.2.length < 2 ^ lenBits x.1 1 ∧ ∀ b ∈ x.2, validIn x.1 b = true) ∧
    ([(Mode.alphanumeric, [0x41#8]), (Mode.numeric, [0x31#8])].map fun x =>
      segBits x.1 x.2.length 1).sum ≤ 8 * defaultDataCodewords 1 .L := by decide

/-- A group completed and a partial group kept, each in a state that meets the invariants. -/
theorem witness_Groups :
    Inv busy ∧ busy.rem ≠ 0#16 ∧
    dataGroup busy.curMode busy.acc.toNat busy.accN.val (busy.rem.toNat - 1) 0x37 = .keep 57 2 ∧
    dataGroup (inByte 14 1).curMode (inByte 14 1).acc.toNat (inByte 14 1).accN.val
      ((inByte 14 1).rem.toNat - 1) 0x37 = .emit 8 0x37 :=
  ⟨witness_inv, by decide, by decide, by decide⟩

/-- The maximal Numeric string of version 1, level H (95_test_vectors.md section 2.2). -/
theorem witness_Maximal :
    (∀ b ∈ List.replicate 17 0x31#8, validIn .numeric b = true) ∧
    (List.replicate 17 0x31#8).length < 2 ^ lenBits .numeric 1 ∧
    segBits .numeric (List.replicate 17 0x31#8).length 1 ≤ 8 * defaultDataCodewords 1 .H ∧
    8 * defaultDataCodewords 1 .H < segBits .numeric ((List.replicate 17 0x31#8).length + 1) 1 := by
  decide +kernel

theorem witness_Gf : (1 : Byte) ≠ 0 ∧ 254 < 255 ∧ alphaPow 0 = 1 ∧ 6 < 7 := by decide

theorem witness_RseStart :
    255 < 2 ^ 8 ∧ (0 = 0 ∨ 30 < 0) ∧ (31 = 0 ∨ 30 < 31) ∧ (1 ≤ 1 ∧ 1 ≤ 30) ∧
    (1 ≤ 30 ∧ 30 ≤ 30) ∧ busy.fault = false ∧ faulted.fault = true := by decide

/-- Not started; `N = 1`; and the registers on either side of `N = 30`. -/
theorem witness_RseData :
    State.reset.n = 0 ∧ (dividing 1).n.val = 1 ∧ (dividing 30).n ≠ 0 ∧
    28 + 1 < (dividing 30).n.val ∧ (dividing 30).n.val ≤ 30 ∧ (dividing 30).fault = false ∧
    faulted.fault = true := by decide

theorem witness_RdEc :
    65535 < 2 ^ 16 ∧ (dividing 13).n.val ≤ 13 ∧ 12 < (dividing 13).n.val ∧
    (dividing 13).fault = false ∧ faulted.fault = true := by decide

theorem witness_Remainder :
    (1 ≤ 1 ∧ 1 ≤ 30 ∧ 30 ≤ 30) ∧ busy.fault = false ∧
    ([0x12#8, 0x34#8].length = [0x56#8, 0x78#8].length) ∧
    (∃ t, execAll (.rseStart 2 :: [0x12#8, 0x34#8].map .rseData) busy = .next t) ∧
    polyMul [1#8] (genPoly 1) = [1#8] ++ [1#8] := by
  exact ⟨by decide, rfl, rfl, ⟨_, rfl⟩, by decide +kernel⟩

theorem witness_StepKeeps : Inv busy ∧ ∃ t, step busy = .next t := ⟨witness_inv, _, rfl⟩

/-- A command that succeeds, one that faults, one that is ignored. -/
theorem witness_WriteMatrix :
    (∃ t, exec (.rdCsr 0) busy = .next t ∧ t.fault = busy.fault) ∧ Instr.rdCsr 0 ≠ .rst ∧
    (∃ t, exec .pckTerm busy = .next t ∧ busy.fault = false ∧ t.fault = true) ∧
    (∃ t, exec .nop faulted = .next t ∧ faulted.fault = true) ∧
    Instr.unit (.rdCsr 0) ≠ .cls ∧ appendsToBuffer (.rdCsr 0) = false :=
  ⟨⟨_, rfl, rfl⟩, by decide, ⟨_, rfl, rfl, rfl⟩, ⟨_, rfl, rfl⟩, by decide, rfl⟩

theorem witness_Reads :
    ∃ t u, exec (.rdPbuf 1) busy = .next t ∧ t.resps = .word 0x0C :: busy.resps ∧
      exec (.rdPbuf 1) t = .next u :=
  ⟨_, _, rfl, rfl, rfl⟩

theorem witness_Units :
    Instr.unit .clsEnd ≠ .system ∧ busy.fault = false ∧
    ({ idle with cstate := .alpha, segBegin := 1#16, pos := 3#16 } : State).fault = false ∧
    Memory.wf busy.buf = true ∧ Memory.wf idle.buf = true ∧
    SameUnit (Instr.unit .clsEnd) busy
      { idle with cstate := .alpha, segBegin := 1#16, pos := 3#16 } ∧
    (∃ t, exec .clsEnd busy = .next t) ∧
    ∃ t, exec .clsEnd { idle with cstate := .alpha, segBegin := 1#16, pos := 3#16 } = .next t :=
  ⟨by decide, rfl, rfl, by decide, by decide, ⟨rfl, rfl, rfl⟩, ⟨_, rfl⟩, ⟨_, rfl⟩⟩

theorem witness_Initialising :
    busy.fault = false ∧ idle.fault = false ∧
    (∃ t t', exec .clsEnd busy = .next t ∧ exec .clsEnd idle = .next t') ∧
    (∃ t t', exec (.pckInit 40 .H) busy = .next t ∧ exec (.pckInit 40 .H) idle = .next t') ∧
    ∃ t t', exec (.rseStart 30) busy = .next t ∧ exec (.rseStart 30) idle = .next t' :=
  ⟨rfl, rfl, ⟨_, _, rfl, rfl⟩, ⟨_, _, rfl, rfl⟩, ⟨_, _, rfl, rfl⟩⟩

theorem witness_AllStateIsObservable :
    Inv busy ∧ (∀ a, a ≤ 6 → csrRead busy a = csrRead busy a) := ⟨witness_inv, fun _ _ => rfl⟩

theorem witness_CompletedActivities :
    (∃ t, idle.fault = false ∧ exec .pckTerm idle = .next t ∧ t.fault = false) ∧
    (∃ t, busy.fault = false ∧ exec .clsEnd busy = .next t) ∧
    (∃ t, execAll (.rseStart 30 :: [0x12#8].map .rseData) busy = .next t) ∧
    faulted.fault = true :=
  ⟨⟨_, rfl, rfl, rfl⟩, ⟨_, rfl, rfl⟩, ⟨_, rfl⟩, rfl⟩

end Sys2Proof.Machine
end

section
/-! PROOFS. The layouts of the control and status registers (10_state.md R27). Each register's value as a
sum of its fields, none of which reaches the next one's place; then every field read back from that sum;
then the reset words. -/

namespace Sys2Proof.Machine

/-! ### Every code fits its field -/

theorem causeCode_lt (c : Cause) : causeCode c < 2 ^ 4 := by cases c <;> decide

theorem clsStateCode_lt (c : ClsState) : clsStateCode c < 2 ^ 2 := by cases c <;> decide

theorem modeCode_lt (m : Mode) : modeCode m < 2 ^ 2 := by cases m <;> decide

theorem ecLevel_code_lt (e : EcLevel) : e.code < 2 ^ 2 := by cases e <;> decide

theorem segOpen_toNat_eq_one (s : State) : (segOpen s).toNat = 1 ↔ s.rem ≠ 0#16 := by
  simp [segOpen]

theorem rsActive_toNat_eq_one (s : State) : (rsActive s).toNat = 1 ↔ s.n ≠ 0 := by
  simp [rsActive]

/-! ### Each register is the sum of its fields: no bit is lost to the width of the word -/

theorem word_toNat_of_lt {n : Nat} (h : n < 2 ^ 32) : (BitVec.ofNat 32 n).toNat = n :=
  (BitVec.toNat_ofNat n 32).trans (Nat.mod_eq_of_lt h)

theorem statusWord_toNat (s : State) :
    (statusWord s).toNat = s.fault.toNat + causeCode s.cause * 2 ^ 4 +
      clsStateCode s.cstate * 2 ^ 8 + (segOpen s).toNat * 2 ^ 10 + (rsActive s).toNat * 2 ^ 11 := by
  have hfault := s.fault.toNat_lt
  have hcause := causeCode_lt s.cause
  have hcstate := clsStateCode_lt s.cstate
  have hopen := (segOpen s).toNat_lt
  have hactive := (rsActive s).toNat_lt
  exact word_toNat_of_lt (by omega)

theorem clsPosWord_toNat (s : State) :
    (clsPosWord s).toNat = s.pos.toNat + s.segBegin.toNat * 2 ^ 16 :=
  word_toNat_of_lt (by omega)

theorem pckCfgWord_toNat (s : State) :
    (pckCfgWord s).toNat = s.version.toNat + s.ecl.code * 2 ^ 8 := by
  have hecl := ecLevel_code_lt s.ecl
  exact word_toNat_of_lt (by omega)

theorem pckLenWord_toNat (s : State) : (pckLenWord s).toNat = s.len.toNat :=
  word_toNat_of_lt (by omega)

theorem pckSegWord_toNat (s : State) :
    (pckSegWord s).toNat = s.rem.toNat + modeCode s.curMode * 2 ^ 16 + s.accN.val * 2 ^ 18 +
      s.acc.toNat * 2 ^ 20 := by
  have hmode := modeCode_lt s.curMode
  exact word_toNat_of_lt (by omega)

theorem rseCfgWord_toNat (s : State) : (rseCfgWord s).toNat = s.n.val :=
  word_toNat_of_lt (by omega)

/-! ### The fields of each register, and its zero bits -/

theorem statusWord_fields (s : State) :
    bits (statusWord s) 0 0 = s.fault.toNat ∧ bits (statusWord s) 3 1 = 0 ∧
    bits (statusWord s) 7 4 = causeCode s.cause ∧
    bits (statusWord s) 9 8 = clsStateCode s.cstate ∧
    bits (statusWord s) 10 10 = (segOpen s).toNat ∧
    bits (statusWord s) 11 11 = (rsActive s).toNat ∧ bits (statusWord s) 31 12 = 0 := by
  have hfault := s.fault.toNat_lt
  have hcause := causeCode_lt s.cause
  have hcstate := clsStateCode_lt s.cstate
  have hopen := (segOpen s).toNat_lt
  have hactive := (rsActive s).toNat_lt
  simp only [bits, statusWord_toNat]
  omega

theorem clsPosWord_fields (s : State) :
    bits (clsPosWord s) 15 0 = s.pos.toNat ∧ bits (clsPosWord s) 31 16 = s.segBegin.toNat := by
  simp only [bits, clsPosWord_toNat]
  omega

theorem pckCfgWord_fields (s : State) :
    bits (pckCfgWord s) 5 0 = s.version.toNat ∧ bits (pckCfgWord s) 7 6 = 0 ∧
    bits (pckCfgWord s) 9 8 = s.ecl.code ∧ bits (pckCfgWord s) 31 10 = 0 := by
  have hecl := ecLevel_code_lt s.ecl
  simp only [bits, pckCfgWord_toNat]
  omega

theorem pckLenWord_fields (s : State) :
    bits (pckLenWord s) 15 0 = s.len.toNat ∧ bits (pckLenWord s) 31 16 = 0 := by
  simp only [bits, pckLenWord_toNat]
  omega

theorem pckSegWord_fields (s : State) :
    bits (pckSegWord s) 15 0 = s.rem.toNat ∧ bits (pckSegWord s) 17 16 = modeCode s.curMode ∧
    bits (pckSegWord s) 19 18 = s.accN.val ∧ bits (pckSegWord s) 26 20 = s.acc.toNat ∧
    bits (pckSegWord s) 31 27 = 0 := by
  have hmode := modeCode_lt s.curMode
  simp only [bits, pckSegWord_toNat]
  omega

theorem rseCfgWord_fields (s : State) :
    bits (rseCfgWord s) 4 0 = s.n.val ∧ bits (rseCfgWord s) 31 5 = 0 := by
  simp only [bits, rseCfgWord_toNat]
  omega

/-! ### The reset words -/

/-- Address 3 is PCKCFG, whose ECL is reset to M, code 1. -/
theorem csrRead_of_isReset {s : State} (h : IsReset s) {a : Nat} (ha : a ≤ 6) :
    csrRead s a = some (if a = 3 then 0x00000100 else 0x00000000) := by
  interval_cases a
  · simp [csrRead, statusWord, segOpen, rsActive, h.fault, h.cause, h.cstate, h.rem, h.n,
      causeCode, clsStateCode]
  · simp [csrRead, h.fcmd]
  · simp [csrRead, clsPosWord, h.pos, h.segBegin]
  · simp [csrRead, pckCfgWord, h.version, h.ecl, EcLevel.code]
  · simp [csrRead, pckLenWord, h.len]
  · simp [csrRead, pckSegWord, h.rem, h.curMode, h.accN, h.acc, modeCode]
  · simp [csrRead, rseCfgWord, h.n]

/-! ### The statement -/

/-- Settles O17: each register's fields stand in the lemma about its word; the two derived status bits
are 1 exactly where REM and N are not 0. -/
theorem csrLayout : Obligations.CsrLayout := by
  refine ⟨fun s => ⟨?status, rfl, ⟨_, rfl, clsPosWord_fields s⟩, ⟨_, rfl, pckCfgWord_fields s⟩,
    ⟨_, rfl, pckLenWord_fields s⟩, ⟨_, rfl, pckSegWord_fields s⟩, ⟨_, rfl, rseCfgWord_fields s⟩⟩,
    fun _ h _ => csrRead_of_isReset h⟩
  case status =>
    obtain ⟨hfault, hzero, hcause, hcstate, hopen, hactive, hhigh⟩ := statusWord_fields s
    refine ⟨_, rfl, hfault, hzero, hcause, hcstate, ?_, ?_, hhigh⟩
    · rw [hopen, segOpen_toNat_eq_one]
    · rw [hactive, rsActive_toNat_eq_one]

end Sys2Proof.Machine
end

section
/-! PROOFS. The reading commands RD.CSR, RD.PBUF and RD.EC (20_memory.md R58). What a read can come to is
said once, as `ReadOutcome`, together with why it can be repeated: the word it answers is a function of
the state tuple, and an answer writes the host's list of responses alone. -/

namespace Sys2Proof.Machine

/-- What a reading command comes to: it is ignored, it raises IllegalOperand, or it answers a word and
answers that word again however the host's list of responses has grown. -/
inductive ReadOutcome (i : Instr) (s : State) : State → Prop
  | ignored : ReadOutcome i s (respond .none s)
  | raised : ReadOutcome i s (raiseFault .illegalOperand (encode i) s)
  | answered (v : Word)
      (again : ∀ resp, exec i (respond resp s) = .next (respond (.word v) (respond resp s))) :
      ReadOutcome i s (respond (.word v) s)

/-! ### Each reading command has one of the three outcomes -/

theorem readOutcome_of_gated_raise {i : Instr} {s t : State}
    (h : gated i s (.raise .illegalOperand) = .next t) : ReadOutcome i s t := by
  obtain ⟨-, rfl⟩ | ⟨-, c, hc, rfl⟩ | ⟨-, u, resp, hu, -⟩ := gated_cases h
  · exact .ignored
  · cases hc
    exact .raised
  · cases hu

/-- A gated command that answers `v` without touching its state, before and after any response. -/
theorem readOutcome_of_gated_done {i : Instr} {s t : State} {v : Word}
    (hexec : ∀ resp, exec i (respond resp s) =
      gated i (respond resp s) (.done (respond resp s) (.word v)))
    (h : gated i s (.done s (.word v)) = .next t) : ReadOutcome i s t := by
  obtain ⟨-, rfl⟩ | ⟨-, c, hc, -⟩ | ⟨hfault, u, resp, hu, rfl⟩ := gated_cases h
  · exact .ignored
  · cases hc
  · cases hu
    exact .answered v fun resp => (hexec resp).trans (gated_done _ _ hfault)

theorem rdCsr_readOutcome {a : Nat} {s t : State} (h : exec (.rdCsr a) s = .next t) :
    ReadOutcome (.rdCsr a) s t := by
  cases hread : csrRead s a with
  | none => exact readOutcome_of_gated_raise ((exec_rdCsr_invalid hread).symm.trans h)
  | some v =>
    rw [exec_rdCsr_valid hread] at h
    cases h
    exact .answered v fun resp => exec_rdCsr_valid ((csrRead_respond resp s a).trans hread)

theorem rdPbuf_readOutcome {idx : Nat} {s t : State} (h : exec (.rdPbuf idx) s = .next t) :
    ReadOutcome (.rdPbuf idx) s t := by
  rw [exec_rdPbuf] at h
  by_cases hidx : pbufBytes ≤ idx
  · rw [if_pos hidx] at h
    exact readOutcome_of_gated_raise h
  · rw [if_neg hidx] at h
    refine readOutcome_of_gated_done (fun resp => ?_) h
    rw [exec_rdPbuf, if_neg hidx]
    rfl

theorem rdEc_readOutcome {idx : Nat} {s t : State} (h : exec (.rdEc idx) s = .next t) :
    ReadOutcome (.rdEc idx) s t := by
  rw [exec_rdEc] at h
  by_cases hidx : s.n.val ≤ idx
  · rw [if_pos hidx] at h
    exact readOutcome_of_gated_raise h
  · rw [if_neg hidx] at h
    refine readOutcome_of_gated_done (fun resp => ?_) h
    rw [exec_rdEc, if_neg (show ¬ (respond resp s).n.val ≤ idx from hidx)]
    rfl

theorem exec_readOutcome {i : Instr} {s t : State}
    (hi : (∃ a, i = .rdCsr a) ∨ (∃ a, i = .rdPbuf a) ∨ ∃ a, i = .rdEc a)
    (h : exec i s = .next t) : ReadOutcome i s t := by
  obtain ⟨a, rfl⟩ | ⟨idx, rfl⟩ | ⟨idx, rfl⟩ := hi
  · exact rdCsr_readOutcome h
  · exact rdPbuf_readOutcome h
  · exact rdEc_readOutcome h

/-! ### What follows from the outcome -/

theorem SameTuple.respond {s t : State} (h : SameTuple s t) (resp : Response) :
    SameTuple s (respond resp t) := by
  obtain ⟨⟨hfault, hcause, hfcmd⟩, ⟨hcstate, hpos, hbegin⟩,
    ⟨⟨hversion, hecl⟩, ⟨hmode, hrem, hacc, haccN⟩, hlen, hbuf⟩, ⟨hn, hr⟩⟩ := h
  exact ⟨⟨hfault, hcause, hfcmd⟩, ⟨hcstate, hpos, hbegin⟩,
    ⟨⟨hversion, hecl⟩, ⟨hmode, hrem, hacc, haccN⟩, hlen, hbuf⟩, ⟨hn, hr⟩⟩

/-- A command has one response, so an answer settles which word it was. -/
theorem Answered.word_eq {resp : Response} {s t : State} {v : Word} (h : Answered resp s t)
    (hv : t.resps = .word v :: s.resps) : resp = .word v :=
  (List.cons.inj (h.resps.symm.trans hv)).1

theorem ReadOutcome.sameTuple_or_raised {i : Instr} {s t : State} (h : ReadOutcome i s t) :
    SameTuple s t ∨ Raised .illegalOperand (encode i) s t := by
  cases h with
  | ignored => exact .inl (respond_sameTuple _ s)
  | raised => exact .inr (raiseFault_raised _ _ s)
  | answered v => exact .inl (respond_sameTuple _ s)

theorem ReadOutcome.repeats {i : Instr} {s t u : State} {v : Word} (h : ReadOutcome i s t)
    (hv : t.resps = .word v :: s.resps) (hu : exec i t = .next u) :
    SameTuple s u ∧ u.resps = .word v :: t.resps := by
  cases h with
  | ignored => cases (respond_answered .none s).word_eq hv
  | raised => cases (raiseFault_raised .illegalOperand (encode i) s).answered.word_eq hv
  | answered w again =>
    cases (respond_answered (.word w) s).word_eq hv
    cases (again (.word v)).symm.trans hu
    exact ⟨(respond_sameTuple _ s).respond _, rfl⟩

/-- Settles O52: both halves follow from the outcome of the first read. -/
theorem readsHaveNoSideEffects : Obligations.ReadsHaveNoSideEffects := by
  intro i s t hi h
  have houtcome := exec_readOutcome hi h
  exact ⟨houtcome.sameTuple_or_raised, fun _ _ hv hu => houtcome.repeats hv hu⟩

end Sys2Proof.Machine
end

section
/-! PROOFS. The responses (30_encoding.md R75). The port layout field by field; then the one response of
each command, said once as `ResponseOf`: nothing, the word of a reading command, or the segment that a
classifier command closes. -/

namespace Sys2Proof.Machine

/-! ### The port layout -/

theorem respData_word_toNat (v : Word) : (respData (.word v)).toNat = v.toNat :=
  (BitVec.toNat_ofNat _ _).trans (Nat.mod_eq_of_lt (by omega))

theorem respData_seg_toNat (m : Mode) (first last : BitVec 16) :
    (respData (.seg m first last)).toNat =
      modeCode m * 2 ^ 32 + first.toNat * 2 ^ 16 + last.toNat := by
  have hmode := modeCode_lt m
  exact (BitVec.toNat_ofNat _ _).trans (Nat.mod_eq_of_lt (by omega))

/-- A field of a bit vector, by its value. -/
theorem extractLsb'_eq_of_toNat {w lo len : Nat} {x : BitVec w} {y : BitVec len}
    (h : x.toNat / 2 ^ lo % 2 ^ len = y.toNat) : x.extractLsb' lo len = y :=
  BitVec.eq_of_toNat_eq (by rw [BitVec.extractLsb'_toNat, Nat.shiftRight_eq_div_pow, h])

theorem respData_word_fields (v : Word) :
    (respData (.word v)).extractLsb' 0 32 = v ∧ (respData (.word v)).extractLsb' 32 2 = 0 := by
  have hv := respData_word_toNat v
  constructor <;> apply extractLsb'_eq_of_toNat
  · omega
  · rw [hv, Nat.div_eq_of_lt v.isLt]
    rfl

theorem respData_seg_fields (m : Mode) (first last : BitVec 16) :
    (respData (.seg m first last)).extractLsb' 0 16 = last ∧
    (respData (.seg m first last)).extractLsb' 16 16 = first ∧
    (respData (.seg m first last)).extractLsb' 32 2 = BitVec.ofNat 2 (modeCode m) := by
  have hseg := respData_seg_toNat m first last
  refine ⟨?_, ?_, ?_⟩ <;> apply extractLsb'_eq_of_toNat
  · omega
  · omega
  · rw [BitVec.toNat_ofNat]
    omega

theorem respKind_ne_three (resp : Response) : respKind resp ≠ 3 := by
  cases resp <;> simp [respKind]

/-! ### The one response of each command -/

/-- The response a command may give: none, a word from a reading command, or the segment in progress
from a classifier command that closes it. The last two leave FAULT as it was. -/
inductive ResponseOf (i : Instr) (s t : State) : Response → Prop
  | none : ResponseOf i s t .none
  | word (v : Word) (reads : (∃ a, i = .rdCsr a) ∨ (∃ a, i = .rdPbuf a) ∨ ∃ a, i = .rdEc a)
      (fault : t.fault = s.fault) : ResponseOf i s t (.word v)
  | seg (m : Mode) (closes : (∃ b, i = .clsByte b) ∨ i = .clsEnd) (cstate : t.cstate ≠ s.cstate)
      (mode : modeOf s.cstate = some m) (fault : t.fault = s.fault) :
      ResponseOf i s t (.seg m s.segBegin s.pos)

/-- The command's one new response is one it may give. -/
def Responds (i : Instr) (s t : State) : Prop :=
  ∃ resp, t.resps = resp :: s.resps ∧ ResponseOf i s t resp

/-- What the pseudocode of a command comes to delivers no response itself, and names one the command
may give. -/
def Effect.Responds (i : Instr) (s : State) : Effect → Prop
  | .raise _ => True
  | .done u resp => u.resps = s.resps ∧ ResponseOf i s u resp

theorem ResponseOf.respond {i : Instr} {s u : State} {resp : Response} (h : ResponseOf i s u resp) :
    ResponseOf i s (respond resp u) resp := by
  cases h with
  | none => exact .none
  | word v reads fault => exact .word v reads fault
  | seg m closes cstate mode fault => exact .seg m closes cstate mode fault

theorem gated_responds {i : Instr} {s t : State} {e : Effect} (he : e.Responds i s)
    (h : gated i s e = .next t) : Responds i s t := by
  obtain ⟨-, rfl⟩ | ⟨-, c, -, rfl⟩ | ⟨-, u, resp, rfl, rfl⟩ := gated_cases h
  · exact ⟨.none, rfl, .none⟩
  · exact ⟨.none, rfl, .none⟩
  · obtain ⟨hresps, hresp⟩ := he
    exact ⟨resp, congrArg (resp :: ·) hresps, hresp.respond⟩

/-! ### The classifier closes the segment in progress -/

theorem clsByteEffect_responds (b : Byte) (s : State) :
    (clsByteEffect b s).Responds (.clsByte b) s := by
  unfold clsByteEffect
  split
  · trivial
  · cases hmode : modeOf s.cstate with
    | none => exact ⟨rfl, .none⟩
    | some m =>
      by_cases hsame : s.cstate = stateOf (classOf b)
      · simp only [hsame, if_true]
        exact ⟨rfl, .none⟩
      · simp only [hsame, if_false]
        exact ⟨rfl, .seg m (.inl ⟨b, rfl⟩) (Ne.symm hsame) hmode rfl⟩

theorem clsEndEffect_responds (s : State) : (clsEndEffect s).Responds .clsEnd s := by
  unfold clsEndEffect
  split
  case h_1 => exact ⟨rfl, .none⟩
  case h_2 m hmode =>
    have hrun : ClsState.init ≠ s.cstate := by
      intro hinit
      rw [← hinit] at hmode
      cases hmode
    exact ⟨rfl, .seg m (.inr rfl) hrun hmode rfl⟩

/-! ### The packer and the divider answer nothing -/

theorem pckInitEffect_responds (ver : Nat) (ec : EcLevel) (s : State) :
    (pckInitEffect ver ec s).Responds (.pckInit ver ec) s := by
  unfold pckInitEffect
  split
  · trivial
  · exact ⟨rfl, .none⟩

theorem pckBitsEffect_responds (cfg : Config) (n value : Nat) (s : State) :
    (pckBitsEffect cfg n value s).Responds (.pckBits n value) s := by
  unfold pckBitsEffect
  split
  · trivial
  split
  · trivial
  split
  · trivial
  split
  · trivial
  · exact ⟨rfl, .none⟩

theorem pckSegEffect_responds (cfg : Config) (mode count : Nat) (s : State) :
    (pckSegEffect cfg mode count s).Responds (.pckSeg mode count) s := by
  unfold pckSegEffect
  split
  · trivial
  split
  · trivial
  split
  · trivial
  dsimp only
  split
  · trivial
  split
  · trivial
  · exact ⟨rfl, .none⟩

theorem pckDataEffect_responds (cfg : Config) (b : Byte) (s : State) :
    (pckDataEffect cfg b s).Responds (.pckData b) s := by
  unfold pckDataEffect
  split
  · trivial
  split
  · trivial
  dsimp only
  split
  · trivial
  · split
    · trivial
    · exact ⟨rfl, .none⟩
  · exact ⟨rfl, .none⟩

theorem pckTermEffect_responds (cfg : Config) (s : State) :
    (pckTermEffect cfg s).Responds .pckTerm s := by
  unfold pckTermEffect
  split
  · trivial
  split
  · trivial
  split
  · trivial
  · exact ⟨terminate_resps _ s, .none⟩

theorem rseStartEffect_responds (n : Nat) (s : State) :
    (rseStartEffect n s).Responds (.rseStart n) s := by
  unfold rseStartEffect
  split
  · trivial
  · exact ⟨rfl, .none⟩

theorem rseDataEffect_responds (b : Byte) (s : State) :
    (rseDataEffect b s).Responds (.rseData b) s := by
  unfold rseDataEffect
  split
  · trivial
  · exact ⟨rfl, .none⟩

/-! ### Every command -/

theorem ReadOutcome.responds {i : Instr} {s t : State}
    (hi : (∃ a, i = .rdCsr a) ∨ (∃ a, i = .rdPbuf a) ∨ ∃ a, i = .rdEc a)
    (h : ReadOutcome i s t) : Responds i s t := by
  cases h with
  | ignored => exact ⟨.none, rfl, .none⟩
  | raised => exact ⟨.none, rfl, .none⟩
  | answered v => exact ⟨.word v, rfl, .word v hi rfl⟩

theorem exec_responds {i : Instr} {s t : State} (h : exec i s = .next t) : Responds i s t := by
  cases i with
  | nop => exact gated_responds (e := .done s .none) ⟨rfl, .none⟩ h
  | rst =>
    cases h
    exact ⟨.none, rfl, .none⟩
  | rdCsr a => exact (rdCsr_readOutcome h).responds (.inl ⟨a, rfl⟩)
  | clsClr => exact gated_responds (e := .done (clsClear s) .none) ⟨rfl, .none⟩ h
  | clsByte b => exact gated_responds (clsByteEffect_responds b s) h
  | clsEnd => exact gated_responds (clsEndEffect_responds s) h
  | pckInit ver ec => exact gated_responds (pckInitEffect_responds ver ec s) h
  | pckBits n value => exact gated_responds (pckBitsEffect_responds defaultConfig n value s) h
  | pckSeg mode count => exact gated_responds (pckSegEffect_responds defaultConfig mode count s) h
  | pckData b => exact gated_responds (pckDataEffect_responds defaultConfig b s) h
  | pckTerm => exact gated_responds (pckTermEffect_responds defaultConfig s) h
  | rdPbuf idx => exact (rdPbuf_readOutcome h).responds (.inr (.inl ⟨idx, rfl⟩))
  | rseStart n => exact gated_responds (rseStartEffect_responds n s) h
  | rseData b => exact gated_responds (rseDataEffect_responds b s) h
  | rdEc idx => exact (rdEc_readOutcome h).responds (.inr (.inr ⟨idx, rfl⟩))

/-- While FAULT = 1 only RST and RD.CSR are not ignored (60_exceptions.md R215). -/
theorem exec_of_faulted {i : Instr} {s : State} (hfault : s.fault = true) (hrst : i ≠ .rst)
    (hcsr : ∀ a, i ≠ .rdCsr a) : exec i s = .next (respond .none s) := by
  cases i with
  | rst => exact absurd rfl hrst
  | rdCsr a => exact absurd rfl (hcsr a)
  | nop => exact (exec_nop s).trans (gated_ignored _ hfault)
  | clsClr => exact (exec_clsClr s).trans (gated_ignored _ hfault)
  | _ => exact gated_ignored _ hfault

theorem response_of_faulted {i : Instr} {s t : State} {resp : Response} (hfault : s.fault = true)
    (h : exec i s = .next t) (hresp : t.resps = resp :: s.resps) :
    resp = .none ∨ ∃ a v, i = .rdCsr a ∧ resp = .word v := by
  by_cases hcsr : ∃ a, i = .rdCsr a
  · obtain ⟨a, rfl⟩ := hcsr
    cases rdCsr_readOutcome h with
    | ignored => exact .inl (List.cons.inj hresp).1.symm
    | raised => exact .inl (List.cons.inj hresp).1.symm
    | answered v => exact .inr ⟨a, v, rfl, (List.cons.inj hresp).1.symm⟩
  · by_cases hrst : i = .rst
    · subst hrst
      cases h
      exact .inl (List.cons.inj hresp).1.symm
    · rw [exec_of_faulted hfault hrst fun a ha => hcsr ⟨a, ha⟩] at h
      cases h
      exact .inl (List.cons.inj hresp).1.symm

/-- Settles O8: the layout by the values of the fields, who may answer what by the one response of each
command. -/
theorem responsePortLayout : Obligations.ResponsePortLayout := by
  refine ⟨⟨rfl, rfl⟩, fun v => ⟨rfl, respData_word_fields v⟩,
    fun m first last => ⟨rfl, respData_seg_fields m first last⟩, respKind_ne_three, ?_⟩
  intro i s t resp h hresps
  obtain ⟨resp', hresps', hof⟩ := exec_responds h
  obtain rfl : resp' = resp := (List.cons.inj (hresps'.symm.trans hresps)).1
  refine ⟨?word, ?seg, ?raised, fun hfault => response_of_faulted hfault h hresps⟩
  case word =>
    rintro v rfl
    cases hof with
    | word _ reads => exact reads
  case seg =>
    rintro m first last rfl
    cases hof with
    | seg _ closes cstate mode => exact ⟨closes, cstate, mode, rfl, rfl⟩
  case raised =>
    intro hs ht
    cases hof with
    | none => rfl
    | word _ _ fault => simp [hs, ht] at fault
    | seg _ _ _ _ fault => simp [hs, ht] at fault

end Sys2Proof.Machine
end

section
/-! PROOFS. Illegal words (30_encoding.md R73). A must-be-zero field is 0 exactly when the word has no bit
in the field's mask, so the decoder and the table of formats reject the same words; the word of a
command is legal because it matches its row of R78; and one reachable state tells every word but NOP's
from a no-op. -/

namespace Sys2Proof.Machine

/-! ### Fields and masks -/

theorem bits_testBit (w : Word) (hi lo j : Nat) :
    (bits w hi lo).testBit j = (decide (j < hi + 1 - lo) && w.getLsbD (j + lo)) := by
  rw [bits, Nat.testBit_mod_two_pow, Nat.testBit_div_two_pow, BitVec.testBit_toNat]

theorem bits_eq_zero_iff (w : Word) (hi lo : Nat) :
    bits w hi lo = 0 ↔ ∀ k, lo ≤ k → k ≤ hi → w.getLsbD k = false := by
  constructor
  · intro h k hlo hk
    have hbit := bits_testBit w hi lo (k - lo)
    rw [h, Nat.zero_testBit, decide_eq_true (by omega), Bool.true_and, Nat.sub_add_cancel hlo] at hbit
    exact hbit.symm
  · intro h
    refine Nat.zero_of_testBit_eq_false fun j => ?_
    rw [bits_testBit]
    by_cases hj : j < hi + 1 - lo
    · rw [h (j + lo) (by omega) (by omega), Bool.and_false]
    · rw [decide_eq_false hj, Bool.false_and]

/-- The word whose bits `hi` to `lo` are 1 and whose other bits are 0. -/
def fieldMask (hi lo : Nat) : Word := (BitVec.allOnes (hi + 1 - lo)).setWidth 32 <<< lo

theorem fieldMask_getLsbD {hi lo k : Nat} (hhi : hi < 32) :
    (fieldMask hi lo).getLsbD k = decide (lo ≤ k ∧ k ≤ hi) := by
  rw [Bool.eq_iff_iff]
  simp only [fieldMask, BitVec.getLsbD_shiftLeft, BitVec.getLsbD_setWidth, BitVec.getLsbD_allOnes,
    Bool.and_eq_true, decide_eq_true_eq, Bool.not_eq_true', decide_eq_false_iff_not]
  omega

theorem and_fieldMask_eq_zero_iff (w : Word) {hi lo : Nat} (hhi : hi < 32) :
    w &&& fieldMask hi lo = 0#32 ↔ bits w hi lo = 0 := by
  rw [bits_eq_zero_iff]
  constructor
  · intro h k hlo hk
    have hbit := congrArg (fun x : Word => x.getLsbD k) h
    simpa [fieldMask_getLsbD hhi, hlo, hk] using hbit
  · intro h
    apply BitVec.eq_of_getLsbD_eq
    intro k _
    rw [BitVec.getLsbD_and, fieldMask_getLsbD hhi, BitVec.getLsbD_zero]
    by_cases hk : lo ≤ k ∧ k ≤ hi
    · rw [h k hk.1 hk.2, Bool.false_and]
    · rw [decide_eq_false hk, Bool.and_false]

/-- A mask that covers a field keeps the field. -/
theorem bits_and_of_covers {w m : Word} {hi lo : Nat} (hhi : hi < 32)
    (hm : m &&& fieldMask hi lo = fieldMask hi lo) : bits (w &&& m) hi lo = bits w hi lo := by
  refine Nat.eq_of_testBit_eq fun j => ?_
  rw [bits_testBit, bits_testBit, BitVec.getLsbD_and]
  by_cases hj : j < hi + 1 - lo
  · have hbit := congrArg (fun x : Word => x.getLsbD (j + lo)) hm
    have hin : lo ≤ j + lo ∧ j + lo ≤ hi := by omega
    simp only [BitVec.getLsbD_and, fieldMask_getLsbD hhi, decide_eq_true hin, Bool.and_true] at hbit
    rw [hbit, Bool.and_true]
  · rw [decide_eq_false hj, Bool.false_and, Bool.false_and]

/-! ### The decoder and the table of formats reject the same words -/

theorem takeOperands_error_iff (zero : Bool) (i : Instr) :
    (∃ e, takeOperands zero i = .error e) ↔ zero = false := by
  cases zero with
  | true => simp [takeOperands]
  | false => simp [takeOperands]

/-- No opcode stands twice in the table of R72. -/
theorem formatTable_opcodes_distinct :
    ∀ x ∈ formatTable, ∀ y ∈ formatTable, x.1 = y.1 → x = y := by decide

theorem isIllegalWord_iff_of_opcode {w : Word} {op : Nat} {mask : Word}
    (hmem : (op, mask) ∈ formatTable) (hop : bits w 31 24 = op) :
    IsIllegalWord w ↔ w &&& mask ≠ 0#32 := by
  constructor
  · intro h
    exact h _ hmem hop.symm
  · intro h entry hentry hw
    rw [formatTable_opcodes_distinct entry hentry _ hmem (hw.trans hop)]
    exact h

/-- A format with one must-be-zero field. -/
theorem illegal_iff_of_field {w : Word} {op hi lo : Nat} {i : Instr} (hop : bits w 31 24 = op)
    (hmem : (op, fieldMask hi lo) ∈ formatTable) (hhi : hi < 32) :
    (∃ e, takeOperands (bits w hi lo == 0) i = .error e) ↔ IsIllegalWord w := by
  rw [takeOperands_error_iff, isIllegalWord_iff_of_opcode hmem hop, Ne,
    and_fieldMask_eq_zero_iff w hhi, beq_eq_false_iff_ne]

/-- Format V has two must-be-zero fields. -/
theorem illegal_iff_of_formatV {w : Word} {i : Instr} (hop : bits w 31 24 = 0x20) :
    (∃ e, takeOperands (bits w 23 16 == 0 && bits w 7 2 == 0) i = .error e) ↔ IsIllegalWord w := by
  have hmem : (0x20, fieldMask 23 16 ||| fieldMask 7 2) ∈ formatTable := by decide
  rw [takeOperands_error_iff, isIllegalWord_iff_of_opcode hmem hop, BitVec.and_or_distrib_left, Ne,
    BitVec.or_eq_zero_iff, and_fieldMask_eq_zero_iff w (by decide),
    and_fieldMask_eq_zero_iff w (by decide), Bool.and_eq_false_iff, beq_eq_false_iff_ne,
    beq_eq_false_iff_ne, not_and_or]

theorem decode_error_iff_isIllegalWord (w : Word) :
    (∃ e, decode w = .error e) ↔ IsIllegalWord w := by
  unfold decode
  split
  case h_13 hop => exact illegal_iff_of_formatV hop
  case h_16 =>
    refine iff_of_true ⟨_, rfl⟩ fun entry hentry hop => ?_
    simp only [formatTable, List.mem_cons, List.not_mem_nil, or_false] at hentry
    rcases hentry with rfl | rfl | rfl | rfl | rfl | rfl | rfl | rfl | rfl | rfl | rfl | rfl | rfl |
      rfl | rfl <;> exact absurd hop.symm ‹_›
  all_goals
    rename_i hop
    exact illegal_iff_of_field hop (by decide) (by decide)

/-! ### The word of a command is legal -/

/-- Every row of R78 is a row of R72: its mask covers the opcode and the must-be-zero bits, and its match
has no must-be-zero bit. -/
theorem tableRows_have_format : ∀ row ∈ tableRows, ∃ entry ∈ formatTable,
    entry.1 = bits row.mtch 31 24 ∧ row.mask &&& fieldMask 31 24 = fieldMask 31 24 ∧
    row.mask &&& entry.2 = entry.2 ∧ row.mtch &&& entry.2 = 0#32 := by decide

theorem not_isIllegalWord_of_matches {row : TableRow} {w : Word} (hrow : row ∈ tableRows)
    (h : row.matches w = true) : ¬ IsIllegalWord w := by
  obtain ⟨entry, hentry, hop, hopcode, hzero, hmtch⟩ := tableRows_have_format row hrow
  have hw : w &&& row.mask = row.mtch := eq_of_beq h
  intro hillegal
  refine hillegal entry hentry ?_ ?_
  · rw [hop, ← hw, bits_and_of_covers (by decide) hopcode]
  · rw [← hzero, ← BitVec.and_assoc, hw, hmtch]

theorem rowOf_mem_tableRows (i : Instr) : rowOf i ∈ tableRows := by
  cases i <;> simp [rowOf, tableRows]

theorem rowOf_matches_encode {i : Instr} (h : i.wellFormed = true) :
    (rowOf i).matches (encode i) = true := by
  cases i with
  | nop => exact Laws.MatchesRow.nop h
  | rst => exact Laws.MatchesRow.rst h
  | rdCsr a => exact Laws.MatchesRow.rdCsr a h
  | clsClr => exact Laws.MatchesRow.clsClr h
  | clsByte b => exact Laws.MatchesRow.clsByte b h
  | clsEnd => exact Laws.MatchesRow.clsEnd h
  | pckInit ver ec => exact Laws.MatchesRow.pckInit ver ec h
  | pckBits n value => exact Laws.MatchesRow.pckBits n value h
  | pckSeg mode count => exact Laws.MatchesRow.pckSeg mode count h
  | pckData b => exact Laws.MatchesRow.pckData b h
  | pckTerm => exact Laws.MatchesRow.pckTerm h
  | rdPbuf idx => exact Laws.MatchesRow.rdPbuf idx h
  | rseStart n => exact Laws.MatchesRow.rseStart n h
  | rseData b => exact Laws.MatchesRow.rseData b h
  | rdEc idx => exact Laws.MatchesRow.rdEc idx h

/-! ### Executing an illegal word -/

theorem step_of_isIllegalWord {s : State} {w : Word} {rest : List Input}
    (hinbox : s.inbox = .cmd w :: rest) (hw : IsIllegalWord w) (hfault : s.fault = false) :
    step s = .next (raiseFault .illegalCommand w { s with inbox := rest }) := by
  obtain ⟨e, he⟩ := (decode_error_iff_isIllegalWord w).mpr hw
  rw [step_of_error hinbox he, executeIllegal, if_neg]
  simp [hfault]

/-! ### No word but NOP's is a no-op -/

theorem Ignored.fault_eq {s t : State} (h : Ignored s t) : t.fault = s.fault := h.same.fault.fault

theorem not_ignored_raiseFault {c : Cause} {w : Word} {s : State} (hs : s.fault = false) :
    ¬ Ignored s (raiseFault c w s) := by
  intro h
  have hfault := h.fault_eq
  simp [hs] at hfault

theorem not_ignored_of_pos {s t : State} (h : t.pos ≠ s.pos) : ¬ Ignored s t :=
  fun hi => h hi.same.cls.pos

theorem not_ignored_of_version {s t : State} (h : t.version ≠ s.version) : ¬ Ignored s t :=
  fun hi => h hi.same.pck.target.version

theorem not_ignored_of_n {s t : State} (h : t.n ≠ s.n) : ¬ Ignored s t :=
  fun hi => h hi.same.rse.n

theorem not_ignored_respond_word {v : Word} {s : State} : ¬ Ignored s (respond (.word v) s) := by
  intro h
  cases (List.cons.inj h.answered.resps).1

/-! ### With no target version the appending commands raise a fault -/

theorem pckBitsEffect_raises {cfg : Config} {s : State} (hcap : capacity cfg s = none)
    (n value : Nat) : ∃ c, pckBitsEffect cfg n value s = .raise c := by
  unfold pckBitsEffect
  split
  · exact ⟨_, rfl⟩
  split
  · exact ⟨_, rfl⟩
  · exact ⟨_, by rw [hcap]⟩

theorem pckSegEffect_raises {cfg : Config} {s : State} (hcap : capacity cfg s = none)
    (mode count : Nat) : ∃ c, pckSegEffect cfg mode count s = .raise c := by
  unfold pckSegEffect
  split
  · exact ⟨_, rfl⟩
  split
  · exact ⟨_, rfl⟩
  · exact ⟨_, by rw [hcap]⟩

theorem pckDataEffect_raises {cfg : Config} {s : State} (hcap : capacity cfg s = none)
    (b : Byte) : ∃ c, pckDataEffect cfg b s = .raise c := by
  unfold pckDataEffect
  split
  · exact ⟨_, rfl⟩
  · exact ⟨_, by rw [hcap]⟩

theorem pckTermEffect_raises {cfg : Config} {s : State} (hcap : capacity cfg s = none) :
    ∃ c, pckTermEffect cfg s = .raise c := by
  unfold pckTermEffect
  split
  · exact ⟨_, rfl⟩
  · exact ⟨_, by rw [hcap]⟩

/-- The command has an effect or a response in the state. -/
def Acts (i : Instr) (s : State) : Prop := ∃ t, exec i s = .next t ∧ ¬ Ignored s t

theorem acts_of_raise {i : Instr} {s : State} {e : Effect} (hexec : exec i s = gated i s e)
    (hs : s.fault = false) (he : ∃ c, e = .raise c) : Acts i s := by
  obtain ⟨c, rfl⟩ := he
  exact ⟨_, hexec.trans (gated_raise c hs), not_ignored_raiseFault hs⟩

theorem acts_of_done {i : Instr} {s u : State} {resp : Response} {e : Effect}
    (hexec : exec i s = gated i s e) (hs : s.fault = false) (he : e = .done u resp)
    (hacts : ¬ Ignored s (respond resp u)) : Acts i s := by
  subst he
  exact ⟨_, hexec.trans (gated_done u resp hs), hacts⟩

/-- The state after `RST` and `CLS.BYTE '0'`: one byte is counted, and neither the packer nor the divider
is started. -/
def oneDigit (inbox : List Input) : State :=
  { State.reset with cstate := .numeric, pos := 1#16, inbox := inbox }

theorem oneDigit_reached (inbox : List Input) :
    exec (.clsByte 0x30) { State.reset with inbox := inbox } =
      .next (respond .none (oneDigit inbox)) := rfl

section
variable (inbox : List Input)

theorem oneDigit_pos : (oneDigit inbox).pos = 1#16 := rfl

/-- A command that clears the classifier's position acts. -/
theorem not_ignored_of_pos_zero {t : State} (h : t.pos = 0#16) : ¬ Ignored (oneDigit inbox) t := by
  refine not_ignored_of_pos ?_
  rw [h, oneDigit_pos]
  decide

theorem capacity_oneDigit : capacity defaultConfig (oneDigit inbox) = none := rfl

theorem rdCsr_acts_oneDigit (a : Nat) : Acts (.rdCsr a) (oneDigit inbox) := by
  cases hread : csrRead (oneDigit inbox) a with
  | none => exact acts_of_raise (exec_rdCsr_invalid hread) rfl ⟨_, rfl⟩
  | some v => exact ⟨_, exec_rdCsr_valid hread, not_ignored_respond_word⟩

/-- Whether it counts in the run or closes it, a byte is counted. -/
theorem clsByte_acts_oneDigit (b : Byte) : Acts (.clsByte b) (oneDigit inbox) := by
  have heffect : ∃ u resp, clsByteEffect b (oneDigit inbox) = .done u resp ∧ u.pos = 2#16 := by
    by_cases hrun : ClsState.numeric = stateOf (classOf b)
    · exact ⟨_, _, if_pos hrun, rfl⟩
    · exact ⟨_, _, if_neg hrun, rfl⟩
  obtain ⟨u, resp, he, hpos⟩ := heffect
  refine acts_of_done (exec_clsByte b _) rfl he (not_ignored_of_pos ?_)
  rw [respond_pos, hpos, oneDigit_pos]
  decide

/-- A legal version is not the 0 that stands for none. -/
theorem pckInit_acts_oneDigit (ver : Nat) (ec : EcLevel) :
    Acts (.pckInit ver ec) (oneDigit inbox) := by
  by_cases hver : ver < versionMin ∨ versionMax < ver
  · exact acts_of_raise (exec_pckInit ver ec _) rfl ⟨_, if_pos hver⟩
  · refine acts_of_done (exec_pckInit ver ec _) rfl (if_neg hver) (not_ignored_of_version ?_)
    intro hzero
    have hnat := congrArg BitVec.toNat hzero
    simp only [respond_version, BitVec.toNat_ofNat, oneDigit, State.reset, versionMin,
      versionMax] at hnat hver
    omega

/-- A legal remainder length is not the 0 that stands for none. -/
theorem rseStart_acts_oneDigit (n : Nat) : Acts (.rseStart n) (oneDigit inbox) := by
  by_cases hn : n = 0 ∨ necMax < n
  · exact acts_of_raise (exec_rseStart n _) rfl ⟨_, if_pos hn⟩
  · refine acts_of_done (exec_rseStart n _) rfl (if_neg hn) (not_ignored_of_n ?_)
    intro hzero
    have hnat := congrArg Fin.val hzero
    simp only [respond_n, Fin.val_ofNat, oneDigit, State.reset, necMax, Fin.val_zero] at hnat hn
    omega

theorem rdPbuf_acts_oneDigit (idx : Nat) : Acts (.rdPbuf idx) (oneDigit inbox) := by
  by_cases hidx : pbufBytes ≤ idx
  · exact acts_of_raise (exec_rdPbuf idx _) rfl ⟨_, if_pos hidx⟩
  · exact acts_of_done (exec_rdPbuf idx _) rfl (if_neg hidx) not_ignored_respond_word

theorem acts_oneDigit {i : Instr} (hi : i ≠ .nop) : Acts i (oneDigit inbox) := by
  cases i with
  | nop => exact absurd rfl hi
  | rst => exact ⟨_, exec_rst _, not_ignored_of_pos_zero inbox rfl⟩
  | rdCsr a => exact rdCsr_acts_oneDigit inbox a
  | clsClr => exact ⟨_, rfl, not_ignored_of_pos_zero inbox rfl⟩
  | clsByte b => exact clsByte_acts_oneDigit inbox b
  | clsEnd => exact ⟨_, rfl, not_ignored_of_pos_zero inbox rfl⟩
  | pckInit ver ec => exact pckInit_acts_oneDigit inbox ver ec
  | pckBits n value =>
    exact acts_of_raise (exec_pckBits n value _) rfl
      (pckBitsEffect_raises (capacity_oneDigit inbox) n value)
  | pckSeg mode count =>
    exact acts_of_raise (exec_pckSeg mode count _) rfl
      (pckSegEffect_raises (capacity_oneDigit inbox) mode count)
  | pckData b =>
    exact acts_of_raise (exec_pckData b _) rfl (pckDataEffect_raises (capacity_oneDigit inbox) b)
  | pckTerm =>
    exact acts_of_raise (exec_pckTerm _) rfl (pckTermEffect_raises (capacity_oneDigit inbox))
  | rdPbuf idx => exact rdPbuf_acts_oneDigit inbox idx
  | rseStart n => exact rseStart_acts_oneDigit inbox n
  | rseData b => exact acts_of_raise (exec_rseData b _) rfl ⟨_, rfl⟩
  | rdEc idx => exact acts_of_raise (exec_rdEc idx _) rfl ⟨_, if_pos (Nat.zero_le idx)⟩

end

theorem eq_zero_of_decode_nop {w : Word} (h : decode w = .ok .nop) : w = 0#32 := by
  unfold decode at h
  split at h
  case h_1 hop =>
    have hlow : bits w 23 0 = 0 := eq_of_beq (takeOperands_ok h).1
    apply BitVec.eq_of_toNat_eq
    simp only [bits] at hop hlow
    simp only [BitVec.toNat_ofNat]
    omega
  case h_16 => cases h
  all_goals cases (takeOperands_ok h).2

theorem step_acts_of_ne_zero {w : Word} (hw : w ≠ 0x00000000) :
    ∃ t, step (oneDigit [.cmd w]) = .next t ∧ ¬ Ignored (oneDigit []) t := by
  cases hd : decode w with
  | error e =>
    have hillegal := (decode_error_iff_isIllegalWord w).mp ⟨e, hd⟩
    exact ⟨_, step_of_isIllegalWord rfl hillegal rfl, not_ignored_raiseFault rfl⟩
  | ok i =>
    have hi : i ≠ .nop := by
      rintro rfl
      exact hw (eq_zero_of_decode_nop hd)
    obtain ⟨t, ht, hacts⟩ := acts_oneDigit [] hi
    exact ⟨t, (step_of_ok rfl hd).trans ht, hacts⟩

/-! ### A meaningless operand raises its command's own fault -/

theorem faultsWith_of_raise {c : Cause} {i : Instr} {s : State}
    (hexec : exec i s = gated i s (.raise c)) (hs : s.fault = false) : FaultsWith c i s :=
  ⟨_, hexec.trans (gated_raise c hs), raiseFault_raised c _ s⟩

/-- Settles O12: the no-op clause at the state `oneDigit`, the others by the lemma on each. -/
theorem illegalWordsRaiseIllegalCommand : Obligations.IllegalWordsRaiseIllegalCommand := by
  refine ⟨decode_error_iff_isIllegalWord, rfl, ?executing, ?noNop, ?legal, ?meaningless⟩
  case executing =>
    intro s w rest hinbox hw hs
    exact ⟨_, step_of_isIllegalWord hinbox hw hs, raiseFault_raised _ w _⟩
  case noNop =>
    intro w hw
    obtain ⟨t, ht, hacts⟩ := step_acts_of_ne_zero hw
    exact ⟨oneDigit [.cmd w], t, rfl, rfl, ht, hacts⟩
  case legal =>
    intro i hi
    exact not_isIllegalWord_of_matches (rowOf_mem_tableRows i) (rowOf_matches_encode hi)
  case meaningless =>
    intro s hs
    exact ⟨faultsWith_of_raise (exec_pckSeg 3 0 s) hs, faultsWith_of_raise (exec_pckBits 17 0 s) hs,
      faultsWith_of_raise (exec_pckInit 0 .L s) hs⟩

end Sys2Proof.Machine
end

section
/-! PROOFS. The system commands NOP, RST and RD.CSR (40_system_commands.md). NOP and a valid RD.CSR are a
response and nothing else, whatever FAULT is; a word that misses RST's in a low bit is an illegal word, so
the rule of illegal words applies to it and no reset happens. -/

namespace Sys2Proof.Machine

/-! ### NOP -/

/-- The gate makes no difference to NOP: passing it and being stopped by it come to the same. -/
theorem exec_nop_eq_respond (s : State) : exec .nop s = .next (respond .none s) := by
  rw [exec_nop]
  cases hfault : s.fault with
  | true => exact gated_ignored _ hfault
  | false => exact gated_done s .none hfault

/-- Settles O10. -/
theorem nopRule : Obligations.NopRule := by
  refine ⟨rfl, rfl, fun s => ?_⟩
  exact ⟨_, exec_nop_eq_respond s, respond_sameTuple _ s, respond_answered _ s⟩

/-! ### RST -/

/-- Reset leaves the host's list of responses, so it does not matter which of the two comes first. -/
theorem respond_resetTuple (resp : Response) (s : State) :
    respond resp (resetTuple s) = resetTuple (respond resp s) := rfl

theorem isReset_respond_resetTuple (s : State) : IsReset (respond .none (resetTuple s)) := by
  rw [respond_resetTuple]
  exact resetTuple_isReset _

/-- With opcode 0x01 every low bit must be zero. -/
theorem isIllegalWord_of_rst_nearMiss {w : Word} (hop : bits w 31 24 = 0x01)
    (hlow : bits w 23 0 ≠ 0) : IsIllegalWord w := by
  have hmem : (0x01, fieldMask 23 0) ∈ formatTable := by decide
  rw [isIllegalWord_iff_of_opcode hmem hop, Ne, and_fieldMask_eq_zero_iff w (by decide)]
  exact hlow

/-- While FAULT = 1 an illegal word is ignored (60_exceptions.md R215). -/
theorem step_of_isIllegalWord_of_faulted {s : State} {w : Word} {rest : List Input}
    (hinbox : s.inbox = .cmd w :: rest) (hw : IsIllegalWord w) (hfault : s.fault = true) :
    step s = .next (respond .none { s with inbox := rest }) := by
  obtain ⟨e, he⟩ := (decode_error_iff_isIllegalWord w).mpr hw
  rw [step_of_error hinbox he, executeIllegal, if_pos hfault]

/-- Settles O11: a near miss of RST's word is an illegal word. -/
theorem rstRule : Obligations.RstRule := by
  refine ⟨rfl, fun s => ⟨_, exec_rst s, isReset_respond_resetTuple s, rfl, rfl⟩, ?nearMiss⟩
  case nearMiss =>
    intro s w rest hinbox hop hlow
    have hw := isIllegalWord_of_rst_nearMiss hop hlow
    constructor
    · intro hfault
      exact ⟨_, step_of_isIllegalWord hinbox hw hfault, raiseFault_raised _ w _⟩
    · intro hfault
      exact ⟨_, step_of_isIllegalWord_of_faulted hinbox hw hfault, respond_ignored _⟩

/-! ### RD.CSR -/

/-- Settles O18: the register is there or not by its address alone, and only where it is not does FAULT
matter. -/
theorem rdCsrRule : Obligations.RdCsrRule := by
  intro a s _
  refine ⟨rfl, ?valid, ?invalid, ?faulted⟩
  case valid =>
    intro ha
    obtain ⟨v, hread⟩ := csrRead_of_lt (s := s) ha
    exact ⟨_, v, exec_rdCsr_valid hread, hread, respond_sameTuple _ s, respond_answered _ s⟩
  case invalid =>
    intro ha hfault
    exact faultsWith_of_raise (exec_rdCsr_invalid (csrRead_of_gt ha)) hfault
  case faulted =>
    intro ha hfault
    have hgate := exec_rdCsr_invalid (csrRead_of_gt (s := s) ha)
    exact ⟨_, hgate.trans (gated_ignored _ hfault), respond_ignored s⟩

end Sys2Proof.Machine
end

section
/-! PROOFS. The mode classifier (41_classifier.md). The classes of R110 as the sets of bytes they are, and
the capable bytes as unions of them; then the three commands. Each writes the CLS group and nothing else,
said once as `setCls`: R113 and R115 write it with `clsClear`, and what R114 writes and answers is said
once, as `ByteOutcome`. -/

namespace Sys2Proof.Machine

/-! ### The exclusive classes -/

/-- The codes of the nine Alphanumeric symbols, in the order of their values (42_packer.md R133). -/
def symbolCodes : List Nat := [0x20, 0x24, 0x25, 0x2A, 0x2B, 0x2D, 0x2E, 0x2F, 0x3A]

theorem symbolValue_isSome_iff (v : Nat) : (symbolValue v).isSome = true ↔ v ∈ symbolCodes := by
  unfold symbolValue
  split <;> simp_all [symbolCodes]

theorem mem_symbolCodes_iff (b : Byte) :
    b.toNat ∈ symbolCodes ↔ b ∈ ([0x20, 0x24, 0x25, 0x2A, 0x2B, 0x2D, 0x2E, 0x2F, 0x3A] : List Byte) := by
  simp [symbolCodes, ← BitVec.toNat_inj]

/-- No symbol is a digit. -/
theorem not_digit_of_mem_symbolCodes {v : Nat} (h : v ∈ symbolCodes) : ¬ (0x30 ≤ v ∧ v ≤ 0x39) := by
  simp only [symbolCodes, List.mem_cons, List.not_mem_nil, or_false] at h
  omega

theorem classOf_eq_numeric_iff (b : Byte) :
    classOf b = .numeric ↔ 0x30 ≤ b.toNat ∧ b.toNat ≤ 0x39 := by
  unfold classOf
  split_ifs with hdigit
  · exact iff_of_true rfl hdigit
  all_goals exact iff_of_false nofun hdigit

theorem classOf_eq_alpha_iff (b : Byte) :
    classOf b = .alpha ↔ (0x41 ≤ b.toNat ∧ b.toNat ≤ 0x5A) ∨ b.toNat ∈ symbolCodes := by
  unfold classOf
  split_ifs with hdigit hletter hsymbol
  · have hsymbol := mt not_digit_of_mem_symbolCodes (not_not.mpr hdigit)
    simp only [hsymbol, or_false, false_iff]
    omega
  · exact iff_of_true rfl (.inl hletter)
  · exact iff_of_true rfl (.inr hsymbol)
  · exact iff_of_false nofun (not_or.mpr ⟨hletter, hsymbol⟩)

theorem validIn_numeric_iff (b : Byte) : validIn .numeric b = true ↔ classOf b = .numeric := by
  rw [classOf_eq_numeric_iff, validIn, decide_eq_true_iff]

/-- The Alphanumeric-capable bytes are the digits and the bytes of class Alpha. -/
theorem validIn_alphanumeric_iff (b : Byte) :
    validIn .alphanumeric b = true ↔ classOf b = .numeric ∨ classOf b = .alpha := by
  rw [classOf_eq_numeric_iff, classOf_eq_alpha_iff, ← symbolValue_isSome_iff, validIn, alnumValue]
  split_ifs with hdigit hletter
  · exact iff_of_true rfl (.inl hdigit)
  · exact iff_of_true rfl (.inr (.inl hletter))
  · simp only [hdigit, hletter, false_or]

/-- R110's counts: 10 Numeric, 35 Alpha and 211 Byte. -/
theorem classOf_counts :
    [CharClass.numeric, .alpha, .byte].map (fun k =>
      ((List.range 256).filter fun v => classOf (BitVec.ofNat 8 v) = k).length) = [10, 35, 211] := by
  rfl

/-- Settles O19: a capable byte is one of the class or of a lower one. -/
theorem exclusiveClasses : Obligations.ExclusiveClasses := by
  refine ⟨classOf_eq_numeric_iff, fun b => ?alpha, fun b => (validIn_numeric_iff b).symm,
    fun b => ?lowestAlpha, fun b => ?lowestByte, fun b => ?capable, classOf_counts⟩
  case alpha => rw [classOf_eq_alpha_iff, mem_symbolCodes_iff]
  case capable =>
    rw [validIn_numeric_iff, validIn_alphanumeric_iff]
    exact .inl
  all_goals
    simp only [← Bool.not_eq_true, validIn_numeric_iff, validIn_alphanumeric_iff]
    cases classOf b <;> decide

/-! ### Writing the CLS group -/

/-- The three CLS registers are written, and no other. -/
def setCls (c : ClsState) (pos segBegin : BitVec 16) (s : State) : State :=
  { s with cstate := c, pos := pos, segBegin := segBegin }

theorem clsClear_eq_setCls (s : State) : clsClear s = setCls .init 0#16 0#16 s := rfl

theorem setCls_frame (resp : Response) (c : ClsState) (pos segBegin : BitVec 16) (s : State) :
    SameFault s (respond resp (setCls c pos segBegin s)) ∧
    SamePck s (respond resp (setCls c pos segBegin s)) ∧
    SameRse s (respond resp (setCls c pos segBegin s)) :=
  ⟨⟨rfl, rfl, rfl⟩, ⟨⟨rfl, rfl⟩, ⟨rfl, rfl, rfl, rfl⟩, rfl, fun _ => rfl⟩, ⟨rfl, rfl⟩⟩

theorem setCls_answered (resp : Response) (c : ClsState) (pos segBegin : BitVec 16) (s : State) :
    Answered resp s (respond resp (setCls c pos segBegin s)) := ⟨rfl, rfl⟩

theorem isIgnored_of_faulted {i : Instr} {s : State} (hfault : s.fault = true) (hrst : i ≠ .rst)
    (hcsr : ∀ a, i ≠ .rdCsr a) : IsIgnored i s :=
  ⟨_, exec_of_faulted hfault hrst hcsr, respond_ignored s⟩

theorem modeOf_of_ne_init {c : ClsState} (h : c ≠ .init) : ∃ m, modeOf c = some m := by
  cases c with
  | init => exact absurd rfl h
  | numeric => exact ⟨.numeric, rfl⟩
  | alpha => exact ⟨.alphanumeric, rfl⟩
  | byte => exact ⟨.byte, rfl⟩

/-! ### CLS.CLR -/

/-- Settles O21. -/
theorem clsClrRule : Obligations.ClsClrRule := by
  refine ⟨rfl, fun s hfault => isIgnored_of_faulted hfault nofun nofun, fun s hfault => ?_⟩
  have hexec := (exec_clsClr s).trans (gated_done _ _ hfault)
  rw [clsClear_eq_setCls] at hexec
  obtain ⟨hsameFault, hsamePck, hsameRse⟩ := setCls_frame .none .init 0#16 0#16 s
  exact ⟨_, hexec, rfl, rfl, rfl, hsameFault, hsamePck, hsameRse, setCls_answered ..⟩

/-! ### CLS.END -/

/-- In every state CLS.END clears the classifier; the state decides only whether a segment is emitted. -/
theorem clsEndEffect_eq (s : State) :
    clsEndEffect s = .done (clsClear s) (emission s (modeOf s.cstate)) := by
  unfold clsEndEffect
  cases modeOf s.cstate with
  | none => rfl
  | some m => rfl

/-- Settles O23. -/
theorem clsEndRule : Obligations.ClsEndRule := by
  refine ⟨rfl, fun s hfault => isIgnored_of_faulted hfault nofun nofun, fun s hfault => ?_⟩
  have hexec : exec .clsEnd s =
      .next (respond (emission s (modeOf s.cstate)) (setCls .init 0#16 0#16 s)) := by
    rw [exec_clsEnd, clsEndEffect_eq, gated_done _ _ hfault, clsClear_eq_setCls]
  have hanswered := setCls_answered (emission s (modeOf s.cstate)) .init 0#16 0#16 s
  refine ⟨_, hexec, rfl, rfl, rfl, ?fromInit, ?inRun, setCls_frame ..⟩
  case fromInit =>
    intro hinit
    rwa [hinit] at hanswered ⊢
  case inRun =>
    intro hrun
    obtain ⟨m, hm⟩ := modeOf_of_ne_init hrun
    rw [hm] at hanswered ⊢
    exact ⟨m, rfl, hanswered⟩

/-! ### CLS.BYTE -/

/-- What a counted byte does beside counting: it starts a run, it is one more byte of the run, or it
closes the run and starts the next. The indices are the new BEGIN and the response. -/
inductive ByteOutcome (b : Byte) (s : State) : BitVec 16 → Response → Prop
  | starts (init : s.cstate = .init) : ByteOutcome b s s.pos .none
  | counts (same : s.cstate = stateOf (classOf b)) : ByteOutcome b s s.segBegin .none
  | closes (m : Mode) (mode : modeOf s.cstate = some m) (other : s.cstate ≠ stateOf (classOf b)) :
      ByteOutcome b s s.pos (.seg m s.segBegin s.pos)

theorem stateOf_ne_init (c : CharClass) : stateOf c ≠ .init := by cases c <;> decide

theorem clsByteEffect_overflow {b : Byte} {s : State} (h : s.pos.toNat = 65535) :
    clsByteEffect b s = .raise .counterOverflow := if_pos h

theorem clsByteEffect_counted {b : Byte} {s : State} (h : s.pos.toNat < 65535) :
    ∃ segBegin resp, ByteOutcome b s segBegin resp ∧
      clsByteEffect b s = .done
        (setCls (stateOf (classOf b)) (BitVec.ofNat 16 (s.pos.toNat + 1)) segBegin s) resp := by
  unfold clsByteEffect
  rw [if_neg h.ne]
  by_cases hinit : s.cstate = .init
  · exact ⟨_, _, .starts hinit, by rw [hinit]; rfl⟩
  · obtain ⟨m, hm⟩ := modeOf_of_ne_init hinit
    by_cases hsame : s.cstate = stateOf (classOf b)
    · exact ⟨_, _, .counts hsame, by rw [hm, ← hsame]; exact if_pos rfl⟩
    · exact ⟨_, _, .closes m hm hsame, by rw [hm]; exact if_neg hsame⟩

/-- Settles O22: the three ways a byte counts exclude each other. -/
theorem clsByteRule : Obligations.ClsByteRule := by
  intro b s
  refine ⟨rfl, fun hfault => isIgnored_of_faulted hfault nofun nofun, ?overflow, ?counted⟩
  case overflow =>
    intro hfault hpos
    refine faultsWith_of_raise ?_ hfault
    rw [exec_clsByte, clsByteEffect_overflow hpos]
  case counted =>
    intro hfault hpos
    obtain ⟨segBegin, resp, houtcome, heffect⟩ := clsByteEffect_counted (b := b) hpos
    have hexec : exec (.clsByte b) s = .next (respond resp
        (setCls (stateOf (classOf b)) (BitVec.ofNat 16 (s.pos.toNat + 1)) segBegin s)) := by
      rw [exec_clsByte, heffect, gated_done _ _ hfault]
    have hcount : (BitVec.ofNat 16 (s.pos.toNat + 1)).toNat = s.pos.toNat + 1 :=
      Nat.mod_eq_of_lt (by omega)
    refine ⟨_, hexec, rfl, hcount, ?starts, ?counts, ?closes, setCls_frame ..⟩
    case starts =>
      intro hinit
      cases houtcome with
      | starts => exact ⟨rfl, setCls_answered ..⟩
      | counts hsame => exact absurd (hsame.symm.trans hinit) (stateOf_ne_init _)
      | closes m hm => simp [hinit, modeOf] at hm
    case counts =>
      intro hsame
      cases houtcome with
      | starts hinit => exact absurd (hsame.symm.trans hinit) (stateOf_ne_init _)
      | counts => exact ⟨rfl, setCls_answered ..⟩
      | closes _ _ hother => exact absurd hsame hother
    case closes =>
      intro hrun hother
      cases houtcome with
      | starts hinit => exact absurd hinit hrun
      | counts hsame => exact absurd hsame hother
      | closes m hm => exact ⟨rfl, m, hm, setCls_answered ..⟩

end Sys2Proof.Machine
end

section
/-! PROOFS. The packer's tables, its capacity and its append primitive (42_packer.md sections 2 and 3). The
alphanumeric values are read off one table in both directions; that appending zero bits only moves LEN
follows from the canonical form, in which equal contents are equal lists. -/

namespace Sys2Proof.Machine

/-! ### Tables (R131 to R133) -/

theorem tierOf_of_le_9 {v : Nat} (h : v ≤ 9) : tierOf v = .tier1 := if_pos h

theorem tierOf_of_10_to_26 {v : Nat} (h : 10 ≤ v) (h' : v ≤ 26) : tierOf v = .tier2 := by
  rw [tierOf, if_neg (by omega), if_pos h']

theorem tierOf_of_ge_27 {v : Nat} (h : 27 ≤ v) : tierOf v = .tier3 := by
  rw [tierOf, if_neg (by omega), if_neg (by omega)]

theorem alnumTable_digit {k : Nat} (h : k < 10) :
    alnumTable[k]? = some (BitVec.ofNat 8 (0x30 + k)) := by
  interval_cases k <;> rfl

theorem alnumTable_letter {k : Nat} (h : k < 26) :
    alnumTable[k + 10]? = some (BitVec.ofNat 8 (0x41 + k)) := by
  interval_cases k <;> rfl

theorem alnumTable_symbol {x v : Nat} (h : symbolValue x = some v) :
    alnumTable[v]? = some (BitVec.ofNat 8 x) := by
  unfold symbolValue at h
  split at h <;> cases h <;> rfl

/-- A byte with an alphanumeric value stands at that place of the table. -/
theorem alnumTable_of_alnumValue {b : Byte} {v : Nat} (h : alnumValue b = some v) :
    alnumTable[v]? = some b := by
  have hb : BitVec.ofNat 8 b.toNat = b := BitVec.ofNat_toNat ..
  unfold alnumValue at h
  split_ifs at h with hdigit hletter
  · cases h
    rw [alnumTable_digit (by omega), Nat.add_sub_cancel' hdigit.1, hb]
  · cases h
    rw [alnumTable_letter (by omega), Nat.add_sub_cancel' hletter.1, hb]
  · rw [alnumTable_symbol h, hb]

/-- Each of the 45 bytes of the table has its place as its value. -/
theorem alnumValue_alnumTable :
    ∀ v : Fin alnumTable.length, alnumValue alnumTable[v] = some v.val := by decide

theorem alnumValue_eq_some_iff (b : Byte) (v : Nat) :
    alnumValue b = some v ↔ alnumTable[v]? = some b := by
  refine ⟨alnumTable_of_alnumValue, fun h => ?_⟩
  obtain ⟨hv, rfl⟩ := List.getElem?_eq_some_iff.mp h
  exact alnumValue_alnumTable ⟨v, hv⟩

/-- Settles O25: the widths by the tier of the version, the values by the table. -/
theorem packerTables : Obligations.PackerTables := by
  refine ⟨⟨rfl, rfl, rfl⟩, fun v _ h => ?_, fun v h h' => ?_, fun v h _ => ?_, rfl,
    alnumValue_eq_some_iff⟩
  · simp only [lenBits, tierOf_of_le_9 h, lenBitsOfTier, and_self]
  · simp only [lenBits, tierOf_of_10_to_26 h h', lenBitsOfTier, and_self]
  · simp only [lenBits, tierOf_of_ge_27 h, lenBitsOfTier, and_self]

/-! ### Capacity (R136) -/

theorem capacity_of_version {cfg : Config} {s : State} (h1 : 1 ≤ s.version.toNat)
    (h40 : s.version.toNat ≤ 40) :
    capacity cfg s = some (8 * cfg.dataCodewords s.version.toNat s.ecl) :=
  if_neg (not_or.mpr ⟨h1.not_gt, h40.not_gt⟩)

theorem capacity_of_no_version {cfg : Config} {s : State}
    (h : s.version.toNat = 0 ∨ 40 < s.version.toNat) : capacity cfg s = none :=
  if_pos (h.imp_left Nat.lt_one_iff.mpr)

/-- Settles O26: the bounds are the configuration's constraint. -/
theorem capacityForEveryConfiguration : Obligations.CapacityForEveryConfiguration := by
  intro cfg s
  refine ⟨fun h1 h40 => ?_, capacity_of_no_version⟩
  have hcap := capacity_of_version (cfg := cfg) h1 h40
  obtain ⟨hlow, hhigh, hmod⟩ := capacity_bounds hcap
  exact ⟨_, hcap, rfl, hmod, hlow, hhigh⟩

/-! ### Push (R135) -/

theorem Memory.readBit_of_byte (m : Memory) (a : Nat) {k : Nat} (hk : k < 8) :
    Memory.readBit m (8 * a + k) = (Memory.read m a).getLsbD (7 - k) := by
  have hdiv : (8 * a + k) / 8 = a := by omega
  have hmod : (8 * a + k) % 8 = k := by omega
  rw [Memory.readBit, hdiv, hmod]

/-- Two buffers with the same stream are the same list. -/
theorem Memory.ext_of_readBit {m m' : Memory} (hm : Memory.wf m = true) (hm' : Memory.wf m' = true)
    (h : ∀ p, Memory.readBit m p = Memory.readBit m' p) : m = m' :=
  Memory.ext_of_wf hm hm' fun a => Memory.read_eq_of_readBit fun k hk => by
    rw [h, Memory.readBit_of_byte m' a hk]

/-- Pushing zero bits where the stream holds zero bits leaves the buffer as it is. -/
theorem Memory.pushBits_zero {m : Memory} {p n : Nat} (hm : Memory.wf m = true)
    (hp : p + n ≤ 8 * pbufBytes) (hzero : ∀ q, p ≤ q → Memory.readBit m q = false) :
    Memory.pushBits m p n 0 = m := by
  refine Memory.ext_of_readBit (Memory.pushBits_wf n 0 p hm) hm fun q => ?_
  rw [Memory.readBit_pushBits n 0 p q hm hp]
  split
  next hq => rw [Nat.zero_testBit, hzero q hq.1]
  next => rfl

theorem push_zero_zero (s : State) : push 0 0 s = s := by
  simp only [push, Memory.pushBits, Nat.add_zero, BitVec.ofNat_toNat, BitVec.setWidth_eq]

/-- Appending zero bits to a buffer whose bits from LEN on are 0 only moves LEN. -/
theorem push_zero_eq_setLen {n : Nat} {s : State} (hw : Memory.wf s.buf = true)
    (hfits : s.len.toNat + n ≤ 8 * pbufBytes)
    (hzero : ∀ p, s.len.toNat ≤ p → Memory.readBit s.buf p = false) :
    push n 0 s = setLen (s.len.toNat + n) s := by
  rw [push, Memory.pushBits_zero hw hfits hzero, setLen]

/-- Where the bits from LEN on are 0, Push is OR-ing the bits of the value into place. -/
theorem push_readBit_or {n v : Nat} {s : State} (hw : Memory.wf s.buf = true)
    (hfits : s.len.toNat + n ≤ 8 * pbufBytes)
    (hzero : ∀ p, s.len.toNat ≤ p → Memory.readBit s.buf p = false) (p : Nat) :
    Memory.readBit (push n v s).buf p = (Memory.readBit s.buf p ||
      (decide (s.len.toNat ≤ p ∧ p < s.len.toNat + n) &&
        v.testBit (n - 1 - (p - s.len.toNat)))) := by
  rw [push_readBit hw hfits]
  split
  next hp => rw [hzero p hp.1, decide_eq_true hp, Bool.false_or, Bool.true_and]
  next hp => rw [decide_eq_false hp, Bool.false_and, Bool.or_false]

/-- Of the state tuple only LEN and BUF may differ: the frame of an append. -/
structure OnlyStream (s t : State) : Prop where
  fault : SameFault s t
  cls : SameCls s t
  target : SameTarget s t
  segment : SameSegment s t
  rse : SameRse s t

theorem OnlyStream.respond {s t : State} (h : OnlyStream s t) (resp : Response) :
    OnlyStream s (respond resp t) where
  fault := ⟨h.fault.fault, h.fault.cause, h.fault.fcmd⟩
  cls := ⟨h.cls.cstate, h.cls.pos, h.cls.segBegin⟩
  target := ⟨h.target.version, h.target.ecl⟩
  segment := ⟨h.segment.curMode, h.segment.rem, h.segment.acc, h.segment.accN⟩
  rse := ⟨h.rse.n, h.rse.r⟩

theorem push_onlyStream (n v : Nat) (s : State) : OnlyStream s (push n v s) :=
  ⟨⟨rfl, rfl, rfl⟩, ⟨rfl, rfl, rfl⟩, ⟨rfl, rfl⟩, ⟨rfl, rfl, rfl, rfl⟩, ⟨rfl, rfl⟩⟩

/-- Settles O27: the stream by the law of the loop of Push, the two equivalences by its bits. -/
theorem pushAppendsMostSignificantFirst : Obligations.PushAppendsMostSignificantFirst := by
  intro n v s hw _ _ hfits
  obtain ⟨hfault, hcls, htarget, hsegment, hrse⟩ := push_onlyStream n v s
  exact ⟨push_appended hw hfits, push_bufWf n v hw, hfault, hcls, htarget, hsegment, hrse,
    push_zero_zero s,
    fun hzero => ⟨push_zero_eq_setLen hw hfits hzero, push_readBit_or hw hfits hzero⟩⟩

end Sys2Proof.Machine
end

section
/-! PROOFS. The packer's commands (42_packer.md section 4). First what the pseudocode of each command comes
to, one lemma a branch, with the conditions of the branches before it as its hypotheses: that is the order
of the faults. Then each command's rule: a raise by the gate, a completed command by the law of Push or of
the pad codewords. What PCK.BITS and PCK.TERM leave alone is `OnlyStream`; what the commands that also
write the segment's registers leave alone is said once, as `setPacking_frame`. -/

namespace Sys2Proof.Machine

/-! ### From the pseudocode to the command -/

theorem faultsWith_of_effect {c : Cause} {i : Instr} {s : State} {e : Effect}
    (hexec : exec i s = gated i s e) (hs : s.fault = false) (he : e = .raise c) :
    FaultsWith c i s := by
  subst he
  exact faultsWith_of_raise hexec hs

theorem exec_of_effect_done {i : Instr} {s u : State} {resp : Response} {e : Effect}
    (hexec : exec i s = gated i s e) (hs : s.fault = false) (he : e = .done u resp) :
    exec i s = .next (respond resp u) := by
  subst he
  exact hexec.trans (gated_done u resp hs)

/-- The packer's registers but for the target are written, and no other. -/
def setPacking (len : BitVec 16) (buf : Memory) (m : Mode) (rem : BitVec 16) (acc : BitVec 7)
    (accN : Fin 3) (s : State) : State :=
  { s with len := len, buf := buf, curMode := m, rem := rem, acc := acc, accN := accN }

theorem setPacking_frame (len : BitVec 16) (buf : Memory) (m : Mode) (rem : BitVec 16)
    (acc : BitVec 7) (accN : Fin 3) (s : State) :
    SameFault s (respond .none (setPacking len buf m rem acc accN s)) ∧
    SameCls s (respond .none (setPacking len buf m rem acc accN s)) ∧
    SameTarget s (respond .none (setPacking len buf m rem acc accN s)) ∧
    SameRse s (respond .none (setPacking len buf m rem acc accN s)) ∧
    Answered .none s (respond .none (setPacking len buf m rem acc accN s)) :=
  ⟨⟨rfl, rfl, rfl⟩, ⟨rfl, rfl, rfl⟩, ⟨rfl, rfl⟩, ⟨rfl, rfl⟩, ⟨rfl, rfl⟩⟩

/-- A command word with two operand fields. -/
theorem wordOf_add (op high low : Nat) :
    wordOf op (high + low) = BitVec.ofNat 32 (op * 2 ^ 24 + high + low) := by
  rw [wordOf, Nat.add_assoc]

/-! ### PCK.INIT (R137) -/

theorem pckInitEffect_invalidVersion {ver : Nat} {ec : EcLevel} {s : State}
    (h : ver = 0 ∨ 40 < ver) : pckInitEffect ver ec s = .raise .invalidVersion :=
  if_pos (h.imp_left Nat.lt_one_iff.mpr)

theorem pckInitEffect_done {ver : Nat} {ec : EcLevel} {s : State} (h1 : 1 ≤ ver) (h40 : ver ≤ 40) :
    pckInitEffect ver ec s = .done
      (setPacking 0#16 [] .numeric 0#16 0#7 0 { s with version := BitVec.ofNat 6 ver, ecl := ec })
      .none :=
  if_neg (not_or.mpr ⟨h1.not_gt, h40.not_gt⟩)

/-- Settles O28. -/
theorem pckInitRule : Obligations.PckInitRule := by
  intro ver ec s _
  refine ⟨wordOf_add 0x20 _ _, fun hs => isIgnored_of_faulted hs nofun nofun, ?invalid, ?valid⟩
  case invalid =>
    intro hs hver
    exact faultsWith_of_effect (exec_pckInit ver ec s) hs (pckInitEffect_invalidVersion hver)
  case valid =>
    intro hs h1 h40
    have hexec := exec_of_effect_done (exec_pckInit ver ec s) hs (pckInitEffect_done h1 h40)
    have hversion : (BitVec.ofNat 6 ver).toNat = ver := Nat.mod_eq_of_lt (by omega)
    exact ⟨_, hexec, hversion, rfl, rfl, fun _ => rfl, rfl, rfl, rfl, rfl, ⟨rfl, rfl, rfl⟩,
      ⟨rfl, rfl, rfl⟩, ⟨rfl, rfl⟩, ⟨rfl, rfl⟩⟩

/-! ### PCK.BITS (R138) -/

section
variable {cfg : Config} {n value c : Nat} {s : State}

theorem pckBitsEffect_illegalOperand (h : 16 < n ∨ 2 ^ n ≤ value) :
    pckBitsEffect cfg n value s = .raise .illegalOperand := if_pos h

theorem pckBitsEffect_badSequence (hn : n ≤ 16) (hvalue : value < 2 ^ n) (hrem : s.rem ≠ 0#16) :
    pckBitsEffect cfg n value s = .raise .badSequence := by
  simp [pckBitsEffect, hn.not_gt, hvalue.not_ge, hrem]

theorem pckBitsEffect_invalidVersion (hn : n ≤ 16) (hvalue : value < 2 ^ n) (hrem : s.rem = 0#16)
    (hcap : capacity cfg s = none) : pckBitsEffect cfg n value s = .raise .invalidVersion := by
  simp [pckBitsEffect, hn.not_gt, hvalue.not_ge, hrem, hcap]

theorem pckBitsEffect_dataTooLong (hn : n ≤ 16) (hvalue : value < 2 ^ n) (hrem : s.rem = 0#16)
    (hcap : capacity cfg s = some c) (hlong : c < s.len.toNat + n) :
    pckBitsEffect cfg n value s = .raise .dataTooLong := by
  simp [pckBitsEffect, hn.not_gt, hvalue.not_ge, hrem, hcap, hlong]

theorem pckBitsEffect_done (hn : n ≤ 16) (hvalue : value < 2 ^ n) (hrem : s.rem = 0#16)
    (hcap : capacity cfg s = some c) (hfits : s.len.toNat + n ≤ c) :
    pckBitsEffect cfg n value s = .done (push n value s) .none := by
  simp [pckBitsEffect, hn.not_gt, hvalue.not_ge, hrem, hcap, hfits.not_gt]

end

/-- Settles O29: a fault by its branch, a completed append by the law of Push. -/
theorem pckBitsRule : Obligations.PckBitsRule := by
  intro n value s _ _ hw
  have faults : ∀ {cause}, s.fault = false →
      pckBitsEffect defaultConfig n value s = .raise cause →
      FaultsWith cause (.pckBits n value) s := faultsWith_of_effect (exec_pckBits n value s)
  refine ⟨wordOf_add 0x21 _ _, fun hs => isIgnored_of_faulted hs nofun nofun, fun hs => ?_⟩
  refine ⟨fun hop => faults hs (pckBitsEffect_illegalOperand hop), fun hn hvalue => ?_⟩
  refine ⟨fun hrem => faults hs (pckBitsEffect_badSequence hn hvalue hrem), fun hrem => ?_⟩
  refine ⟨fun hcap => faults hs (pckBitsEffect_invalidVersion hn hvalue hrem hcap),
    fun c hcap => ?_⟩
  refine ⟨fun hlong => faults hs (pckBitsEffect_dataTooLong hn hvalue hrem hcap hlong),
    fun hfits => ?_⟩
  have hexec := exec_of_effect_done (exec_pckBits n value s) hs
    (pckBitsEffect_done hn hvalue hrem hcap hfits)
  obtain ⟨-, hmax, -⟩ := capacity_bounds hcap
  have happended := push_appended (v := value) hw (hfits.trans hmax)
  obtain ⟨hfault, hcls, htarget, hsegment, hrse⟩ := (push_onlyStream n value s).respond .none
  exact ⟨_, hexec, happended.congr rfl rfl rfl rfl, hfault, hcls, htarget, hsegment, hrse, rfl, rfl⟩

/-! ### PCK.SEG (R139) -/

section
variable {cfg : Config} {m : Mode} {count c : Nat} {s : State}

theorem pckSegEffect_illegalOperand : pckSegEffect cfg 3 count s = .raise .illegalOperand := rfl

theorem pckSegEffect_badSequence (hrem : s.rem ≠ 0#16) :
    pckSegEffect cfg (modeCode m) count s = .raise .badSequence := by
  simp [pckSegEffect, modeOfCode_modeCode, hrem]

theorem pckSegEffect_invalidVersion (hrem : s.rem = 0#16) (hcap : capacity cfg s = none) :
    pckSegEffect cfg (modeCode m) count s = .raise .invalidVersion := by
  simp [pckSegEffect, modeOfCode_modeCode, hrem, hcap]

/-- The count does not fit its field, or the header does not fit the capacity. -/
theorem pckSegEffect_dataTooLong (hrem : s.rem = 0#16) (hcap : capacity cfg s = some c)
    (hlong : 2 ^ lenBits m s.version.toNat ≤ count ∨
      c < s.len.toNat + 4 + lenBits m s.version.toNat) :
    pckSegEffect cfg (modeCode m) count s = .raise .dataTooLong := by
  simp only [pckSegEffect, modeOfCode_modeCode, hrem, hcap, ne_eq, not_true_eq_false, if_false]
  split_ifs with hcount hroom
  · rfl
  · rfl
  · exact absurd hlong (not_or.mpr ⟨hcount, hroom⟩)

theorem pckSegEffect_done (hrem : s.rem = 0#16) (hcap : capacity cfg s = some c)
    (hcount : count < 2 ^ lenBits m s.version.toNat)
    (hfits : s.len.toNat + 4 + lenBits m s.version.toNat ≤ c) :
    pckSegEffect cfg (modeCode m) count s = .done
      { push (lenBits m s.version.toNat) count (push 4 (modeInd m) s) with
        curMode := m, rem := BitVec.ofNat 16 count, acc := 0#7, accN := 0 } .none := by
  simp [pckSegEffect, modeOfCode_modeCode, hrem, hcap, hcount.not_ge, hfits.not_gt]

end

/-- The header of a segment: the mode indicator, then the count. -/
theorem push_header_appended {s : State} {wd ind count : Nat} (hw : Memory.wf s.buf = true)
    (hfits : s.len.toNat + 4 + wd ≤ 8 * pbufBytes) :
    Appended (bitsOf 4 ind ++ bitsOf wd count) s (push wd count (push 4 ind s)) := by
  have hind : s.len.toNat + 4 ≤ 8 * pbufBytes := (Nat.le_add_right _ wd).trans hfits
  refine (push_appended hw hind).trans (push_appended (push_bufWf 4 ind hw) ?_)
  rwa [push_len_toNat hind]

/-- Settles O30: a fault by its branch, the header as one append. -/
theorem pckSegRule : Obligations.PckSegRule := by
  intro mode count s _ hcount16 hw
  have faults : ∀ {cause}, s.fault = false →
      pckSegEffect defaultConfig mode count s = .raise cause →
      FaultsWith cause (.pckSeg mode count) s := faultsWith_of_effect (exec_pckSeg mode count s)
  refine ⟨wordOf_add 0x22 _ _, fun hs => isIgnored_of_faulted hs nofun nofun, fun hs => ?_⟩
  refine ⟨?illegal, ?segment⟩
  case illegal =>
    rintro rfl
    exact faults hs pckSegEffect_illegalOperand
  case segment =>
    rintro m rfl
    refine ⟨fun hrem => faults hs (pckSegEffect_badSequence hrem), fun hrem => ?_⟩
    refine ⟨fun hcap => faults hs (pckSegEffect_invalidVersion hrem hcap), fun c hcap => ?_⟩
    refine ⟨fun hlong => faults hs (pckSegEffect_dataTooLong hrem hcap (.inl hlong)),
      fun hcount => ?_⟩
    refine ⟨fun hlong => faults hs (pckSegEffect_dataTooLong hrem hcap (.inr hlong)),
      fun hfits => ?_⟩
    have hexec := exec_of_effect_done (exec_pckSeg _ count s) hs
      (pckSegEffect_done hrem hcap hcount hfits)
    obtain ⟨-, hmax, -⟩ := capacity_bounds hcap
    have happended := push_header_appended (ind := modeInd m) (count := count) hw (hfits.trans hmax)
    exact ⟨_, hexec, happended.congr rfl rfl rfl rfl, rfl, Nat.mod_eq_of_lt hcount16, rfl, rfl,
      setPacking_frame ..⟩

/-! ### PCK.DATA (R140) -/

theorem dataGroup_of_not_validIn {m : Mode} {b : Byte} (h : validIn m b = false)
    (acc accN rem1 : Nat) : dataGroup m acc accN rem1 b = .bad := by
  cases m with
  | numeric =>
    have hdigit := of_decide_eq_false h
    exact if_pos (by omega)
  | alphanumeric =>
    have hnone : alnumValue b = none := by simpa [validIn] using h
    simp only [dataGroup, hnone]
  | byte => cases h

theorem dataGroup_numeric {b : Byte} (h : validIn .numeric b = true) (acc accN rem1 : Nat) :
    dataGroup .numeric acc accN rem1 b =
      if accN + 1 = 3 then .emit 10 (acc * 10 + digit b)
      else if rem1 = 0 then .emit (if accN + 1 = 2 then 7 else 4) (acc * 10 + digit b)
      else .keep (acc * 10 + digit b) (accN + 1) := by
  have hdigit := of_decide_eq_true h
  exact if_neg (by omega)

theorem dataGroup_alphanumeric {b : Byte} (h : validIn .alphanumeric b = true)
    (acc accN rem1 : Nat) :
    dataGroup .alphanumeric acc accN rem1 b =
      if accN = 1 then .emit 11 (acc * 45 + alnum b)
      else if rem1 = 0 then .emit 6 (alnum b)
      else .keep (alnum b) 1 := by
  obtain ⟨x, hx⟩ := Option.isSome_iff_exists.mp h
  simp only [dataGroup, alnum, hx, Option.getD_some]

section
variable {cfg : Config} {b : Byte} {c : Nat} {s : State}

theorem pckDataEffect_badSequence (hrem : s.rem = 0#16) :
    pckDataEffect cfg b s = .raise .badSequence := if_pos hrem

theorem pckDataEffect_invalidVersion (hrem : s.rem ≠ 0#16) (hcap : capacity cfg s = none) :
    pckDataEffect cfg b s = .raise .invalidVersion := by
  simp [pckDataEffect, hrem, hcap]

theorem pckDataEffect_badChar (hrem : s.rem ≠ 0#16) (hcap : capacity cfg s = some c)
    (hbad : validIn s.curMode b = false) : pckDataEffect cfg b s = .raise .badChar := by
  simp [pckDataEffect, hrem, hcap, dataGroup_of_not_validIn hbad]

theorem pckDataEffect_dataTooLong {n v : Nat} (hrem : s.rem ≠ 0#16)
    (hcap : capacity cfg s = some c)
    (hgroup : dataGroup s.curMode s.acc.toNat s.accN.val (s.rem.toNat - 1) b = .emit n v)
    (hlong : c < s.len.toNat + n) : pckDataEffect cfg b s = .raise .dataTooLong := by
  simp [pckDataEffect, hrem, hcap, hgroup, hlong]

theorem pckDataEffect_emit {n v : Nat} (hrem : s.rem ≠ 0#16) (hcap : capacity cfg s = some c)
    (hgroup : dataGroup s.curMode s.acc.toNat s.accN.val (s.rem.toNat - 1) b = .emit n v)
    (hfits : s.len.toNat + n ≤ c) :
    pckDataEffect cfg b s = .done
      { push n v s with acc := 0#7, accN := 0, rem := BitVec.ofNat 16 (s.rem.toNat - 1) }
      .none := by
  simp [pckDataEffect, hrem, hcap, hgroup, hfits.not_gt]

theorem pckDataEffect_keep {a k : Nat} (hrem : s.rem ≠ 0#16) (hcap : capacity cfg s = some c)
    (hgroup : dataGroup s.curMode s.acc.toNat s.accN.val (s.rem.toNat - 1) b = .keep a k) :
    pckDataEffect cfg b s = .done
      { s with acc := BitVec.ofNat 7 a, accN := Fin.ofNat 3 k,
               rem := BitVec.ofNat 16 (s.rem.toNat - 1) } .none := by
  simp [pckDataEffect, hrem, hcap, hgroup]

/-- One character fewer is awaited; the count down never leaves the register. -/
theorem rem_pred_toNat (s : State) :
    (BitVec.ofNat 16 (s.rem.toNat - 1)).toNat = s.rem.toNat - 1 :=
  Nat.mod_eq_of_lt (by have := s.rem.isLt; omega)

theorem rem_pred_eq_zero_iff (hrem : s.rem ≠ 0#16) : s.rem.toNat - 1 = 0 ↔ s.rem = 1#16 := by
  bv_omega

theorem completesGroup_of_emit {n v : Nat} (hw : Memory.wf s.buf = true) (hs : s.fault = false)
    (hrem : s.rem ≠ 0#16) (hcap : capacity defaultConfig s = some c)
    (hgroup : dataGroup s.curMode s.acc.toNat s.accN.val (s.rem.toNat - 1) b = .emit n v) :
    CompletesGroup b n v c s := by
  constructor
  · intro hlong
    exact faultsWith_of_effect (exec_pckData b s) hs
      (pckDataEffect_dataTooLong hrem hcap hgroup hlong)
  · intro hfits
    have hexec := exec_of_effect_done (exec_pckData b s) hs
      (pckDataEffect_emit hrem hcap hgroup hfits)
    obtain ⟨-, hmax, -⟩ := capacity_bounds hcap
    have happended := push_appended (v := v) hw (hfits.trans hmax)
    exact ⟨_, hexec, happended.congr rfl rfl rfl rfl, rfl, rfl, rem_pred_toNat s, rfl,
      setPacking_frame ..⟩

theorem keepsGroup_of_keep {a : Nat} {k : Fin 3} (hs : s.fault = false)
    (hrem : s.rem ≠ 0#16) (hcap : capacity defaultConfig s = some c)
    (hgroup : dataGroup s.curMode s.acc.toNat s.accN.val (s.rem.toNat - 1) b = .keep a k) :
    KeepsGroup b a k s := by
  have hexec := exec_of_effect_done (exec_pckData b s) hs (pckDataEffect_keep hrem hcap hgroup)
  exact ⟨_, hexec, rfl, Fin.ofNat_val_eq_self k, rem_pred_toNat s, rfl, rfl, fun _ => rfl,
    setPacking_frame ..⟩

end

/-- Settles O31: a fault by its branch; in each mode the character completes the group or is kept, as the
characters held and the characters awaited decide. -/
theorem pckDataRule : Obligations.PckDataRule := by
  intro b s hw
  have faults : ∀ {cause}, s.fault = false → pckDataEffect defaultConfig b s = .raise cause →
      FaultsWith cause (.pckData b) s := faultsWith_of_effect (exec_pckData b s)
  refine ⟨rfl, fun hs => isIgnored_of_faulted hs nofun nofun, fun hs => ?_⟩
  refine ⟨fun hrem => faults hs (pckDataEffect_badSequence hrem), fun hrem => ?_⟩
  refine ⟨fun hcap => faults hs (pckDataEffect_invalidVersion hrem hcap), fun c hcap => ?_⟩
  refine ⟨fun hbad => faults hs (pckDataEffect_badChar hrem hcap hbad), fun hvalid => ?_⟩
  have completes : ∀ {n v},
      dataGroup s.curMode s.acc.toNat s.accN.val (s.rem.toNat - 1) b = .emit n v →
      CompletesGroup b n v c s := completesGroup_of_emit hw hs hrem hcap
  have keeps : ∀ {a} {k : Fin 3},
      dataGroup s.curMode s.acc.toNat s.accN.val (s.rem.toNat - 1) b = .keep a k →
      KeepsGroup b a k s := keepsGroup_of_keep hs hrem hcap
  have hlast := rem_pred_eq_zero_iff hrem
  refine ⟨fun hmode => ?numeric, fun hmode => ?alphanumeric, fun hmode => ?byte⟩
  case numeric =>
    rw [hmode] at hvalid completes keeps
    simp only [dataGroup_numeric hvalid, hlast] at completes keeps
    exact ⟨fun hk => completes (by simp [hk]), fun hk hone => completes (by simp [hk, hone]),
      fun hk hmore => keeps (by simp [hk, hmore]), fun hk hone => completes (by simp [hk, hone]),
      fun hk hmore => keeps (by simp [hk, hmore])⟩
  case alphanumeric =>
    rw [hmode] at hvalid completes keeps
    have hheld : s.accN.val = 1 ↔ s.accN = 1 := (Fin.ext_iff (b := 1)).symm
    simp only [dataGroup_alphanumeric hvalid, hlast, hheld] at completes keeps
    exact ⟨fun hk => completes (if_pos hk), fun hk hone => completes (by simp [hk, hone]),
      fun hk hmore => keeps (by simp [hk, hmore])⟩
  case byte =>
    rw [hmode] at completes
    exact completes rfl

/-! ### PCK.TERM (R141) -/

/-- The first byte that gets a pad codeword at capacity `c` from LEN `l`: the byte boundary at or after
the terminator (step 2 of R141). -/
def padStart (c l : Nat) : Nat := (l + min 4 (c - l) + 7) / 8

section
variable {c : Nat} {s : State}

/-- Step 3 of R141 starts with LEN at the byte boundary. -/
theorem setLen_terminatedLen_toNat (hc : c % 8 = 0) (hm : c ≤ 8 * pbufBytes)
    (hl : s.len.toNat ≤ c) :
    (setLen (terminatedLen c s.len.toNat) s).len.toNat = 8 * padStart c s.len.toNat := by
  have hstart : terminatedLen c s.len.toNat = 8 * padStart c s.len.toNat := terminatedLen_eq hc hl
  obtain ⟨-, hle, -⟩ := terminatedLen_bounds hc hl
  rw [setLen_len, BitVec.toNat_ofNat, ← hstart]
  exact Nat.mod_eq_of_lt (by have := pbufBytes_eq; omega)

/-- The pad codewords fill the room from the byte boundary to the capacity. -/
theorem terminate_buf_eq_padCodewords (hc : c % 8 = 0) (hm : c ≤ 8 * pbufBytes)
    (hl : s.len.toNat ≤ c) :
    (terminate c s).buf = (padCodewords (c / 8 - padStart c s.len.toNat) true
      (setLen (terminatedLen c s.len.toNat) s)).buf := by
  have hstart : terminatedLen c s.len.toNat = 8 * padStart c s.len.toNat := terminatedLen_eq hc hl
  have hcount : (c - terminatedLen c s.len.toNat) / 8 = c / 8 - padStart c s.len.toNat := by omega
  rw [terminate_buf hc hm hl, hcount]

theorem padStart_le (hc : c % 8 = 0) (hl : s.len.toNat ≤ c) :
    padStart c s.len.toNat ≤ c / 8 := by
  unfold padStart
  omega

/-- From the byte boundary to the capacity stand the pad codewords, 0xEC first. -/
theorem terminate_read_pad (hw : Memory.wf s.buf = true) (hc : c % 8 = 0) (hm : c ≤ 8 * pbufBytes)
    (hl : s.len.toNat ≤ c) {a : Nat} (ha : padStart c s.len.toNat ≤ a) (ha' : a < c / 8) :
    Memory.read (terminate c s).buf a =
      if (a - padStart c s.len.toNat) % 2 = 0 then 0xEC#8 else 0x11#8 := by
  have hlen := setLen_terminatedLen_toNat hc hm hl
  have hpad := padCodewords_read (k := c / 8 - padStart c s.len.toNat)
    (j := a - padStart c s.len.toNat) (s := setLen (terminatedLen c s.len.toNat) s) true hw
    (by omega) (by omega) (by omega)
  rw [hlen, Nat.mul_div_cancel_left _ (by decide), Nat.add_sub_cancel' ha,
    ← terminate_buf_eq_padCodewords hc hm hl] at hpad
  simpa only [beq_true, beq_iff_eq] using hpad

/-- Every other byte is as before: the terminator and the zero fill only move LEN. -/
theorem terminate_read_other (hc : c % 8 = 0) (hm : c ≤ 8 * pbufBytes) (hl : s.len.toNat ≤ c)
    {a : Nat} (ha : a < padStart c s.len.toNat ∨ c / 8 ≤ a) :
    Memory.read (terminate c s).buf a = Memory.read s.buf a := by
  have hlen := setLen_terminatedLen_toNat hc hm hl
  have hle := padStart_le hc hl
  rw [terminate_buf_eq_padCodewords hc hm hl,
    padCodewords_read_other true (by omega) (by omega) (by omega), setLen_buf]

theorem terminate_onlyStream (c : Nat) (s : State) : OnlyStream s (terminate c s) where
  fault := ⟨terminate_fault c s, terminate_cause c s, terminate_fcmd c s⟩
  cls := ⟨terminate_cstate c s, terminate_pos c s, terminate_segBegin c s⟩
  target := ⟨terminate_version c s, terminate_ecl c s⟩
  segment := ⟨terminate_curMode c s, terminate_rem c s, terminate_acc c s, terminate_accN c s⟩
  rse := ⟨terminate_n c s, terminate_r c s⟩

theorem pckTermEffect_badSequence {cfg : Config} (hrem : s.rem ≠ 0#16) :
    pckTermEffect cfg s = .raise .badSequence := if_pos hrem

theorem pckTermEffect_invalidVersion {cfg : Config} (hrem : s.rem = 0#16)
    (hcap : capacity cfg s = none) : pckTermEffect cfg s = .raise .invalidVersion := by
  simp [pckTermEffect, hrem, hcap]

theorem pckTermEffect_dataTooLong {cfg : Config} (hrem : s.rem = 0#16)
    (hcap : capacity cfg s = some c) (hlong : c < s.len.toNat) :
    pckTermEffect cfg s = .raise .dataTooLong := by
  simp [pckTermEffect, hrem, hcap, hlong]

theorem pckTermEffect_done {cfg : Config} (hrem : s.rem = 0#16) (hcap : capacity cfg s = some c)
    (hl : s.len.toNat ≤ c) : pckTermEffect cfg s = .done (terminate c s) .none := by
  simp [pckTermEffect, hrem, hcap, hl.not_gt]

end

/-- No bit can be appended to a full buffer. -/
theorem pckBits_faults_of_full {s : State} {n value : Nat} (hs : s.fault = false)
    (hrem : s.rem = 0#16) (hfull : capacity defaultConfig s = some s.len.toNat) (h1 : 1 ≤ n)
    (hn : n ≤ 16) (hvalue : value < 2 ^ n) : FaultsWith .dataTooLong (.pckBits n value) s :=
  faultsWith_of_effect (exec_pckBits n value s) hs
    (pckBitsEffect_dataTooLong hn hvalue hrem hfull (Nat.lt_add_of_pos_right h1))

/-- No segment can be opened on a full buffer. -/
theorem pckSeg_faults_of_full {s : State} (hs : s.fault = false) (hrem : s.rem = 0#16)
    (hfull : capacity defaultConfig s = some s.len.toNat) (m : Mode) (count : Nat) :
    FaultsWith .dataTooLong (.pckSeg (modeCode m) count) s :=
  faultsWith_of_effect (exec_pckSeg _ count s) hs
    (pckSegEffect_dataTooLong hrem hfull (.inr (by omega)))

/-- Settles O32: LEN and the bytes by the laws of the pad codewords; a full buffer stays as it is,
because there the pads' range is empty. -/
theorem pckTermRule : Obligations.PckTermRule := by
  refine ⟨rfl, fun s hw => ?_⟩
  have faults : ∀ {cause}, s.fault = false → pckTermEffect defaultConfig s = .raise cause →
      FaultsWith cause .pckTerm s := faultsWith_of_effect (exec_pckTerm s)
  refine ⟨fun hs => isIgnored_of_faulted hs nofun nofun, fun hs => ?_⟩
  refine ⟨fun hrem => faults hs (pckTermEffect_badSequence hrem), fun hrem => ?_⟩
  refine ⟨fun hcap => faults hs (pckTermEffect_invalidVersion hrem hcap), fun c hcap => ?_⟩
  refine ⟨fun hlong => faults hs (pckTermEffect_dataTooLong hrem hcap hlong), fun hl => ?_⟩
  have hexec := exec_of_effect_done (exec_pckTerm s) hs (pckTermEffect_done hrem hcap hl)
  obtain ⟨-, hm, hc⟩ := capacity_bounds hcap
  have hlen : (respond .none (terminate c s)).len.toNat = c := terminate_len hc hm hl
  obtain ⟨hfault, hcls, htarget, hsegment, hrse⟩ := (terminate_onlyStream c s).respond .none
  have hs' := hfault.fault.trans hs
  have hrem' := hsegment.rem.trans hrem
  have hfull : capacity defaultConfig (respond .none (terminate c s)) =
      some (respond .none (terminate c s)).len.toNat := by
    rw [capacity_congr htarget.version htarget.ecl, hcap, hlen]
  refine ⟨_, hexec, hlen, fun a => terminate_read_pad hw hc hm hl,
    fun a => terminate_read_other hc hm hl, ?noop,
    fun n value => pckBits_faults_of_full hs' hrem' hfull, pckSeg_faults_of_full hs' hrem' hfull,
    hfault, hcls, htarget, hsegment, hrse, congrArg _ (terminate_resps c s), terminate_inbox c s⟩
  case noop =>
    intro hend
    have hempty : padStart c s.len.toNat = c / 8 := by unfold padStart; omega
    refine ⟨htarget, hsegment, BitVec.eq_of_toNat_eq (hlen.trans hend.symm), fun a => ?_⟩
    exact terminate_read_other hc hm hl (by omega)

/-! ### RD.PBUF (R142) -/

/-- Settles O33. -/
theorem rdPbufRule : Obligations.RdPbufRule := by
  intro idx s _
  refine ⟨rfl, fun hs => isIgnored_of_faulted hs nofun nofun, fun hs hidx => ?_, fun hs hidx => ?_⟩
  · exact faultsWith_of_effect (exec_rdPbuf idx s) hs (if_pos hidx)
  · have hexec := exec_of_effect_done (exec_rdPbuf idx s) hs (if_neg hidx.not_ge)
    rw [BitVec.ofNat_toNat]
    exact ⟨_, hexec, respond_sameTuple _ s, respond_answered _ s⟩

end Sys2Proof.Machine
end

section
/-! PROOFS. The Reed-Solomon encoder's commands (43_reed_solomon.md section 4). What RSE.START and RSE.DATA
leave alone is said once, as `setRse_frame`; what RSE.DATA writes is said once, register by register, as
`remainder_shiftRegister`. That the only register of N = 1 takes f itself needs 1 to be neutral for `gmul`:
its first loop collects the bits of the second factor, and its second loop finds no bit to reduce. -/

namespace Sys2Proof.Machine

/-! ### The remainder registers (R175, R176) -/

theorem remainder_of_lt (s : State) {i : Nat} (hi : i < 30) : remainder s i = s.r[i] := by
  simp [remainder, hi]

theorem remainder_of_ge (s : State) {i : Nat} (hi : 30 ≤ i) : remainder s i = 0#8 := by
  simp [remainder, hi]

/-- N and the thirty registers are written, and no other. -/
def setRse (n : Fin 31) (r : Vector Byte 30) (s : State) : State := { s with n := n, r := r }

theorem setRse_frame (n : Fin 31) (r : Vector Byte 30) (s : State) :
    (respond .none (setRse n r s)).n = n ∧
    SameFault s (respond .none (setRse n r s)) ∧ SameCls s (respond .none (setRse n r s)) ∧
    SamePck s (respond .none (setRse n r s)) ∧ Answered .none s (respond .none (setRse n r s)) :=
  ⟨rfl, ⟨rfl, rfl, rfl⟩, ⟨rfl, rfl, rfl⟩, ⟨⟨rfl, rfl⟩, ⟨rfl, rfl, rfl, rfl⟩, rfl, fun _ => rfl⟩,
    ⟨rfl, rfl⟩⟩

/-- The loop of R176, for every index: an index past the thirty registers reads 0 before and after. -/
theorem remainder_shiftRegister (n : Fin 31) (g : List Byte) (f : Byte) (s : State) (i : Nat) :
    remainder (respond .none (setRse n (shiftRegister n.val g f s.r) s)) i =
      if i + 1 < n.val then remainder s (i + 1) ^^^ gmul (g.getD i 0#8) f
      else if i + 1 = n.val then gmul (g.getD i 0#8) f
      else remainder s i := by
  rcases Nat.lt_or_ge i 30 with hi | hi
  · rw [remainder_of_lt _ hi, remainder_of_lt s hi]
    exact Vector.getElem_ofFn hi
  · have hn := n.isLt
    rw [remainder_of_ge _ hi, remainder_of_ge s hi, if_neg (by omega), if_neg (by omega)]

/-! ### 1 is neutral for the product (R171) -/

/-- Each turn of the first loop of `gmul` by 1 takes one more bit of the second factor. -/
theorem foldl_range_setBit (b : Byte) (n : Nat) :
    (List.range n).foldl (fun acc i => if b.getLsbD i then acc ^^^ (1#15 <<< i) else acc) 0#15 =
      (b.setWidth n).setWidth 15 := by
  induction n with
  | zero => ext k hk; simp
  | succ n ih =>
    rw [List.range_succ, List.foldl_append, ih, List.foldl_cons, List.foldl_nil]
    clear ih
    ext k hk
    cases hbit : b.getLsbD n with
    | false => grind
    | true => grind

theorem carrylessMul_one_left (b : Byte) : carrylessMul 1#8 b = b.setWidth 15 :=
  foldl_range_setBit b 8

/-- A byte is below `GF_POLY` already. -/
theorem reduceGf_setWidth (b : Byte) : reduceGf (b.setWidth 15) = b := by simp [reduceGf]

theorem gmul_one_left (b : Byte) : gmul 1#8 b = b := by
  rw [gmul, carrylessMul_one_left, reduceGf_setWidth]

/-! ### RSE.START (R175) -/

theorem rseStartEffect_done {n : Nat} {s : State} (h1 : 1 ≤ n) (h30 : n ≤ 30) :
    rseStartEffect n s = .done (setRse (Fin.ofNat 31 n) (Vector.replicate 30 0#8) s) .none :=
  if_neg (not_or.mpr ⟨Nat.ne_of_gt h1, h30.not_gt⟩)

/-- Settles O44. -/
theorem rseStartRule : Obligations.RseStartRule := by
  intro n s _
  refine ⟨rfl, fun hs => isIgnored_of_faulted hs nofun nofun, ?illegal, ?legal⟩
  case illegal =>
    intro hs hn
    exact faultsWith_of_effect (exec_rseStart n s) hs (if_pos hn)
  case legal =>
    intro hs h1 h30
    have hexec := exec_of_effect_done (exec_rseStart n s) hs (rseStartEffect_done h1 h30)
    have hval : (Fin.ofNat 31 n).val = n := Nat.mod_eq_of_lt (by omega)
    have hactive : Fin.ofNat 31 n ≠ 0 := Fin.val_ne_zero_iff.mp (by omega)
    obtain ⟨-, hframe⟩ := setRse_frame (Fin.ofNat 31 n) (Vector.replicate 30 0#8) s
    exact ⟨_, hexec, hval, fun i => Vector.getElem_replicate i.isLt, bne_iff_ne.mpr hactive, hframe⟩

/-! ### RSE.DATA (R176) -/

theorem rseDataEffect_done {b : Byte} {s : State} (hn : s.n ≠ 0) :
    rseDataEffect b s = .done
      (setRse s.n (shiftRegister s.n.val (genCoeffs s.n.val) (b ^^^ remainder s 0) s.r) s) .none := by
  rw [remainder_of_lt s (by decide)]
  exact if_neg hn

/-- `g_1 = x ⊕ 1`, so its one tap is 1. -/
theorem genCoeffs_one : genCoeffs 1 = [1#8] := by decide

theorem gmul_genCoeffs_one (f : Byte) : gmul ((genCoeffs 1).getD 0 0#8) f = f := by
  rw [genCoeffs_one]
  exact gmul_one_left f

/-- Settles O45: the registers by the law of the loop, the only register of N = 1 because its tap is 1. -/
theorem rseDataRule : Obligations.RseDataRule := by
  intro b s
  refine ⟨rfl, fun hs => isIgnored_of_faulted hs nofun nofun, ?unstarted, ?started⟩
  case unstarted =>
    intro hs hn
    exact faultsWith_of_effect (exec_rseData b s) hs (if_pos hn)
  case started =>
    intro hs hn
    have hexec := exec_of_effect_done (exec_rseData b s) hs (rseDataEffect_done hn)
    have hregs := remainder_shiftRegister s.n (genCoeffs s.n.val) (b ^^^ remainder s 0) s
    have hpos : 0 < s.n.val := Fin.pos_iff_ne_zero.mpr hn
    refine ⟨_, hexec, fun i hi => ?inner, ?last, fun i hi => ?above, fun hone => ?only, setRse_frame ..⟩
    case inner => exact (hregs i).trans (if_pos hi)
    case last => exact (hregs _).trans ((if_neg (by omega)).trans (if_pos (by omega)))
    case above => exact (hregs i).trans ((if_neg (by omega)).trans (if_neg (by omega)))
    case only =>
      have htap := gmul_genCoeffs_one (b ^^^ remainder s 0)
      rw [← hone] at htap
      exact (hregs 0).trans ((if_neg (by omega)).trans ((if_pos hone.symm).trans htap))

/-! ### RD.EC (R177) -/

/-- Settles O46. -/
theorem rdEcRule : Obligations.RdEcRule := by
  intro idx s _
  refine ⟨rfl, fun hs => isIgnored_of_faulted hs nofun nofun, fun hs hidx => ?_, fun hs hidx => ?_⟩
  · exact faultsWith_of_effect (exec_rdEc idx s) hs (if_pos hidx)
  · have hexec := exec_of_effect_done (exec_rdEc idx s) hs (if_neg hidx.not_ge)
    rw [BitVec.ofNat_toNat]
    exact ⟨_, hexec, respond_sameTuple _ s, respond_answered _ s⟩

end Sys2Proof.Machine
end

section
/-! PROOFS. The word of a decoded command (30_encoding.md R70 to R72). A word's low 24 bits are its operand
fields, so once the must-be-zero field above them is 0 they are what `encode` writes beside the opcode. The
word being executed is therefore the word that FCMD is written with. -/

namespace Sys2Proof.Machine

/-! ### Fields of a word -/

/-- A low field is its upper part above its lower part. -/
theorem bits_split (w : Word) {hi k : Nat} (hk : k < hi) :
    bits w hi 0 = bits w hi (k + 1) * 2 ^ (k + 1) + bits w k 0 := by
  have hpow : 2 ^ (hi + 1) = 2 ^ (k + 1) * 2 ^ (hi + 1 - (k + 1)) := by
    rw [← pow_add]
    congr 1
    omega
  simp only [bits, pow_zero, Nat.div_one, Nat.sub_zero]
  rw [hpow, Nat.mod_mul, Nat.mul_comm, Nat.add_comm]

theorem bits_lt (w : Word) (hi lo : Nat) : bits w hi lo < 2 ^ (hi + 1 - lo) :=
  Nat.mod_lt _ (by positivity)

/-- A word is its opcode and its low 24 bits. -/
theorem wordOf_bits (w : Word) : wordOf (bits w 31 24) (bits w 23 0) = w := by
  apply BitVec.eq_of_toNat_eq
  simp only [wordOf, bits, BitVec.toNat_ofNat]
  omega

theorem ecLevel_ofCode_code {k : Nat} (hk : k < 4) : (EcLevel.ofCode k).code = k := by
  interval_cases k <;> rfl

theorem byte_bits_toNat (w : Word) : (BitVec.ofNat 8 (bits w 7 0)).toNat = bits w 7 0 :=
  Nat.mod_eq_of_lt (bits_lt w 7 0)

/-! ### The word of what the operands of a word make -/

theorem encode_of_takeOperands {zero : Bool} {w : Word} {i j : Instr} {op low : Nat}
    (h : takeOperands zero i = .ok j) (hop : bits w 31 24 = op) (hi : encode i = wordOf op low)
    (hlow : zero = true → bits w 23 0 = low) : encode j = w := by
  obtain ⟨hzero, rfl⟩ := takeOperands_ok h
  rw [hi, ← hlow hzero, ← hop, wordOf_bits]

/-- A format whose must-be-zero bits are those from `k + 1` to 23. -/
theorem encode_of_zero_above {k : Nat} {w : Word} {i j : Instr} {op : Nat}
    (h : takeOperands (bits w 23 (k + 1) == 0) i = .ok j) (hk : k < 23)
    (hop : bits w 31 24 = op) (hi : encode i = wordOf op (bits w k 0)) : encode j = w := by
  refine encode_of_takeOperands h hop hi fun hzero => ?_
  rw [bits_split w hk, eq_of_beq hzero, Nat.zero_mul, Nat.zero_add]

theorem encode_of_no_operands {w : Word} {i j : Instr} {op : Nat}
    (h : takeOperands (bits w 23 0 == 0) i = .ok j) (hop : bits w 31 24 = op)
    (hi : encode i = wordOf op 0) : encode j = w :=
  encode_of_takeOperands h hop hi eq_of_beq

/-- Format V has two must-be-zero fields, one between its operands. -/
theorem encode_of_formatV {w : Word} {j : Instr} (hop : bits w 31 24 = 0x20)
    (h : takeOperands (bits w 23 16 == 0 && bits w 7 2 == 0)
      (.pckInit (bits w 15 8) (EcLevel.ofCode (bits w 1 0))) = .ok j) : encode j = w := by
  refine encode_of_takeOperands h hop rfl fun hzero => ?_
  obtain ⟨hhigh, hmid⟩ := Bool.and_eq_true_iff.mp hzero
  rw [bits_split w (show 15 < 23 by decide), eq_of_beq hhigh, bits_split w (show 7 < 15 by decide),
    bits_split w (show 1 < 7 by decide), eq_of_beq hmid, ecLevel_ofCode_code (bits_lt w 1 0)]
  simp only [Nat.zero_mul, Nat.zero_add, Nat.reduceAdd]

/-- The word of the command a word decodes to is that word. -/
theorem encode_of_decode {w : Word} {i : Instr} (h : decode w = .ok i) : encode i = w := by
  unfold decode at h
  split at h
  case h_1 hop | h_2 hop | h_3 hop | h_4 hop | h_5 hop => exact encode_of_no_operands h hop rfl
  case h_6 hop | h_9 hop | h_11 hop | h_12 hop =>
    exact encode_of_zero_above h (by decide) hop rfl
  case h_7 hop | h_8 hop | h_10 hop =>
    exact encode_of_zero_above h (by decide) hop (by rw [encode, byte_bits_toNat])
  case h_13 hop => exact encode_of_formatV hop h
  case h_14 hop =>
    exact encode_of_zero_above h (by decide) hop
      (by rw [encode, bits_split w (show 15 < 20 by decide)])
  case h_15 hop =>
    exact encode_of_zero_above h (by decide) hop
      (by rw [encode, bits_split w (show 15 < 17 by decide)])
  case h_16 => cases h

end Sys2Proof.Machine
end

section
/-! PROOFS. Faults and the faulted state (60_exceptions.md R214 to R216). What the pseudocode of a command
does to the fault group is said once: it raises a cause the command can raise, or it leaves the group
alone; so a step that sets FAULT is a `raiseFault` and nothing else. A step of the faulted state is a
reset, a read of a register, or nothing at all, and only the reset clears FAULT. -/

namespace Sys2Proof.Machine

/-! ### What a command does to the fault group -/

/-- The causes a command can raise whatever the state: those of R211, and the InvalidVersion that the
pseudocode of R140 has for the states no run reaches (10_state.md R28 item 7). -/
def raisable : Instr → List Cause
  | .pckData b => .invalidVersion :: tabledCauses (.pckData b)
  | i => tabledCauses i

theorem ne_none_of_mem_raisable {i : Instr} {c : Cause} (h : c ∈ raisable i) : c ≠ .none := by
  rintro rfl
  cases i <;> simp [raisable, tabledCauses] at h

/-- What the pseudocode of a command comes to raises a cause the command can raise, or leaves the fault
group alone. -/
def Effect.KeepsOrRaises (i : Instr) (s : State) : Effect → Prop
  | .raise c => c ∈ raisable i
  | .done u _ => SameFault s u

theorem Effect.KeepsOrRaises.raise {c : Cause} {i : Instr} {s : State}
    (h : (raisable i).contains c = true) : (Effect.raise c).KeepsOrRaises i s :=
  List.contains_iff_mem.mp h

theorem clsByteEffect_keepsOrRaises (b : Byte) (s : State) :
    (clsByteEffect b s).KeepsOrRaises (.clsByte b) s := by
  unfold clsByteEffect
  split
  · exact .raise rfl
  dsimp only
  split
  · exact ⟨rfl, rfl, rfl⟩
  · split
    · exact ⟨rfl, rfl, rfl⟩
    · exact ⟨rfl, rfl, rfl⟩

theorem clsEndEffect_keepsOrRaises (s : State) : (clsEndEffect s).KeepsOrRaises .clsEnd s := by
  unfold clsEndEffect
  split
  · exact ⟨rfl, rfl, rfl⟩
  · exact ⟨rfl, rfl, rfl⟩

theorem pckInitEffect_keepsOrRaises (ver : Nat) (ec : EcLevel) (s : State) :
    (pckInitEffect ver ec s).KeepsOrRaises (.pckInit ver ec) s := by
  unfold pckInitEffect
  split
  · exact .raise rfl
  · exact ⟨rfl, rfl, rfl⟩

theorem pckBitsEffect_keepsOrRaises (cfg : Config) (n value : Nat) (s : State) :
    (pckBitsEffect cfg n value s).KeepsOrRaises (.pckBits n value) s := by
  unfold pckBitsEffect
  split
  · exact .raise rfl
  split
  · exact .raise rfl
  split
  · exact .raise rfl
  split
  · exact .raise rfl
  · exact ⟨rfl, rfl, rfl⟩

theorem pckSegEffect_keepsOrRaises (cfg : Config) (mode count : Nat) (s : State) :
    (pckSegEffect cfg mode count s).KeepsOrRaises (.pckSeg mode count) s := by
  unfold pckSegEffect
  split
  · exact .raise rfl
  split
  · exact .raise rfl
  split
  · exact .raise rfl
  dsimp only
  split
  · exact .raise rfl
  split
  · exact .raise rfl
  · exact ⟨rfl, rfl, rfl⟩

theorem pckDataEffect_keepsOrRaises (cfg : Config) (b : Byte) (s : State) :
    (pckDataEffect cfg b s).KeepsOrRaises (.pckData b) s := by
  unfold pckDataEffect
  split
  · exact .raise rfl
  split
  · exact .raise rfl
  dsimp only
  split
  · exact .raise rfl
  · split
    · exact .raise rfl
    · exact ⟨rfl, rfl, rfl⟩
  · exact ⟨rfl, rfl, rfl⟩

theorem pckTermEffect_keepsOrRaises (cfg : Config) (s : State) :
    (pckTermEffect cfg s).KeepsOrRaises .pckTerm s := by
  unfold pckTermEffect
  split
  · exact .raise rfl
  split
  · exact .raise rfl
  split
  · exact .raise rfl
  · exact ⟨terminate_fault _ s, terminate_cause _ s, terminate_fcmd _ s⟩

theorem rseStartEffect_keepsOrRaises (n : Nat) (s : State) :
    (rseStartEffect n s).KeepsOrRaises (.rseStart n) s := by
  unfold rseStartEffect
  split
  · exact .raise rfl
  · exact ⟨rfl, rfl, rfl⟩

theorem rseDataEffect_keepsOrRaises (b : Byte) (s : State) :
    (rseDataEffect b s).KeepsOrRaises (.rseData b) s := by
  unfold rseDataEffect
  split
  · exact .raise rfl
  · exact ⟨rfl, rfl, rfl⟩

/-! ### A fault that is taken is a raise -/

/-- The command raised one of the causes it can raise, and did nothing else. -/
def RaisedItsOwn (i : Instr) (s t : State) : Prop :=
  ∃ c ∈ raisable i, t = raiseFault c (encode i) s

section
variable {i : Instr} {s t : State} (hs : s.fault = false) (ht : t.fault = true)
include hs ht

theorem gated_raisedItsOwn {e : Effect} (he : e.KeepsOrRaises i s) (h : gated i s e = .next t) :
    RaisedItsOwn i s t := by
  obtain ⟨hf, -⟩ | ⟨-, c, rfl, rfl⟩ | ⟨-, u, resp, rfl, rfl⟩ := gated_cases h
  · exact absurd (hf.symm.trans hs) (by decide)
  · exact ⟨c, he, rfl⟩
  · exact absurd ((ht.symm.trans he.fault).trans hs) (by decide)

theorem ReadOutcome.raisedItsOwn (hi : .illegalOperand ∈ raisable i) (h : ReadOutcome i s t) :
    RaisedItsOwn i s t := by
  cases h with
  | ignored => exact absurd (ht.symm.trans hs) (by decide)
  | raised => exact ⟨_, hi, rfl⟩
  | answered v => exact absurd (ht.symm.trans hs) (by decide)

theorem exec_raisedItsOwn (h : exec i s = .next t) : RaisedItsOwn i s t := by
  cases i with
  | nop => exact gated_raisedItsOwn hs ht (e := .done s .none) (SameFault.refl s) h
  | rst =>
    cases h
    cases ht
  | rdCsr a => exact (rdCsr_readOutcome h).raisedItsOwn hs ht (.head _)
  | clsClr => exact gated_raisedItsOwn hs ht (e := .done (clsClear s) .none) ⟨rfl, rfl, rfl⟩ h
  | clsByte b => exact gated_raisedItsOwn hs ht (clsByteEffect_keepsOrRaises b s) h
  | clsEnd => exact gated_raisedItsOwn hs ht (clsEndEffect_keepsOrRaises s) h
  | pckInit ver ec => exact gated_raisedItsOwn hs ht (pckInitEffect_keepsOrRaises ver ec s) h
  | pckBits n value => exact gated_raisedItsOwn hs ht (pckBitsEffect_keepsOrRaises _ n value s) h
  | pckSeg mode count =>
    exact gated_raisedItsOwn hs ht (pckSegEffect_keepsOrRaises _ mode count s) h
  | pckData b => exact gated_raisedItsOwn hs ht (pckDataEffect_keepsOrRaises _ b s) h
  | pckTerm => exact gated_raisedItsOwn hs ht (pckTermEffect_keepsOrRaises _ s) h
  | rdPbuf idx => exact (rdPbuf_readOutcome h).raisedItsOwn hs ht (.head _)
  | rseStart n => exact gated_raisedItsOwn hs ht (rseStartEffect_keepsOrRaises n s) h
  | rseData b => exact gated_raisedItsOwn hs ht (rseDataEffect_keepsOrRaises b s) h
  | rdEc idx => exact (rdEc_readOutcome h).raisedItsOwn hs ht (.head _)

/-- A presented word that sets FAULT is raised on, whether it is illegal or its command faults. -/
theorem step_eq_raiseFault {w : Word} {rest : List Input} (hinbox : s.inbox = .cmd w :: rest)
    (h : step s = .next t) : ∃ c, c ≠ .none ∧ t = raiseFault c w { s with inbox := rest } := by
  cases hd : decode w with
  | error e =>
    have hillegal := (decode_error_iff_isIllegalWord w).mp ⟨e, hd⟩
    rw [step_of_isIllegalWord hinbox hillegal hs] at h
    cases h
    exact ⟨.illegalCommand, nofun, rfl⟩
  | ok i =>
    rw [step_of_ok hinbox hd] at h
    have hs' : ({ s with inbox := rest } : State).fault = false := hs
    obtain ⟨c, hc, rfl⟩ := exec_raisedItsOwn hs' ht h
    exact ⟨c, ne_none_of_mem_raisable hc, by rw [encode_of_decode hd]⟩

end

/-- Settles O13: the step is a `raiseFault`, which is precise. -/
theorem faultEntryIsPrecise : Obligations.FaultEntryIsPrecise := by
  intro s t w rest hinbox hs h ht
  obtain ⟨c, hc, rfl⟩ := step_eq_raiseFault hs ht hinbox h
  exact ⟨c, hc, raiseFault_raised c w _, hs, rfl⟩

/-! ### A step of the faulted state -/

theorem decode_rdCsr {a : Nat} (ha : a ≤ 6) :
    decode (BitVec.ofNat 32 (0x02000000 + a)) = .ok (.rdCsr a) := by
  interval_cases a <;> rfl

/-- The registers do not show what the host will present. -/
theorem csrRead_inbox (s : State) (rest : List Input) (a : Nat) :
    csrRead { s with inbox := rest } a = csrRead s a := by
  unfold csrRead
  split <;> rfl

/-- Taking a word from the host is no change of the state tuple (10_state.md R21). -/
theorem inbox_sameTuple (s : State) (rest : List Input) : SameTuple s { s with inbox := rest } :=
  ⟨⟨rfl, rfl, rfl⟩, ⟨rfl, rfl, rfl⟩, ⟨⟨rfl, rfl⟩, ⟨rfl, rfl, rfl, rfl⟩, rfl, fun _ => rfl⟩,
    ⟨rfl, rfl⟩⟩

/-- A command other than RST and a valid RD.CSR is stopped by the gate. -/
theorem exec_ignored_of_faulted {i : Instr} {s : State} (hs : s.fault = true) (hrst : i ≠ .rst)
    (hcsr : ∀ a, a ≤ 6 → i ≠ .rdCsr a) : exec i s = .next (respond .none s) := by
  by_cases hread : ∃ a, i = .rdCsr a
  · obtain ⟨a, rfl⟩ := hread
    have ha : 6 < a := Nat.lt_of_not_le fun ha => hcsr a ha rfl
    exact (exec_rdCsr_invalid (csrRead_of_gt ha)).trans (gated_ignored _ hs)
  · exact exec_of_faulted hs hrst fun a ha => hread ⟨a, ha⟩

section
variable {s : State} {w : Word} {rest : List Input} (hinbox : s.inbox = .cmd w :: rest)
include hinbox

theorem step_rst (hw : w = 0x01000000) :
    step s = .next (respond .none (resetTuple { s with inbox := rest })) := by
  subst hw
  exact step_of_ok hinbox rfl

theorem step_rdCsr {a : Nat} (ha : a ≤ 6) (hw : w = BitVec.ofNat 32 (0x02000000 + a)) :
    ∃ v, csrRead s a = some v ∧ step s = .next (respond (.word v) { s with inbox := rest }) := by
  obtain ⟨v, hv⟩ := csrRead_of_lt (s := s) ha
  subst hw
  refine ⟨v, hv, (step_of_ok hinbox (decode_rdCsr ha)).trans (exec_rdCsr_valid ?_)⟩
  rw [csrRead_inbox, hv]

theorem step_of_faulted (hs : s.fault = true) (hrst : w ≠ 0x01000000)
    (hcsr : ∀ a, a ≤ 6 → w ≠ BitVec.ofNat 32 (0x02000000 + a)) :
    step s = .next (respond .none { s with inbox := rest }) := by
  cases hd : decode w with
  | error e =>
    have hillegal := (decode_error_iff_isIllegalWord w).mp ⟨e, hd⟩
    exact step_of_isIllegalWord_of_faulted hinbox hillegal hs
  | ok i =>
    have hword := encode_of_decode hd
    refine (step_of_ok hinbox hd).trans (exec_ignored_of_faulted hs ?_ ?_)
    · rintro rfl
      exact hrst hword.symm
    · rintro a ha rfl
      exact hcsr a ha hword.symm

end

/-- Settles O14: a reset, a read of a register, or the gate's `respond .none`. -/
theorem faultedBlockIgnoresCommands : Obligations.FaultedBlockIgnoresCommands := by
  intro s w rest hinbox hs
  refine ⟨?rst, ?rdCsr, ?others⟩
  case rst =>
    intro hw
    exact ⟨_, step_rst hinbox hw, isReset_respond_resetTuple _, rfl, rfl⟩
  case rdCsr =>
    intro a ha hw
    obtain ⟨v, hv, hstep⟩ := step_rdCsr hinbox ha hw
    exact ⟨_, v, hstep, hv, (inbox_sameTuple s rest).respond _, respond_answered _ _⟩
  case others =>
    intro hrst hcsr
    exact ⟨_, step_of_faulted hinbox hs hrst hcsr, respond_ignored _⟩

/-! ### The exits from the faulted state -/

/-- A presented word other than RST's leaves the faulted state faulted: it is read out or ignored. -/
theorem faulted_of_step {s t : State} {w : Word} {rest : List Input}
    (hinbox : s.inbox = .cmd w :: rest) (hs : s.fault = true) (hrst : w ≠ 0x01000000)
    (h : step s = .next t) : t.fault = true := by
  by_cases hcsr : ∃ a, a ≤ 6 ∧ w = BitVec.ofNat 32 (0x02000000 + a)
  · obtain ⟨a, ha, hw⟩ := hcsr
    obtain ⟨v, -, hstep⟩ := step_rdCsr hinbox ha hw
    cases hstep.symm.trans h
    exact hs
  · have hstep := step_of_faulted hinbox hs hrst fun a ha hw => hcsr ⟨a, ha, hw⟩
    cases hstep.symm.trans h
    exact hs

/-- With nothing presented there is no step (log entry 3). -/
theorem step_of_nil {s : State} (h : s.inbox = []) : step s = .fault .noInput := by
  simp only [step, h]

/-- Settles O15: by what the host presented. -/
theorem onlyResetLeavesTheFaultedState : Obligations.OnlyResetLeavesTheFaultedState := by
  intro s t hs h ht
  match hinbox : s.inbox with
  | [] => cases (step_of_nil hinbox).symm.trans h
  | .rst :: rest =>
    cases (step_of_rst hinbox).symm.trans h
    exact ⟨resetTuple_isReset _, rest, .inl rfl⟩
  | .cmd w :: rest =>
    by_cases hrst : w = 0x01000000
    · cases (step_rst hinbox hrst).symm.trans h
      exact ⟨isReset_respond_resetTuple _, rest, .inr (by rw [hrst])⟩
    · exact absurd ((faulted_of_step hinbox hs hrst h).symm.trans ht) (by decide)

end Sys2Proof.Machine
end

section
/-! PROOFS. The two resets (70_reset_and_hazards.md R240). The rst port and RST both come to `resetTuple`,
and so does `State.reset`, which is its own reset; RST adds only its response. -/

namespace Sys2Proof.Machine

/-- Resetting the reset state changes nothing, the host's lists included. -/
theorem resetTuple_reset : resetTuple State.reset = State.reset := rfl

theorem isReset_reset : IsReset State.reset := by
  rw [← resetTuple_reset]
  exact resetTuple_isReset _

/-- Settles O9: each of the three is a `resetTuple`. -/
theorem bothResetsLeaveTheResetValues : Obligations.BothResetsLeaveTheResetValues := by
  refine ⟨isReset_reset, ?port, ?command⟩
  case port =>
    intro s rest hinbox
    exact ⟨_, step_of_rst hinbox, resetTuple_isReset _⟩
  case command =>
    intro s
    exact ⟨_, exec_rst s, isReset_respond_resetTuple s⟩

end Sys2Proof.Machine
end

section
/-! PROOFS. Decoding and encoding undo each other (30_encoding.md sections 1, 4 and 5). An operand
field of `wordOf op low` is a field of `low`, so the decoder reads back what `encode` wrote; a
decoded command's operands are fields of the word, so they fit. The table of R78 then agrees with
the decoder, because a decoded word is the word of a well-formed command and every row has an opcode
of its own. -/

namespace Sys2Proof.Machine

/-! ### Decoding the word of a command -/

section
variable {op low : Nat}

theorem wordOf_toNat (hop : op < 2 ^ 8) (hlow : low < 2 ^ 24) :
    (wordOf op low).toNat = op * 2 ^ 24 + low :=
  word_toNat_of_lt (by omega)

theorem bits_wordOf_opcode (hop : op < 2 ^ 8) (hlow : low < 2 ^ 24) :
    bits (wordOf op low) 31 24 = op := by
  rw [bits, wordOf_toNat hop hlow]
  omega

/-- A field below the opcode is a field of the operand bits. -/
theorem bits_wordOf_low {hi lo : Nat} (hop : op < 2 ^ 8) (hlow : low < 2 ^ 24) (hhi : hi < 24)
    (hlo : lo ≤ hi) : bits (wordOf op low) hi lo = low / 2 ^ lo % 2 ^ (hi + 1 - lo) := by
  have hpow : 2 ^ 24 = 2 ^ lo * (2 ^ (hi + 1 - lo) * 2 ^ (23 - hi)) := by
    rw [← pow_add, ← pow_add]
    congr 1
    omega
  have hsplit : op * 2 ^ 24 + low =
      2 ^ lo * (2 ^ (hi + 1 - lo) * (op * 2 ^ (23 - hi))) + low := by
    rw [hpow]
    ring
  rw [bits, wordOf_toNat hop hlow, hsplit, Nat.mul_add_div (by positivity), Nat.mul_add_mod]

end

theorem ecLevel_ofCode_of_code (ec : EcLevel) : EcLevel.ofCode ec.code = ec := by cases ec <;> rfl

theorem takeOperands_of {zero : Bool} {i j : Instr} (hzero : zero = true) (hij : i = j) :
    takeOperands zero i = .ok j := by
  rw [hzero, hij]
  rfl

theorem decode_encode {i : Instr} (h : i.wellFormed = true) : decode (encode i) = .ok i := by
  cases i with
  | nop | rst | clsClr | clsEnd | pckTerm => rfl
  | clsByte b | pckData b | rseData b =>
    have hb := b.isLt
    simp (disch := omega) only [decode, encode, bits_wordOf_opcode, bits_wordOf_low]
    refine takeOperands_of (beq_iff_eq.mpr (by omega)) (congrArg _ ?_)
    exact BitVec.eq_of_toNat_eq (by rw [BitVec.toNat_ofNat]; omega)
  | rdCsr a | rseStart a | rdPbuf a | rdEc a =>
    have ha := of_decide_eq_true h
    simp (disch := omega) only [decode, encode, bits_wordOf_opcode, bits_wordOf_low]
    exact takeOperands_of (beq_iff_eq.mpr (by omega)) (congrArg _ (by omega))
  | pckInit ver ec =>
    have hver := of_decide_eq_true h
    have hec := ecLevel_code_lt ec
    simp (disch := omega) only [decode, encode, bits_wordOf_opcode, bits_wordOf_low]
    refine takeOperands_of (by simp only [Bool.and_eq_true, beq_iff_eq]; omega) ?_
    congr 1
    · omega
    · rw [show (ver * 2 ^ 8 + ec.code) / 2 ^ 0 % 2 ^ (1 + 1 - 0) = ec.code by omega,
        ecLevel_ofCode_of_code]
  | pckBits n value | pckSeg n value =>
    obtain ⟨hn, hvalue⟩ := Bool.and_eq_true_iff.mp h
    have hn := of_decide_eq_true hn
    have hvalue := of_decide_eq_true hvalue
    simp (disch := omega) only [decode, encode, bits_wordOf_opcode, bits_wordOf_low]
    exact takeOperands_of (beq_iff_eq.mpr (by omega)) (by congr 1 <;> omega)

/-- Settles O1. -/
theorem decodeOfEncodeIsTheCommand : Obligations.DecodeOfEncodeIsTheCommand :=
  fun _ => decode_encode

/-! ### The command a word decodes to -/

/-- Every operand is a field of the word, so it fits. -/
theorem wellFormed_of_decode {w : Word} {i : Instr} (h : decode w = .ok i) :
    i.wellFormed = true := by
  unfold decode at h
  split at h
  case h_16 => cases h
  all_goals obtain ⟨-, rfl⟩ := takeOperands_ok h
  case h_6 | h_9 => exact decide_eq_true (bits_lt w 7 0)
  case h_11 | h_12 => exact decide_eq_true (bits_lt w 15 0)
  case h_13 => exact decide_eq_true (bits_lt w 15 8)
  case h_14 =>
    exact Bool.and_eq_true_iff.mpr
      ⟨decide_eq_true (bits_lt w 20 16), decide_eq_true (bits_lt w 15 0)⟩
  case h_15 =>
    exact Bool.and_eq_true_iff.mpr
      ⟨decide_eq_true (bits_lt w 17 16), decide_eq_true (bits_lt w 15 0)⟩
  all_goals rfl

/-- Settles O2: both halves by the fields of the word. -/
theorem decodedWordIsTheCommandsWord : Obligations.DecodedWordIsTheCommandsWord :=
  fun _ _ h => ⟨wellFormed_of_decode h, encode_of_decode h⟩

/-! ### The match and mask table -/

theorem rowOf_matches_of_decode {w : Word} {i : Instr} (h : decode w = .ok i) :
    (rowOf i).matches w = true := by
  have hmatches := rowOf_matches_encode (wellFormed_of_decode h)
  rwa [encode_of_decode h] at hmatches

theorem decode_error_iff_no_row (w : Word) :
    (∃ e, decode w = .error e) ↔ ∀ row ∈ tableRows, row.matches w = false := by
  constructor
  · intro herror row hrow
    refine Bool.eq_false_iff.mpr fun hmatches => ?_
    exact not_isIllegalWord_of_matches hrow hmatches ((decode_error_iff_isIllegalWord w).mp herror)
  · intro hnone
    cases hd : decode w with
    | error e => exact ⟨e, rfl⟩
    | ok i =>
      have hrow := hnone _ (rowOf_mem_tableRows i)
      rw [rowOf_matches_of_decode hd] at hrow
      cases hrow

/-- Each row has an opcode of its own. -/
theorem tableRows_opcodes_distinct :
    tableRows.Pairwise fun row row' => bits row.mtch 31 24 ≠ bits row'.mtch 31 24 := by decide

/-- A word that matches a row has the row's opcode. -/
theorem opcode_of_matches {row : TableRow} {w : Word} (hrow : row ∈ tableRows)
    (h : row.matches w = true) : bits row.mtch 31 24 = bits w 31 24 := by
  obtain ⟨_, _, _, hopcode, _, _⟩ := tableRows_have_format row hrow
  rw [← eq_of_beq h, bits_and_of_covers (by decide) hopcode]

/-- Of rows that a word matches, and that have opcodes of their own, there is at most one. -/
theorem length_le_one_of_same_opcode {rows : List TableRow} {op : Nat}
    (hdistinct : rows.Pairwise fun row row' => bits row.mtch 31 24 ≠ bits row'.mtch 31 24)
    (hopcode : ∀ row ∈ rows, bits row.mtch 31 24 = op) : rows.length ≤ 1 := by
  match rows with
  | [] => exact Nat.zero_le 1
  | [_] => exact le_refl 1
  | row :: row' :: rows =>
    have hne := List.rel_of_pairwise_cons hdistinct (List.mem_cons_self ..)
    exact absurd ((hopcode row (by simp)).trans (hopcode row' (by simp)).symm) hne

theorem matching_rows_length_le_one (w : Word) :
    (tableRows.filter fun row => row.matches w).length ≤ 1 := by
  refine length_le_one_of_same_opcode (op := bits w 31 24) (tableRows_opcodes_distinct.filter _) ?_
  intro row hrow
  obtain ⟨hmem, hmatches⟩ := List.mem_filter.mp hrow
  exact opcode_of_matches hmem hmatches

/-- Settles O3: a decoded word is its command's word, which matches the command's row. -/
theorem matchAndMaskTableIsTheDecoder : Obligations.MatchAndMaskTableIsTheDecoder :=
  ⟨fun _ _ => rowOf_matches_of_decode, decode_error_iff_no_row, matching_rows_length_le_one⟩

/-! ### The printed examples -/

/-- Settles O4: each printed word is its command's word. -/
theorem assemblerExamples : Obligations.AssemblerExamples :=
  ⟨decode_encode (i := .pckInit 1 .Q) rfl, decode_encode (i := .pckSeg 1 11) rfl,
    decode_encode (i := .pckData 0x48) rfl, decode_encode (i := .pckBits 4 2) rfl,
    decode_encode (i := .rseStart 13) rfl, decode_encode (i := .rdEc 12) rfl,
    decode_encode (i := .rdCsr 0) rfl, decode_encode (i := .pckInit 41 .L) rfl⟩

end Sys2Proof.Machine
end

section
/-! PROOFS. What a command can do, said once: a command is ignored, or it raises a cause it can
raise, or it completes as one of the cases of `Performs`, whose arguments are the conditions under
which the pseudocode gets there. Every statement below about every command is a case analysis of
these. -/

namespace Sys2Proof.Machine

/-! ### What a completed command does -/

/-- The command completes: the conditions it was let through by, and the next state. -/
inductive Performs (cfg : Config) (s : State) : Instr → State → Prop
  | nop : Performs cfg s .nop (respond .none s)
  | rst : Performs cfg s .rst (respond .none (resetTuple s))
  | rdCsr {a : Nat} (v : Word) (read : csrRead s a = some v) :
      Performs cfg s (.rdCsr a) (respond (.word v) s)
  | clsClr : Performs cfg s .clsClr (respond .none (clsClear s))
  | clsByte {b : Byte} {segBegin : BitVec 16} {resp : Response} (room : s.pos.toNat < 65535)
      (outcome : ByteOutcome b s segBegin resp) :
      Performs cfg s (.clsByte b) (respond resp
        (setCls (stateOf (classOf b)) (BitVec.ofNat 16 (s.pos.toNat + 1)) segBegin s))
  | clsEnd : Performs cfg s .clsEnd (respond (emission s (modeOf s.cstate)) (clsClear s))
  | pckInit {ver : Nat} {ec : EcLevel} (low : 1 ≤ ver) (high : ver ≤ 40) :
      Performs cfg s (.pckInit ver ec) (respond .none (setPacking 0#16 [] .numeric 0#16 0#7 0
        { s with version := BitVec.ofNat 6 ver, ecl := ec }))
  | pckBits {n value c : Nat} (closed : s.rem = 0#16) (cap : capacity cfg s = some c)
      (room : s.len.toNat + n ≤ c) :
      Performs cfg s (.pckBits n value) (respond .none (push n value s))
  | pckSeg {m : Mode} {count c : Nat} (closed : s.rem = 0#16) (cap : capacity cfg s = some c)
      (room : s.len.toNat + 4 + lenBits m s.version.toNat ≤ c) :
      Performs cfg s (.pckSeg (modeCode m) count) (respond .none
        { push (lenBits m s.version.toNat) count (push 4 (modeInd m) s) with
          curMode := m, rem := BitVec.ofNat 16 count, acc := 0#7, accN := 0 })
  | emit {b : Byte} {n v c : Nat} (opened : s.rem ≠ 0#16) (cap : capacity cfg s = some c)
      (group : dataGroup s.curMode s.acc.toNat s.accN.val (s.rem.toNat - 1) b = .emit n v)
      (room : s.len.toNat + n ≤ c) :
      Performs cfg s (.pckData b) (respond .none
        { push n v s with acc := 0#7, accN := 0, rem := BitVec.ofNat 16 (s.rem.toNat - 1) })
  | keep {b : Byte} {a k : Nat} (opened : s.rem ≠ 0#16)
      (group : dataGroup s.curMode s.acc.toNat s.accN.val (s.rem.toNat - 1) b = .keep a k) :
      Performs cfg s (.pckData b) (respond .none
        { s with acc := BitVec.ofNat 7 a, accN := Fin.ofNat 3 k,
                 rem := BitVec.ofNat 16 (s.rem.toNat - 1) })
  | pckTerm {c : Nat} (closed : s.rem = 0#16) (cap : capacity cfg s = some c)
      (room : s.len.toNat ≤ c) : Performs cfg s .pckTerm (respond .none (terminate c s))
  | rdPbuf {idx : Nat} (valid : ¬ pbufBytes ≤ idx) : Performs cfg s (.rdPbuf idx)
      (respond (.word ((Memory.read s.buf idx).setWidth 32)) s)
  | rseStart {n : Nat} (low : 1 ≤ n) (high : n ≤ 30) : Performs cfg s (.rseStart n)
      (respond .none (setRse (Fin.ofNat 31 n) (Vector.replicate 30 0#8) s))
  | rseData {b : Byte} {r : Vector Byte 30} (started : s.n ≠ 0)
      (shift : r = shiftRegister s.n.val (genCoeffs s.n.val) (b ^^^ remainder s 0) s.r) :
      Performs cfg s (.rseData b) (respond .none (setRse s.n r s))
  | rdEc {idx : Nat} (valid : ¬ s.n.val ≤ idx) : Performs cfg s (.rdEc idx)
      (respond (.word ((remainder s idx).setWidth 32)) s)

/-! ### The pseudocode completes in these ways only -/

section
variable {cfg : Config} {s u : State} {resp : Response}

theorem clsByteEffect_performs {b : Byte} (h : clsByteEffect b s = .done u resp) :
    Performs cfg s (.clsByte b) (respond resp u) := by
  by_cases hpos : s.pos.toNat = 65535
  · rw [clsByteEffect_overflow hpos] at h
    cases h
  · have hroom : s.pos.toNat < 65535 := by have := s.pos.isLt; omega
    obtain ⟨segBegin, resp, houtcome, heffect⟩ := clsByteEffect_counted (b := b) hroom
    rw [heffect] at h
    cases h
    exact .clsByte hroom houtcome

theorem clsEndEffect_performs (h : clsEndEffect s = .done u resp) :
    Performs cfg s .clsEnd (respond resp u) := by
  rw [clsEndEffect_eq] at h
  cases h
  exact .clsEnd

theorem pckInitEffect_performs {ver : Nat} {ec : EcLevel}
    (h : pckInitEffect ver ec s = .done u resp) :
    Performs cfg s (.pckInit ver ec) (respond resp u) := by
  by_cases hver : 1 ≤ ver ∧ ver ≤ 40
  · rw [pckInitEffect_done hver.1 hver.2] at h
    cases h
    exact .pckInit hver.1 hver.2
  · rw [pckInitEffect_invalidVersion (by omega)] at h
    cases h

theorem pckBitsEffect_performs {n value : Nat} (h : pckBitsEffect cfg n value s = .done u resp) :
    Performs cfg s (.pckBits n value) (respond resp u) := by
  unfold pckBitsEffect at h
  split_ifs at h with hop hrem
  split at h
  case h_1 => cases h
  case h_2 c hcap =>
    split_ifs at h with hlong
    cases h
    exact .pckBits (not_not.mp hrem) hcap (Nat.le_of_not_lt hlong)

theorem modeCode_of_modeOfCode {mode : Nat} {m : Mode} (h : modeOfCode mode = some m) :
    mode = modeCode m := by
  unfold modeOfCode at h
  split at h <;> cases h <;> rfl

theorem pckSegEffect_performs {mode count : Nat}
    (h : pckSegEffect cfg mode count s = .done u resp) :
    Performs cfg s (.pckSeg mode count) (respond resp u) := by
  unfold pckSegEffect at h
  split at h
  case h_1 => cases h
  case h_2 m hmode =>
    obtain rfl := modeCode_of_modeOfCode hmode
    split_ifs at h with hrem
    split at h
    case h_1 => cases h
    case h_2 c hcap =>
      dsimp only at h
      split_ifs at h with hcount hlong
      cases h
      exact .pckSeg (not_not.mp hrem) hcap (Nat.le_of_not_lt hlong)

theorem pckDataEffect_performs {b : Byte} (h : pckDataEffect cfg b s = .done u resp) :
    Performs cfg s (.pckData b) (respond resp u) := by
  unfold pckDataEffect at h
  split_ifs at h with hrem
  split at h
  case h_1 => cases h
  case h_2 c hcap =>
    dsimp only at h
    split at h
    case h_1 => cases h
    case h_2 n v hgroup =>
      split_ifs at h with hlong
      cases h
      exact .emit hrem hcap hgroup (Nat.le_of_not_lt hlong)
    case h_3 a k hgroup =>
      cases h
      exact .keep hrem hgroup

theorem pckTermEffect_performs (h : pckTermEffect cfg s = .done u resp) :
    Performs cfg s .pckTerm (respond resp u) := by
  unfold pckTermEffect at h
  split_ifs at h with hrem
  split at h
  case h_1 => cases h
  case h_2 c hcap =>
    split_ifs at h with hlong
    cases h
    exact .pckTerm (not_not.mp hrem) hcap (Nat.le_of_not_lt hlong)

theorem rseStartEffect_performs {n : Nat} (h : rseStartEffect n s = .done u resp) :
    Performs cfg s (.rseStart n) (respond resp u) := by
  by_cases hn : n = 0 ∨ necMax < n
  · rw [rseStartEffect, if_pos hn] at h
    cases h
  · have h30 : 1 ≤ n ∧ n ≤ 30 := by unfold necMax at hn; omega
    rw [rseStartEffect_done h30.1 h30.2] at h
    cases h
    exact .rseStart h30.1 h30.2

theorem rseDataEffect_performs {b : Byte} (h : rseDataEffect b s = .done u resp) :
    Performs cfg s (.rseData b) (respond resp u) := by
  by_cases hn : s.n = 0
  · rw [rseDataEffect, if_pos hn] at h
    cases h
  · rw [rseDataEffect_done hn] at h
    cases h
    exact .rseData hn rfl

end

/-! ### Every command is ignored, raises, or completes -/

/-- What executing a command comes to. -/
inductive ExecOutcome (i : Instr) (s : State) : State → Prop
  | ignored (faulted : s.fault = true) : ExecOutcome i s (respond .none s)
  | raised (c : Cause) (unfaulted : s.fault = false) (raisable : c ∈ raisable i) :
      ExecOutcome i s (raiseFault c (encode i) s)
  | performed {t : State} (performs : Performs defaultConfig s i t) : ExecOutcome i s t

section
variable {i : Instr} {s t : State}

theorem execOutcome_of_gated {e : Effect} (hraises : e.KeepsOrRaises i s)
    (hdone : ∀ {u resp}, e = .done u resp → Performs defaultConfig s i (respond resp u))
    (h : gated i s e = .next t) : ExecOutcome i s t := by
  obtain ⟨hs, rfl⟩ | ⟨hs, c, rfl, rfl⟩ | ⟨-, u, resp, he, rfl⟩ := gated_cases h
  · exact .ignored hs
  · exact .raised c hs hraises
  · exact .performed (hdone he)

theorem readEffect_keepsOrRaises {p : Prop} [Decidable p] {v : Word}
    (hi : (raisable i).contains .illegalOperand = true) :
    (if p then Effect.raise .illegalOperand else .done s (.word v)).KeepsOrRaises i s := by
  split
  · exact .raise hi
  · exact SameFault.refl s

/-- A reading command whose operand is checked. -/
theorem execOutcome_of_gated_read {p : Prop} [Decidable p] {v : Word}
    (hi : (raisable i).contains .illegalOperand = true)
    (hdone : ¬ p → Performs defaultConfig s i (respond (.word v) s))
    (h : gated i s (if p then .raise .illegalOperand else .done s (.word v)) = .next t) :
    ExecOutcome i s t := by
  refine execOutcome_of_gated (readEffect_keepsOrRaises hi) (fun {u resp} he => ?_) h
  split_ifs at he with hp
  cases he
  exact hdone hp

theorem execOutcome (h : exec i s = .next t) : ExecOutcome i s t := by
  cases i with
  | nop =>
    cases (exec_nop_eq_respond s).symm.trans h
    exact .performed .nop
  | rst =>
    cases h
    exact .performed .rst
  | rdCsr a =>
    cases hread : csrRead s a with
    | some v =>
      cases (exec_rdCsr_valid hread).symm.trans h
      exact .performed (.rdCsr v hread)
    | none =>
      exact execOutcome_of_gated (.raise rfl) nofun ((exec_rdCsr_invalid hread).symm.trans h)
  | clsClr =>
    refine execOutcome_of_gated (e := .done (clsClear s) .none) ⟨rfl, rfl, rfl⟩ ?_ h
    rintro u resp ⟨⟩
    exact .clsClr
  | clsByte b =>
    exact execOutcome_of_gated (clsByteEffect_keepsOrRaises b s) clsByteEffect_performs h
  | clsEnd => exact execOutcome_of_gated (clsEndEffect_keepsOrRaises s) clsEndEffect_performs h
  | pckInit ver ec =>
    exact execOutcome_of_gated (pckInitEffect_keepsOrRaises ver ec s) pckInitEffect_performs h
  | pckBits n value =>
    exact execOutcome_of_gated (pckBitsEffect_keepsOrRaises _ n value s) pckBitsEffect_performs h
  | pckSeg mode count =>
    exact execOutcome_of_gated (pckSegEffect_keepsOrRaises _ mode count s) pckSegEffect_performs h
  | pckData b =>
    exact execOutcome_of_gated (pckDataEffect_keepsOrRaises _ b s) pckDataEffect_performs h
  | pckTerm => exact execOutcome_of_gated (pckTermEffect_keepsOrRaises _ s) pckTermEffect_performs h
  | rdPbuf idx => exact execOutcome_of_gated_read rfl .rdPbuf h
  | rseStart n =>
    exact execOutcome_of_gated (rseStartEffect_keepsOrRaises n s) rseStartEffect_performs h
  | rseData b =>
    exact execOutcome_of_gated (rseDataEffect_keepsOrRaises b s) rseDataEffect_performs h
  | rdEc idx => exact execOutcome_of_gated_read rfl .rdEc h

end

end Sys2Proof.Machine
end

section
/-! PROOFS. What a step takes from the host, what a command may write, and the length of the stream
(30_encoding.md R74, 10_state.md R28 item 10 and R29). A command that is ignored or raises writes
nothing but the fault group; what a completed command leaves alone is said one group at a time, by
the cases of `Performs`. -/

namespace Sys2Proof.Machine

/-! ### The step -/

/-- Settles O5: the state with the word put back and taken again is the state. -/
theorem stepRunsTheDecodedCommand : Obligations.StepRunsTheDecodedCommand := by
  refine ⟨fun s w i rest => step_of_ok, fun s w i hd hw => ?_⟩
  have hinbox : (s.withFetchWord 32 w).inbox = .cmd (BitVec.ofNat 32 w) :: s.inbox := by
    rw [State.withFetchWord, Nat.mod_eq_of_lt hw]
  exact step_of_ok hinbox hd

theorem exec_next (i : Instr) (s : State) : ∃ t, exec i s = .next t := by
  cases i with
  | rst => exact ⟨_, exec_rst s⟩
  | rdCsr a =>
    cases hread : csrRead s a with
    | some v => exact ⟨_, exec_rdCsr_valid hread⟩
    | none => exact (exec_rdCsr_invalid hread).symm ▸ gated_next _ s _
  | nop => exact ⟨_, exec_nop_eq_respond s⟩
  | clsClr => exact (exec_clsClr s).symm ▸ gated_next _ s _
  | _ => exact gated_next _ s _

/-- Settles O6: a presented word is executed or is illegal, and every command completes. -/
theorem everyPresentedWordHasANextState : Obligations.EveryPresentedWordHasANextState := by
  refine ⟨fun s hs => ?_, exec_next, fun s => step_of_nil⟩
  match hinbox : s.inbox with
  | [] => exact absurd hinbox hs
  | .rst :: rest => exact ⟨_, step_of_rst hinbox⟩
  | .cmd w :: rest =>
    cases hd : decode w with
    | ok i => exact (step_of_ok hinbox hd).symm ▸ exec_next i _
    | error e => exact ⟨_, step_of_error hinbox hd⟩

section
variable {cfg : Config} {i : Instr} {s t : State}

/-- No command takes anything from the host's list. -/
theorem Performs.inbox (h : Performs cfg s i t) : t.inbox = s.inbox := by
  cases h with
  | pckTerm => exact terminate_inbox _ s
  | _ => rfl

theorem exec_inbox (h : exec i s = .next t) : t.inbox = s.inbox := by
  cases execOutcome h with
  | ignored => rfl
  | raised => rfl
  | performed h => exact h.inbox

end

/-- Settles O7: the word is taken by the step, and its command takes none and responds once. -/
theorem oneResponsePerTransaction : Obligations.OneResponsePerTransaction := by
  constructor
  · intro s t w rest hinbox h
    cases hd : decode w with
    | ok i =>
      rw [step_of_ok hinbox hd] at h
      obtain ⟨resp, hresps, -⟩ := exec_responds h
      exact ⟨exec_inbox h, resp, hresps⟩
    | error e =>
      cases (step_of_error hinbox hd).symm.trans h
      unfold executeIllegal
      split
      · exact ⟨rfl, .none, rfl⟩
      · exact ⟨rfl, .none, rfl⟩
  · intro s t rest hinbox h
    cases (step_of_rst hinbox).symm.trans h
    exact ⟨rfl, rfl⟩

/-! ### The write matrix -/

section
variable {cfg : Config} {i : Instr} {s t : State} (h : Performs cfg s i t)
include h

theorem Performs.sameFault (hrst : i ≠ .rst) : SameFault s t := by
  cases h with
  | rst => exact absurd rfl hrst
  | pckTerm => exact ((terminate_onlyStream _ s).respond .none).fault
  | _ => exact ⟨rfl, rfl, rfl⟩

theorem Performs.sameCls (hrst : i ≠ .rst) (hunit : i.unit ≠ .cls) : SameCls s t := by
  cases h with
  | rst => exact absurd rfl hrst
  | clsClr | clsByte | clsEnd => exact absurd rfl hunit
  | pckTerm => exact ((terminate_onlyStream _ s).respond .none).cls
  | _ => exact ⟨rfl, rfl, rfl⟩

theorem Performs.sameTarget (hrst : i ≠ .rst) (hinit : ∀ ver ec, i ≠ .pckInit ver ec) :
    SameTarget s t := by
  cases h with
  | rst => exact absurd rfl hrst
  | pckInit => exact absurd rfl (hinit _ _)
  | pckTerm => exact ((terminate_onlyStream _ s).respond .none).target
  | _ => exact ⟨rfl, rfl⟩

theorem Performs.sameStream (hrst : i ≠ .rst) (hinit : ∀ ver ec, i ≠ .pckInit ver ec)
    (happend : appendsToBuffer i = false) : t.len = s.len ∧ t.buf = s.buf := by
  cases h with
  | rst => exact absurd rfl hrst
  | pckInit => exact absurd rfl (hinit _ _)
  | pckBits | pckSeg | emit | keep | pckTerm => cases happend
  | _ => exact ⟨rfl, rfl⟩

theorem Performs.sameSegment (hrst : i ≠ .rst) (hinit : ∀ ver ec, i ≠ .pckInit ver ec)
    (hseg : ∀ m k, i ≠ .pckSeg m k) (hdata : ∀ b, i ≠ .pckData b) : SameSegment s t := by
  cases h with
  | rst => exact absurd rfl hrst
  | pckInit => exact absurd rfl (hinit _ _)
  | pckSeg => exact absurd rfl (hseg _ _)
  | emit | keep => exact absurd rfl (hdata _)
  | pckTerm => exact ((terminate_onlyStream _ s).respond .none).segment
  | _ => exact ⟨rfl, rfl, rfl, rfl⟩

theorem Performs.sameN (hrst : i ≠ .rst) (hstart : ∀ k, i ≠ .rseStart k) : t.n = s.n := by
  cases h with
  | rst => exact absurd rfl hrst
  | rseStart => exact absurd rfl (hstart _)
  | pckTerm => exact ((terminate_onlyStream _ s).respond .none).rse.n
  | _ => rfl

theorem Performs.sameR (hrst : i ≠ .rst) (hstart : ∀ k, i ≠ .rseStart k)
    (hdata : ∀ b, i ≠ .rseData b) : t.r = s.r := by
  cases h with
  | rst => exact absurd rfl hrst
  | rseStart => exact absurd rfl (hstart _)
  | rseData => exact absurd rfl (hdata _)
  | pckTerm => exact ((terminate_onlyStream _ s).respond .none).rse.r
  | _ => rfl

end

/-- A command that reads, or does nothing, and completes. -/
theorem Performs.sameTuple {cfg : Config} {i : Instr} {s t : State} (h : Performs cfg s i t)
    (hi : i = .nop ∨ (∃ a, i = .rdCsr a) ∨ (∃ a, i = .rdPbuf a) ∨ ∃ a, i = .rdEc a) :
    SameTuple s t := by
  obtain rfl | ⟨a, rfl⟩ | ⟨a, rfl⟩ | ⟨a, rfl⟩ := hi <;> cases h <;> exact respond_sameTuple _ s

/-- What a command does that does not complete: at most the fault group is written, and then FAULT
is set that was clear. -/
structure OnlyFaults (s t : State) : Prop where
  fault : t.fault = s.fault → SameFault s t
  stays : s.fault = true → t.fault = true
  cls : SameCls s t
  pck : SamePck s t
  rse : SameRse s t

theorem ExecOutcome.performs_or_onlyFaults {i : Instr} {s t : State} (h : ExecOutcome i s t) :
    Performs defaultConfig s i t ∨ OnlyFaults s t := by
  cases h with
  | performed h => exact .inl h
  | ignored hs =>
    obtain ⟨hfault, hcls, hpck, hrse⟩ := respond_sameTuple .none s
    exact .inr ⟨fun _ => hfault, fun _ => hs, hcls, hpck, hrse⟩
  | raised c hs _ =>
    have hraised := raiseFault_raised c (encode i) s
    refine .inr ⟨fun hf => ?_, fun _ => rfl, hraised.cls, hraised.pck, hraised.rse⟩
    simp [hs] at hf

/-- Settles O51: one clause for each group, from what the cases of `Performs` leave alone. -/
theorem writeMatrix : Obligations.WriteMatrix := by
  intro i s t h hrst
  obtain h | h := (execOutcome h).performs_or_onlyFaults
  · have hfault := h.sameFault hrst
    refine ⟨fun _ => hfault, fun hs => hfault.fault.trans hs, fun hs ht => ?raises, h.sameCls hrst,
      h.sameTarget hrst, fun hinit happend => ?stream, h.sameSegment hrst, h.sameN hrst,
      h.sameR hrst, fun hread _ => h.sameTuple hread⟩
    case raises => exact absurd ((ht.symm.trans hfault.fault).trans hs) (by decide)
    case stream =>
      obtain ⟨hlen, hbuf⟩ := h.sameStream hrst hinit happend
      exact ⟨hlen, fun a => by rw [hbuf]⟩
  · exact ⟨h.fault, h.stays, fun _ _ => ⟨h.cls, h.pck, h.rse⟩, fun _ => h.cls,
      fun _ => h.pck.target,
      fun _ _ => ⟨h.pck.len, h.pck.buf⟩, fun _ _ _ => h.pck.segment, fun _ => h.rse.n,
      fun _ _ => h.rse.r, fun _ hf => ⟨h.fault hf, h.cls, h.pck, h.rse⟩⟩

/-! ### The length of the stream -/

theorem push_header_len {s : State} {wd ind count : Nat}
    (hfits : s.len.toNat + 4 + wd ≤ 8 * pbufBytes) :
    (push wd count (push 4 ind s)).len.toNat = s.len.toNat + 4 + wd := by
  have hind : (push 4 ind s).len.toNat = s.len.toNat + 4 :=
    push_len_toNat ((Nat.le_add_right _ wd).trans hfits)
  rw [push_len_toNat (by rwa [hind]), hind]

/-- A completed command leaves LEN alone, or takes it up within the capacity. -/
theorem Performs.len {cfg : Config} {i : Instr} {s t : State} (h : Performs cfg s i t)
    (hrst : i ≠ .rst) (hinit : ∀ ver ec, i ≠ .pckInit ver ec) :
    t.len = s.len ∨
      ∃ c, capacity cfg s = some c ∧ s.len.toNat ≤ t.len.toNat ∧ t.len.toNat ≤ c := by
  cases h with
  | rst => exact absurd rfl hrst
  | pckInit => exact absurd rfl (hinit _ _)
  | @pckBits n value c closed cap room =>
    obtain ⟨-, hmax, -⟩ := capacity_bounds cap
    have hlen := push_len_toNat (v := value) (room.trans hmax)
    exact .inr ⟨c, cap, hlen.symm ▸ Nat.le_add_right _ _, hlen.symm ▸ room⟩
  | @pckSeg m count c closed cap room =>
    obtain ⟨-, hmax, -⟩ := capacity_bounds cap
    have hlen := push_header_len (ind := modeInd m) (count := count) (room.trans hmax)
    exact .inr ⟨c, cap, hlen.symm ▸ by omega, hlen.symm ▸ room⟩
  | @emit b n v c opened cap group room =>
    obtain ⟨-, hmax, -⟩ := capacity_bounds cap
    have hlen := push_len_toNat (v := v) (room.trans hmax)
    exact .inr ⟨c, cap, hlen.symm ▸ Nat.le_add_right _ _, hlen.symm ▸ room⟩
  | @pckTerm c closed cap room =>
    obtain ⟨-, hmax, hmod⟩ := capacity_bounds cap
    have hlen := terminate_len hmod hmax room
    exact .inr ⟨c, cap, hlen.symm ▸ room, hlen.le⟩
  | _ => exact .inl rfl

/-- Settles O34: a completed command's length, for any configuration. -/
theorem appendsFitEveryConfiguration : Obligations.AppendsFitEveryConfiguration := by
  intro cfg s t c resp hcap hl
  have appends : ∀ {i}, Performs cfg s i (respond resp t) → i ≠ .rst →
      (∀ ver ec, i ≠ .pckInit ver ec) → s.len.toNat ≤ t.len.toNat ∧ t.len.toNat ≤ c := by
    intro i h hrst hinit
    obtain hsame | ⟨c', hcap', hlow, hhigh⟩ := h.len hrst hinit
    · rw [respond_len] at hsame
      exact ⟨hsame ▸ le_refl _, hsame ▸ hl⟩
    · cases hcap.symm.trans hcap'
      exact ⟨hlow, hhigh⟩
  refine ⟨fun n value h => appends (pckBitsEffect_performs h) nofun nofun,
    fun mode count h => appends (pckSegEffect_performs h) nofun nofun,
    fun b h => appends (pckDataEffect_performs h) nofun nofun, fun h => ?term⟩
  case term =>
    by_cases hrem : s.rem = 0#16
    · obtain ⟨-, hmax, hmod⟩ := capacity_bounds hcap
      cases (pckTermEffect_done hrem hcap hl).symm.trans h
      exact terminate_len hmod hmax hl
    · cases (pckTermEffect_badSequence hrem).symm.trans h

/-- Settles O35: a command that does not complete leaves LEN alone. -/
theorem lenNeverDecreases : Obligations.LenNeverDecreases := by
  intro i s t hrst hinit h
  obtain h | h := (execOutcome h).performs_or_onlyFaults
  · obtain hsame | ⟨_, -, hlow, -⟩ := h.len hrst hinit
    · exact hsame ▸ le_refl _
    · exact hlow
  · exact h.pck.len ▸ le_refl _

end Sys2Proof.Machine
end

section
/-! PROOFS. The invariants of 10_state.md R28. They are taken apart by the groups of the state: each
group's invariants speak of its own registers, so a command keeps those of a group it does not
write, and for the groups it writes the cases of `Performs` are looked at one by one. The partial
group of item 6 is one predicate on the mode, the value and the count, which the case distinction of
PCK.DATA keeps. -/

namespace Sys2Proof.Machine

/-! ### The partial group (42_packer.md R140, R28 item 6) -/

/-- The value and the number of the characters that a segment of the mode may hold back. -/
def HeldGroup : Mode → Nat → Nat → Prop
  | .numeric, a, k => (k = 0 ∧ a = 0) ∨ (k = 1 ∧ a ≤ 9) ∨ (k = 2 ∧ a ≤ 99)
  | .alphanumeric, a, k => (k = 0 ∧ a = 0) ∨ (k = 1 ∧ a ≤ 44)
  | .byte, a, k => k = 0 ∧ a = 0

theorem heldGroup_empty (m : Mode) : HeldGroup m 0 0 := by
  cases m with
  | numeric => exact .inl ⟨rfl, rfl⟩
  | alphanumeric => exact .inl ⟨rfl, rfl⟩
  | byte => exact ⟨rfl, rfl⟩

theorem HeldGroup.bounds {m : Mode} {a k : Nat} (h : HeldGroup m a k) : a ≤ 99 ∧ k ≤ 2 := by
  cases m <;> simp only [HeldGroup] at h <;> omega

theorem digit_le (b : Byte) (h : validIn .numeric b = true) : digit b ≤ 9 := by
  have hb := of_decide_eq_true h
  unfold digit
  omega

theorem alnum_le (b : Byte) : alnum b ≤ 44 := by
  unfold alnum
  cases hv : alnumValue b with
  | none => exact Nat.zero_le _
  | some v =>
    have hplace := (alnumValue_eq_some_iff b v).mp hv
    have hlt := (List.getElem?_eq_some_iff.mp hplace).1
    exact Nat.le_of_lt_succ hlt

section
variable {m : Mode} {acc accN rem1 : Nat} {b : Byte}

theorem validIn_of_dataGroup {g : Group} (h : dataGroup m acc accN rem1 b = g) (hg : g ≠ .bad) :
    validIn m b = true := by
  by_contra hbad
  exact hg (h.symm.trans (dataGroup_of_not_validIn (Bool.eq_false_iff.mpr hbad) acc accN rem1))

/-- A completed group fits its width (R140 corner case 2). -/
theorem dataGroup_emit {n v : Nat} (held : HeldGroup m acc accN)
    (h : dataGroup m acc accN rem1 b = .emit n v) : n ≤ 11 ∧ v < 2 ^ n := by
  have hvalid := validIn_of_dataGroup h nofun
  cases m with
  | numeric =>
    have hdigit := digit_le b hvalid
    rw [dataGroup_numeric hvalid] at h
    simp only [HeldGroup] at held
    split_ifs at h <;> cases h <;> omega
  | alphanumeric =>
    have halnum := alnum_le b
    rw [dataGroup_alphanumeric hvalid] at h
    simp only [HeldGroup] at held
    split_ifs at h <;> cases h <;> omega
  | byte =>
    cases h
    exact ⟨by decide, b.isLt⟩

/-- A group that is kept is a partial group again, and characters are awaited. -/
theorem dataGroup_keep {a k : Nat} (held : HeldGroup m acc accN)
    (h : dataGroup m acc accN rem1 b = .keep a k) : HeldGroup m a k ∧ 1 ≤ k ∧ rem1 ≠ 0 := by
  have hvalid := validIn_of_dataGroup h nofun
  cases m with
  | numeric =>
    have hdigit := digit_le b hvalid
    rw [dataGroup_numeric hvalid] at h
    simp only [HeldGroup] at held ⊢
    split_ifs at h
    cases h
    omega
  | alphanumeric =>
    have halnum := alnum_le b
    rw [dataGroup_alphanumeric hvalid] at h
    simp only [HeldGroup] at held ⊢
    split_ifs at h
    cases h
    omega
  | byte => cases h

end

/-! ### The invariants by group -/

/-- R28 item 1. -/
structure ClsInv (s : State) : Prop where
  init : s.cstate = .init → s.pos = 0#16 ∧ s.segBegin = 0#16
  order : s.segBegin.toNat ≤ s.pos.toNat
  run : s.cstate ≠ .init → 1 ≤ s.pos.toNat ∧ s.segBegin.toNat < s.pos.toNat

/-- R28 items 3 and 4, and the canonical form: the stream is in the buffer, and nothing else is. -/
structure StreamInv (s : State) : Prop where
  bufWf : Memory.wf s.buf = true
  fits : ∀ c, capacity defaultConfig s = some c → s.len.toNat ≤ c
  zero : ∀ p, s.len.toNat ≤ p → Memory.readBit s.buf p = false

/-- R28 items 6 and 7. -/
structure SegmentInv (s : State) : Prop where
  held : HeldGroup s.curMode s.acc.toNat s.accN.val
  closed : s.rem = 0#16 → s.acc = 0#7 ∧ s.accN = 0
  opened : s.rem ≠ 0#16 → s.version ≠ 0#6

/-- R28 item 8. -/
def RseInv (s : State) : Prop := ∀ i : Fin 30, s.n.val ≤ i.val → s.r[i] = 0#8

/-- R28 item 9. -/
structure FaultInv (s : State) : Prop where
  clear : s.fault = false → s.cause = .none ∧ s.fcmd = 0#32
  set : s.fault = true → s.cause ≠ .none

theorem heldGroup_iff (s : State) : HeldGroup s.curMode s.acc.toNat s.accN.val ↔
    (s.curMode = .numeric → (s.accN = 0 → s.acc = 0#7) ∧ (s.accN = 1 → s.acc.toNat ≤ 9) ∧
      (s.accN = 2 → s.acc.toNat ≤ 99)) ∧
    (s.curMode = .alphanumeric → s.accN.val ≤ 1 ∧ (s.accN = 0 → s.acc = 0#7) ∧
      (s.accN = 1 → s.acc.toNat ≤ 44)) ∧
    (s.curMode = .byte → s.accN = 0 ∧ s.acc = 0#7) := by
  have hacc : s.acc = 0#7 ↔ s.acc.toNat = 0 := by bv_omega
  have hk := s.accN.isLt
  simp only [hacc, Fin.ext_iff, Fin.isValue, Fin.val_zero, Fin.val_one, Fin.val_two]
  cases s.curMode <;> simp [HeldGroup] <;> omega

theorem inv_iff (s : State) : Inv s ↔
    ClsInv s ∧ StreamInv s ∧ SegmentInv s ∧ s.version.toNat ≤ 40 ∧ RseInv s ∧ FaultInv s := by
  constructor
  · intro h
    exact ⟨⟨h.clsInit, h.clsOrder, h.clsRun⟩, ⟨h.bufWf, h.lenFits, h.bufZero⟩,
      ⟨(heldGroup_iff s).mpr ⟨h.numericGroup, h.alnumGroup, h.byteGroup⟩, h.noGroup, h.openVersion⟩,
      h.version, h.rZero, ⟨h.noFault, h.faulted⟩⟩
  · rintro ⟨hcls, hstream, hsegment, hversion, hrse, hfault⟩
    obtain ⟨hnumeric, halnum, hbyte⟩ := (heldGroup_iff s).mp hsegment.held
    exact ⟨hstream.bufWf, hcls.init, hcls.order, hcls.run, hversion, hstream.fits, hstream.zero,
      hsegment.closed, hnumeric, halnum, hbyte, hsegment.opened, hrse, hfault.clear, hfault.set⟩

/-! ### A group's invariants speak of its own registers -/

section
variable {s t : State}

theorem ClsInv.congr (hs : ClsInv s) (h : SameCls s t) : ClsInv t where
  init := by rw [h.cstate, h.pos, h.segBegin]; exact hs.init
  order := by rw [h.pos, h.segBegin]; exact hs.order
  run := by rw [h.cstate, h.pos, h.segBegin]; exact hs.run

theorem StreamInv.congr (hs : StreamInv s) (h : SameTarget s t) (hlen : t.len = s.len)
    (hbuf : t.buf = s.buf) : StreamInv t where
  bufWf := by rw [hbuf]; exact hs.bufWf
  fits := by rw [capacity_congr h.version h.ecl, hlen]; exact hs.fits
  zero := by rw [hlen, hbuf]; exact hs.zero

theorem SegmentInv.congr (hs : SegmentInv s) (hv : t.version = s.version) (h : SameSegment s t) :
    SegmentInv t where
  held := by rw [h.curMode, h.acc, h.accN]; exact hs.held
  closed := by rw [h.rem, h.acc, h.accN]; exact hs.closed
  opened := by rw [h.rem, hv]; exact hs.opened

theorem RseInv.congr (hs : RseInv s) (h : SameRse s t) : RseInv t := by
  unfold RseInv
  rw [h.n, h.r]
  exact hs

theorem FaultInv.congr (hs : FaultInv s) (h : SameFault s t) : FaultInv t where
  clear := by rw [h.fault, h.cause, h.fcmd]; exact hs.clear
  set := by rw [h.fault, h.cause]; exact hs.set

end

/-! ### Reset -/

/-- Settles O50: nothing is counted, packed, divided or faulted. -/
theorem resetMeetsTheInvariants : Obligations.ResetMeetsTheInvariants := by
  refine (inv_iff _).mpr ⟨⟨fun _ => ⟨rfl, rfl⟩, le_refl _, fun h => absurd rfl h⟩,
    ⟨rfl, fun c _ => Nat.zero_le c, fun p _ => ?stream⟩, ⟨heldGroup_empty _, fun _ => ⟨rfl, rfl⟩,
    fun h => absurd rfl h⟩, by decide, fun i _ => ?registers, ⟨fun _ => ⟨rfl, rfl⟩, nofun⟩⟩
  case stream => exact BitVec.getLsbD_zero
  case registers => exact Vector.getElem_replicate i.isLt

/-! ### The classifier -/

section
variable {cfg : Config} {i : Instr} {s t : State}

theorem ClsInv.clear (s : State) (resp : Response) : ClsInv (respond resp (clsClear s)) :=
  ⟨fun _ => ⟨rfl, rfl⟩, le_refl _, fun h => absurd rfl h⟩

/-- The run a byte leaves in progress began at a position already counted. -/
theorem ByteOutcome.segBegin_le {b : Byte} {segBegin : BitVec 16} {resp : Response}
    (h : ByteOutcome b s segBegin resp) (hs : ClsInv s) : segBegin.toNat ≤ s.pos.toNat := by
  cases h with
  | starts => exact le_refl _
  | counts => exact hs.order
  | closes => exact le_refl _

theorem ClsInv.performs (hs : ClsInv s) (h : Performs cfg s i t) : ClsInv t := by
  by_cases hunit : i.unit = .cls
  · cases h with
    | clsClr => exact .clear s _
    | clsEnd => exact .clear s _
    | clsByte room outcome =>
      have hle := outcome.segBegin_le hs
      have hcount : (BitVec.ofNat 16 (s.pos.toNat + 1)).toNat = s.pos.toNat + 1 :=
        Nat.mod_eq_of_lt (by omega)
      refine ⟨fun hinit => absurd hinit (stateOf_ne_init _), ?_, fun _ => ?_⟩
      · simp only [respond_pos, respond_segBegin, setCls, hcount]
        omega
      · simp only [respond_pos, respond_segBegin, setCls, hcount]
        omega
    | _ => cases hunit
  · by_cases hrst : i = .rst
    · subst hrst
      cases h
      exact ((inv_iff _).mp resetMeetsTheInvariants).1.congr ⟨rfl, rfl, rfl⟩
    · exact hs.congr (h.sameCls hrst hunit)

end

/-! ### The stream -/

section
variable {s : State} {c : Nat}

theorem StreamInv.push {n v : Nat} (hs : StreamInv s) (hcap : capacity defaultConfig s = some c)
    (hroom : s.len.toNat + n ≤ c) : StreamInv (push n v s) := by
  obtain ⟨-, hmax, -⟩ := capacity_bounds hcap
  have hlen := push_len_toNat (v := v) (hroom.trans hmax)
  refine ⟨push_bufWf n v hs.bufWf, fun c' hcap' => ?fits, fun p hp => ?zero⟩
  case fits =>
    cases hcap.symm.trans hcap'
    rwa [hlen]
  case zero =>
    rw [hlen] at hp
    rw [push_readBit hs.bufWf (hroom.trans hmax), if_neg (by omega), hs.zero p (by omega)]

theorem StreamInv.header {m : Mode} {count : Nat} (hs : StreamInv s)
    (hcap : capacity defaultConfig s = some c)
    (hroom : s.len.toNat + 4 + lenBits m s.version.toNat ≤ c) :
    StreamInv (Machine.push (lenBits m s.version.toNat) count (Machine.push 4 (modeInd m) s)) := by
  obtain ⟨-, hmax, -⟩ := capacity_bounds hcap
  have hind : (Machine.push 4 (modeInd m) s).len.toNat = s.len.toNat + 4 :=
    push_len_toNat (by omega)
  exact (hs.push hcap (by omega)).push hcap (by rwa [hind])

theorem StreamInv.terminate (hs : StreamInv s) (hcap : capacity defaultConfig s = some c)
    (hl : s.len.toNat ≤ c) : StreamInv (terminate c s) := by
  obtain ⟨-, hmax, hmod⟩ := capacity_bounds hcap
  have hlen := terminate_len hmod hmax hl
  have hsame := capacity_congr (cfg := defaultConfig) (terminate_version c s) (terminate_ecl c s)
  refine ⟨?wf, fun c' hcap' => ?fits, fun p hp => ?zero⟩
  case wf =>
    rw [terminate_buf hmod hmax hl]
    exact padCodewords_bufWf _ true hs.bufWf
  case fits =>
    cases hcap.symm.trans (hsame.symm.trans hcap')
    exact hlen.le
  case zero =>
    rw [Memory.readBit, terminate_read_other hmod hmax hl (.inr (by omega))]
    exact hs.zero p (by omega)

end

/-! ### The packer -/

section
variable {i : Instr} {s t : State}

theorem StreamInv.performs (hs : StreamInv s) (h : Performs defaultConfig s i t) : StreamInv t := by
  cases h with
  | rst => exact ((inv_iff _).mp resetMeetsTheInvariants).2.1.congr ⟨rfl, rfl⟩ rfl rfl
  | pckInit =>
    exact ⟨rfl, fun c _ => Nat.zero_le c, fun p _ => BitVec.getLsbD_zero⟩
  | pckBits closed cap room => exact (hs.push cap room).congr ⟨rfl, rfl⟩ rfl rfl
  | pckSeg closed cap room => exact (hs.header cap room).congr ⟨rfl, rfl⟩ rfl rfl
  | emit opened cap group room => exact (hs.push cap room).congr ⟨rfl, rfl⟩ rfl rfl
  | pckTerm closed cap room => exact (hs.terminate cap room).congr ⟨rfl, rfl⟩ rfl rfl
  | _ => exact hs.congr ⟨rfl, rfl⟩ rfl rfl

/-- A segment without a partial group. -/
theorem SegmentInv.empty (hacc : t.acc = 0#7) (haccN : t.accN = 0)
    (hversion : t.rem ≠ 0#16 → t.version ≠ 0#6) : SegmentInv t where
  held := by rw [hacc, haccN]; exact heldGroup_empty _
  closed _ := ⟨hacc, haccN⟩
  opened := hversion

theorem version_ne_zero_of_capacity {cfg : Config} {c : Nat} (h : capacity cfg s = some c) :
    s.version ≠ 0#6 := by
  obtain ⟨hlow, -, -⟩ := capacity_eq_some h
  intro hzero
  rw [hzero] at hlow
  cases hlow

theorem SegmentInv.keep {a k : Nat} {b : Byte} (hs : SegmentInv s) (opened : s.rem ≠ 0#16)
    (group : dataGroup s.curMode s.acc.toNat s.accN.val (s.rem.toNat - 1) b = .keep a k) :
    SegmentInv { s with acc := BitVec.ofNat 7 a, accN := Fin.ofNat 3 k,
                        rem := BitVec.ofNat 16 (s.rem.toNat - 1) } := by
  obtain ⟨hheld, -, hmore⟩ := dataGroup_keep hs.held group
  obtain ⟨ha, hk⟩ := hheld.bounds
  have hacc : (BitVec.ofNat 7 a).toNat = a := Nat.mod_eq_of_lt (by omega)
  have haccN : (Fin.ofNat 3 k).val = k := Nat.mod_eq_of_lt (by omega)
  refine ⟨by rwa [hacc, haccN], fun hzero => absurd ?_ hmore, fun _ => hs.opened opened⟩
  rw [← rem_pred_toNat s]
  exact congrArg BitVec.toNat hzero

theorem SegmentInv.performs {cfg : Config} (hs : SegmentInv s) (h : Performs cfg s i t) :
    SegmentInv t := by
  cases h with
  | rst => exact .empty rfl rfl fun h => absurd rfl h
  | pckInit => exact .empty rfl rfl fun h => absurd rfl h
  | pckSeg closed cap => exact .empty rfl rfl fun _ => version_ne_zero_of_capacity cap
  | emit opened cap => exact .empty rfl rfl fun _ => version_ne_zero_of_capacity cap
  | keep opened group => exact (hs.keep opened group).congr rfl ⟨rfl, rfl, rfl, rfl⟩
  | @pckTerm c =>
    have hframe := (terminate_onlyStream c s).respond .none
    exact hs.congr hframe.target.version hframe.segment
  | _ => exact hs.congr rfl ⟨rfl, rfl, rfl, rfl⟩

theorem Performs.version_le {cfg : Config} (h : Performs cfg s i t) (hs : s.version.toNat ≤ 40) :
    t.version.toNat ≤ 40 := by
  cases h with
  | rst => exact Nat.zero_le _
  | pckInit low high => exact (Nat.mod_le _ _).trans high
  | pckTerm => exact (terminate_version _ s).symm ▸ hs
  | _ => exact hs

/-! ### The divider -/

theorem shiftRegister_above {n : Nat} {i : Fin 30} (hi : n ≤ i.val) (g : List Byte) (f : Byte)
    (r : Vector Byte 30) : (shiftRegister n g f r)[i] = r[i] := by
  refine (Vector.getElem_ofFn i.isLt).trans ?_
  rw [if_neg (by simp only; omega), if_neg (by simp only; omega)]

theorem RseInv.performs {cfg : Config} (hs : RseInv s) (h : Performs cfg s i t) : RseInv t := by
  cases h with
  | rst => exact fun i _ => Vector.getElem_replicate i.isLt
  | rseStart => exact fun i _ => Vector.getElem_replicate i.isLt
  | rseData started shift =>
    intro i hi
    subst shift
    exact (shiftRegister_above hi _ _ _).trans (hs i hi)
  | pckTerm => exact hs.congr ((terminate_onlyStream _ s).respond .none).rse
  | _ => exact hs.congr ⟨rfl, rfl⟩

/-! ### The fault group -/

theorem FaultInv.reset : FaultInv State.reset := ⟨fun _ => ⟨rfl, rfl⟩, nofun⟩

theorem FaultInv.performs {cfg : Config} (hs : FaultInv s) (h : Performs cfg s i t) :
    FaultInv t := by
  by_cases hrst : i = .rst
  · subst hrst
    cases h
    exact FaultInv.reset.congr ⟨rfl, rfl, rfl⟩
  · exact hs.congr (h.sameFault hrst)

/-! ### Every step -/

theorem Inv.performs (hs : Inv s) (h : Performs defaultConfig s i t) : Inv t := by
  obtain ⟨hcls, hstream, hsegment, hversion, hrse, hfault⟩ := (inv_iff s).mp hs
  exact (inv_iff t).mpr ⟨hcls.performs h, hstream.performs h, hsegment.performs h,
    h.version_le hversion, hrse.performs h, hfault.performs h⟩

/-- The invariants speak of the state tuple, and of the fault group apart from the rest. -/
theorem Inv.congr (hs : Inv s) (hcls : SameCls s t) (hpck : SamePck s t) (hbuf : t.buf = s.buf)
    (hrse : SameRse s t) (hfault : FaultInv t) : Inv t := by
  obtain ⟨hscls, hsstream, hssegment, hsversion, hsrse, -⟩ := (inv_iff s).mp hs
  exact (inv_iff t).mpr ⟨hscls.congr hcls, hsstream.congr hpck.target hpck.len hbuf,
    hssegment.congr hpck.target.version hpck.segment, hpck.target.version.symm ▸ hsversion,
    hsrse.congr hrse, hfault⟩

theorem Inv.respond (hs : Inv s) (resp : Response) : Inv (respond resp s) := by
  obtain ⟨hfault, hcls, hpck, hrse⟩ := respond_sameTuple resp s
  obtain ⟨-, -, -, -, -, hsfault⟩ := (inv_iff s).mp hs
  exact hs.congr hcls hpck rfl hrse (hsfault.congr hfault)

theorem Inv.inbox (hs : Inv s) (rest : List Input) : Inv { s with inbox := rest } := by
  obtain ⟨hfault, hcls, hpck, hrse⟩ := inbox_sameTuple s rest
  obtain ⟨-, -, -, -, -, hsfault⟩ := (inv_iff s).mp hs
  exact hs.congr hcls hpck rfl hrse (hsfault.congr hfault)

theorem Inv.raiseFault {c : Cause} (hs : Inv s) (hc : c ≠ .none) (w : Word) :
    Inv (raiseFault c w s) :=
  have hraised := raiseFault_raised c w s
  hs.congr hraised.cls hraised.pck rfl hraised.rse ⟨nofun, fun _ => hc⟩

theorem Inv.exec (hs : Inv s) (h : exec i s = .next t) : Inv t := by
  cases execOutcome h with
  | ignored => exact hs.respond .none
  | raised c _ hc => exact hs.raiseFault (ne_none_of_mem_raisable hc) _
  | performed h => exact hs.performs h

theorem Inv.executeIllegal (hs : Inv s) (w : Word) : Inv (executeIllegal w s) := by
  unfold Machine.executeIllegal
  split
  · exact hs.respond .none
  · exact hs.raiseFault (c := .illegalCommand) nofun w

/-- Settles O49: a pulse resets, an illegal word is ignored or raises, and a command's outcome keeps
every group's invariants. -/
theorem stepKeepsTheInvariants : Obligations.StepKeepsTheInvariants := by
  intro s t hs h
  match hinbox : s.inbox with
  | [] => cases (step_of_nil hinbox).symm.trans h
  | .rst :: rest =>
    cases (step_of_rst hinbox).symm.trans h
    exact resetMeetsTheInvariants.congr ⟨rfl, rfl, rfl⟩
      ⟨⟨rfl, rfl⟩, ⟨rfl, rfl, rfl, rfl⟩, rfl, fun _ => rfl⟩ rfl ⟨rfl, rfl⟩
      (FaultInv.reset.congr ⟨rfl, rfl, rfl⟩)
  | .cmd w :: rest =>
    cases hd : decode w with
    | ok i => exact (hs.inbox rest).exec ((step_of_ok hinbox hd).symm.trans h)
    | error e =>
      cases (step_of_error hinbox hd).symm.trans h
      exact (hs.inbox rest).executeIllegal w

/-! ### What the invariants exclude -/

/-- Settles O38. -/
theorem groupsFitTheirWidths : Obligations.GroupsFitTheirWidths := by
  intro s b hs _
  obtain ⟨-, -, hsegment, -⟩ := (inv_iff s).mp hs
  refine ⟨fun n v => dataGroup_emit hsegment.held, fun a k hkeep => ?_⟩
  obtain ⟨hheld, hk, -⟩ := dataGroup_keep hsegment.held hkeep
  obtain ⟨ha, hk'⟩ := hheld.bounds
  exact ⟨ha, hk, hk'⟩

/-- With a segment open the packer has a capacity, so PCK.DATA does not raise InvalidVersion. -/
theorem pckDataEffect_ne_invalidVersion {b : Byte} (hs : Inv s) :
    pckDataEffect defaultConfig b s ≠ .raise .invalidVersion := by
  by_cases hrem : s.rem = 0#16
  · rw [pckDataEffect_badSequence hrem]
    nofun
  · have hversion := hs.openVersion hrem
    have hcap := capacity_of_version (cfg := defaultConfig) (s := s) (by bv_omega) hs.version
    intro h
    unfold pckDataEffect at h
    rw [if_neg hrem, hcap] at h
    dsimp only at h
    split at h
    · cases h
    · split_ifs at h
      cases h
    · cases h

theorem mem_tabledCauses_of_raisable {i : Instr} {c : Cause} (h : c ∈ raisable i)
    (hdata : ∀ b, i = .pckData b → c ≠ .invalidVersion) : c ∈ tabledCauses i := by
  cases i with
  | pckData b => exact (List.mem_cons.mp h).resolve_left (hdata b rfl)
  | _ => exact h

/-- Settles O16: a fault is one of the command's own, and of these R211 leaves out only the
InvalidVersion that the invariants exclude. -/
theorem commandsRaiseOnlyTheirTabledCauses : Obligations.CommandsRaiseOnlyTheirTabledCauses := by
  refine ⟨rfl, fun i s t hinv hs h ht => ?_⟩
  obtain ⟨c, hc, rfl⟩ := exec_raisedItsOwn hs ht h
  refine mem_tabledCauses_of_raisable hc ?_
  rintro b rfl rfl
  obtain ⟨hf, -⟩ | ⟨-, c, he, heq⟩ | ⟨-, u, resp, he, heq⟩ := gated_cases h
  · exact absurd (hf.symm.trans hs) (by decide)
  · obtain rfl : Cause.invalidVersion = c := congrArg State.cause heq
    exact pckDataEffect_ne_invalidVersion hinv he
  · have hkeeps := pckDataEffect_keepsOrRaises defaultConfig b s
    rw [show pckDataEffect defaultConfig b s = .done u resp from he] at hkeeps
    have hset : u.fault = true := (congrArg State.fault heq).symm
    exact absurd ((hset.symm.trans hkeeps.fault).trans hs) (by decide)

end

end Sys2Proof.Machine
end

section
/-! PROOFS. The classifier's transition table and what a classification emits (41_classifier.md R112
and R116). The segments emitted so far, and the run in progress as one more segment, are a
segmentation of the bytes fed so far: a byte of the run's class extends the last segment, another
byte adds one, and CLS.END emits the last. Two segmentations of one input are equal, because where
the first segments end apart a byte would have two modes. -/

namespace Sys2Proof.Machine

/-! ### The transition table -/

theorem transition_some_state (c : ClsState) (k : CharClass) :
    (transition c (some k)).1 = stateOf k := by
  cases c <;> cases k <;> rfl

/-- A byte of another class closes the run in progress, if there is one. -/
theorem transition_some_mode (c : ClsState) (k : CharClass) :
    (transition c (some k)).2 = if c = stateOf k then none else modeOf c := by
  cases c <;> cases k <;> rfl

theorem transition_none (c : ClsState) : transition c none = (.init, modeOf c) := by
  cases c <;> rfl

/-- The outcomes of a byte are the entries of the table. -/
theorem ByteOutcome.transition {b : Byte} {s : State} {segBegin : BitVec 16} {resp : Response}
    (h : ByteOutcome b s segBegin resp) :
    resp = emission s (transition s.cstate (some (classOf b))).2 ∧
    ((transition s.cstate (some (classOf b))).2 ≠ none → segBegin = s.pos) := by
  rw [transition_some_mode]
  cases h with
  | starts hinit =>
    rw [hinit]
    simp [modeOf, emission]
  | counts hsame => simp [hsame, emission]
  | closes m hm hother => simp [hother, hm, emission]

theorem exec_clsByte_of_room {b : Byte} {s : State} (hs : s.fault = false)
    (hroom : s.pos.toNat < 65535) : ∃ segBegin resp, ByteOutcome b s segBegin resp ∧
      exec (.clsByte b) s = .next (respond resp
        (setCls (stateOf (classOf b)) (BitVec.ofNat 16 (s.pos.toNat + 1)) segBegin s)) := by
  obtain ⟨segBegin, resp, houtcome, heffect⟩ := clsByteEffect_counted (b := b) hroom
  exact ⟨segBegin, resp, houtcome, exec_of_effect_done (exec_clsByte b s) hs heffect⟩

theorem exec_clsEnd_of_unfaulted {s : State} (hs : s.fault = false) :
    exec .clsEnd s = .next (respond (emission s (modeOf s.cstate)) (clsClear s)) :=
  exec_of_effect_done (exec_clsEnd s) hs (clsEndEffect_eq s)

/-- Settles O20: the column of a byte by its outcome, the column End by the clearing. -/
theorem classifierTransitionTable : Obligations.ClassifierTransitionTable := by
  refine ⟨fun s b hs hpos => ?_, fun s hs => ?_⟩
  · have hroom : s.pos.toNat < 65535 := by bv_omega
    obtain ⟨segBegin, resp, houtcome, hexec⟩ := exec_clsByte_of_room (b := b) hs hroom
    obtain ⟨rfl, hbegin⟩ := houtcome.transition
    exact ⟨_, hexec, (transition_some_state _ _).symm, setCls_answered .., hbegin⟩
  · rw [transition_none]
    exact ⟨_, exec_clsEnd_of_unfaulted hs, rfl, setCls_answered ..⟩

/-! ### Segmentations -/

/-- A segment of an input: its mode, where it begins and where it ends. -/
abbrev Segment := Mode × Nat × Nat

theorem adjacentDiffer_iff (segs : List Segment) :
    AdjacentDiffer segs ↔ segs.IsChain fun x y => x.1 ≠ y.1 := by
  match segs with
  | [] => simp [AdjacentDiffer]
  | [x] => simp [AdjacentDiffer]
  | x :: y :: segs => rw [AdjacentDiffer, List.isChain_cons_cons, adjacentDiffer_iff (y :: segs)]

theorem covers_append {lo hi : Nat} {xs ys : List Segment} :
    Covers lo hi (xs ++ ys) ↔ ∃ mid, Covers lo mid xs ∧ Covers mid hi ys := by
  induction xs generalizing lo with
  | nil => simp [Covers]
  | cons x xs ih => simp only [List.cons_append, Covers, ih, ← exists_and_left, and_assoc]

theorem Covers.le {lo hi : Nat} {segs : List Segment} (h : Covers lo hi segs) : lo ≤ hi := by
  induction segs generalizing lo with
  | nil => exact le_of_eq h
  | cons x segs ih =>
    obtain ⟨rfl, hlt, hrest⟩ := h
    exact hlt.le.trans (ih hrest)

theorem Covers.end_le {lo hi : Nat} {segs : List Segment} (h : Covers lo hi segs) :
    ∀ x ∈ segs, x.2.2 ≤ hi := by
  induction segs generalizing lo with
  | nil => nofun
  | cons x segs ih =>
    obtain ⟨rfl, hlt, hrest⟩ := h
    exact List.forall_mem_cons.mpr ⟨hrest.le, ih hrest⟩

/-- The mode of a byte's class. -/
def byteMode (b : Byte) : Option Mode := modeOf (stateOf (classOf b))

/-- Every byte of the segment has the segment's mode. -/
def OfOneMode (d : List Byte) (x : Segment) : Prop :=
  ∀ i b, x.2.1 ≤ i → i < x.2.2 → d[i]? = some b → byteMode b = some x.1

theorem OfOneMode.append {d : List Byte} {x : Segment} (h : OfOneMode d x) (hx : x.2.2 ≤ d.length)
    (b : Byte) : OfOneMode (d ++ [b]) x := by
  intro i c hlo hhi hc
  rw [List.getElem?_append_left (by omega)] at hc
  exact h i c hlo hhi hc

/-- A segment that ends with the input, and one more byte of its mode. -/
theorem OfOneMode.extend {d : List Byte} {m : Mode} {first : Nat} {b : Byte}
    (h : OfOneMode d (m, first, d.length)) (hb : byteMode b = some m) :
    OfOneMode (d ++ [b]) (m, first, d.length + 1) := by
  intro i c hlo hhi hc
  rcases Nat.lt_or_ge i d.length with hi | hi
  · rw [List.getElem?_append_left hi] at hc
    exact h i c hlo hi hc
  · rw [List.getElem?_append_right hi, show i - d.length = 0 by simp only at hhi; omega] at hc
    cases hc
    exact hb

section
variable {d : List Byte} {segs : List Segment} {m : Mode} {first : Nat}

/-- The segmentation of an input of at least one byte, by its last segment. -/
theorem isSegmentation_concat_iff :
    IsSegmentation d (segs ++ [(m, first, d.length)]) ↔
      Covers 0 first segs ∧ first < d.length ∧ (∀ x ∈ segs, OfOneMode d x) ∧
      OfOneMode d (m, first, d.length) ∧ AdjacentDiffer (segs ++ [(m, first, d.length)]) := by
  constructor
  · rintro ⟨hcovers, hclasses, hmaximal⟩
    obtain ⟨mid, hsegs, rfl, hlt, -⟩ := covers_append.mp hcovers
    exact ⟨hsegs, hlt, fun x hx => hclasses x (List.mem_append_left _ hx),
      hclasses _ (List.mem_append_right _ (List.mem_singleton_self _)), hmaximal⟩
  · rintro ⟨hcovers, hlt, hsegs, hlast, hmaximal⟩
    refine ⟨covers_append.mpr ⟨first, hcovers, rfl, hlt, rfl⟩, fun x hx => ?_, hmaximal⟩
    obtain hx | hx := List.mem_append.mp hx
    · exact hsegs x hx
    · obtain rfl := List.mem_singleton.mp hx
      exact hlast

/-- Whether adjacent segments differ does not depend on where the last one ends. -/
theorem AdjacentDiffer.move {last last' : Nat} (h : AdjacentDiffer (segs ++ [(m, first, last)])) :
    AdjacentDiffer (segs ++ [(m, first, last')]) := by
  rw [adjacentDiffer_iff, List.isChain_append] at h ⊢
  simpa using h

/-- A byte of the last segment's mode extends that segment. -/
theorem IsSegmentation.extend {b : Byte} (h : IsSegmentation d (segs ++ [(m, first, d.length)]))
    (hb : byteMode b = some m) :
    IsSegmentation (d ++ [b]) (segs ++ [(m, first, d.length + 1)]) := by
  obtain ⟨hcovers, hlt, hsegs, hlast, hmaximal⟩ := isSegmentation_concat_iff.mp h
  have hlen : (d ++ [b]).length = d.length + 1 := List.length_append
  rw [← hlen]
  refine isSegmentation_concat_iff.mpr ⟨hcovers, by omega, fun x hx => ?_, ?_, hmaximal.move⟩
  · exact (hsegs x hx).append ((hcovers.end_le x hx).trans hlt.le) b
  · rw [hlen]
    exact hlast.extend hb

/-- A byte of another mode than the last segment's begins a segment. -/
theorem IsSegmentation.begin {b : Byte} (h : IsSegmentation d segs) (hb : byteMode b = some m)
    (hother : ∀ x ∈ segs.getLast?, x.1 ≠ m) :
    IsSegmentation (d ++ [b]) (segs ++ [(m, d.length, d.length + 1)]) := by
  have hlen : (d ++ [b]).length = d.length + 1 := List.length_append
  rw [← hlen]
  refine isSegmentation_concat_iff.mpr ⟨h.covers, by omega, fun x hx => ?_, ?_, ?_⟩
  · exact OfOneMode.append (h.classes x hx) (h.covers.end_le x hx) b
  · rw [hlen]
    exact OfOneMode.extend (fun i _ hlo hhi => absurd (hlo.trans_lt hhi) (lt_irrefl _)) hb
  · rw [adjacentDiffer_iff, List.isChain_append]
    refine ⟨(adjacentDiffer_iff segs).mp h.maximal, List.isChain_singleton _, ?_⟩
    rintro x hx y ⟨⟩
    exact hother x hx

end

/-! ### At most one segmentation -/

/-- Where two segmentations begin alike, the first segment of the one does not end before that of
the other: the byte there would have two modes. -/
theorem first_end_le {d : List Byte} {lo hi last last' : Nat} {m : Mode} {segs : List Segment}
    (hhi : hi ≤ d.length) (hlo : lo < last) (hrest : Covers last hi segs)
    (hdiffer : AdjacentDiffer ((m, lo, last) :: segs)) (hsegs : ∀ x ∈ segs, OfOneMode d x)
    (hlast' : last' ≤ hi) (hother : OfOneMode d (m, lo, last')) : last' ≤ last := by
  by_contra hlt
  have hlt : last < last' := Nat.lt_of_not_le hlt
  cases segs with
  | nil =>
    have hend : last = hi := hrest
    omega
  | cons y segs =>
    obtain ⟨hfirst, hylt, -⟩ := hrest
    have hget : d[last]? = some d[last] := List.getElem?_eq_getElem (by omega)
    have hy := hsegs y (List.mem_cons_self ..) last _ hfirst.le (hfirst ▸ hylt) hget
    have hm := hother last _ hlo.le hlt hget
    exact hdiffer.1 (Option.some_injective _ (hm.symm.trans hy))

/-- Two segments that begin at the same byte of the input have the same mode. -/
theorem OfOneMode.mode_eq {d : List Byte} {m m' : Mode} {lo last last' : Nat}
    (h : OfOneMode d (m, lo, last)) (h' : OfOneMode d (m', lo, last')) (hd : lo < d.length)
    (hlast : lo < last) (hlast' : lo < last') : m = m' := by
  have hget : d[lo]? = some d[lo] := List.getElem?_eq_getElem hd
  exact Option.some_injective _ ((h lo _ le_rfl hlast hget).symm.trans (h' lo _ le_rfl hlast' hget))

theorem AdjacentDiffer.tail {x : Segment} {segs : List Segment} (h : AdjacentDiffer (x :: segs)) :
    AdjacentDiffer segs :=
  (adjacentDiffer_iff segs).mpr ((adjacentDiffer_iff _).mp h).tail

theorem Covers.eq_nil {lo : Nat} {segs : List Segment} (h : Covers lo lo segs) : segs = [] := by
  cases segs with
  | nil => rfl
  | cons x segs =>
    obtain ⟨rfl, hlt, hrest⟩ := h
    exact absurd (hlt.trans_le hrest.le) (lt_irrefl _)

theorem segmentation_unique {d : List Byte} {lo : Nat} {xs ys : List Segment}
    (hx : Covers lo d.length xs) (hy : Covers lo d.length ys)
    (hxd : AdjacentDiffer xs) (hyd : AdjacentDiffer ys)
    (hxm : ∀ x ∈ xs, OfOneMode d x) (hym : ∀ y ∈ ys, OfOneMode d y) : xs = ys := by
  induction xs generalizing lo ys with
  | nil =>
    have hend : lo = d.length := hx
    subst hend
    exact hy.eq_nil.symm
  | cons x xs ih =>
    cases ys with
    | nil =>
      have hend : lo = d.length := hy
      subst hend
      exact hx.eq_nil
    | cons y ys =>
      obtain ⟨m, first, last⟩ := x
      obtain ⟨m', first', last'⟩ := y
      obtain ⟨rfl, hlt, hxrest⟩ := hx
      obtain ⟨rfl, hlt', hyrest⟩ := hy
      obtain ⟨hx, hxs⟩ := List.forall_mem_cons.mp hxm
      obtain ⟨hy, hys⟩ := List.forall_mem_cons.mp hym
      obtain rfl := hx.mode_eq hy (hlt.trans_le hxrest.le) hlt hlt'
      obtain rfl : last = last' := le_antisymm
        (first_end_le le_rfl hlt' hyrest hyd hys hxrest.le hx)
        (first_end_le le_rfl hlt hxrest hxd hxs hyrest.le hy)
      rw [ih hxrest hyrest hxd.tail hyd.tail hxs hys]

theorem IsSegmentation.unique {d : List Byte} {xs ys : List Segment} (hx : IsSegmentation d xs)
    (hy : IsSegmentation d ys) : xs = ys :=
  segmentation_unique hx.covers hy.covers hx.maximal hy.maximal hx.classes hy.classes

/-! ### What the classifier has emitted, and the run in progress -/

theorem segmentsOf_cons (resp : Response) (resps : List Response) :
    segmentsOf (resp :: resps) = segmentsOf resps ++ segmentsOf [resp] := by
  simp [segmentsOf]

theorem segmentsOf_cons_none (resps : List Response) :
    segmentsOf (.none :: resps) = segmentsOf resps := by
  simp [segmentsOf]

/-- The run in progress, as the segment CLS.END would emit. -/
def pending (s : State) : List Segment := segmentsOf [emission s (modeOf s.cstate)]

theorem pending_of_init {s : State} (h : s.cstate = .init) : pending s = [] := by
  rw [pending, h]
  rfl

theorem pending_of_mode {s : State} {m : Mode} (h : modeOf s.cstate = some m) :
    pending s = [(m, s.segBegin.toNat, s.pos.toNat)] := by
  rw [pending, h]
  rfl

theorem modeOf_injective {c c' : ClsState} {m : Mode} (h : modeOf c = some m)
    (h' : modeOf c' = some m) : c = c' := by
  cases c <;> cases c' <;> cases h <;> cases h' <;> rfl

theorem SamePck.trans {s t u : State} (h : SamePck s t) (h' : SamePck t u) : SamePck s u where
  target := ⟨h'.target.version.trans h.target.version, h'.target.ecl.trans h.target.ecl⟩
  segment := ⟨h'.segment.curMode.trans h.segment.curMode, h'.segment.rem.trans h.segment.rem,
    h'.segment.acc.trans h.segment.acc, h'.segment.accN.trans h.segment.accN⟩
  len := h'.len.trans h.len
  buf a := (h'.buf a).trans (h.buf a)

theorem SameRse.trans {s t u : State} (h : SameRse s t) (h' : SameRse t u) : SameRse s u :=
  ⟨h'.n.trans h.n, h'.r.trans h.r⟩

/-- The bytes `d` were fed since the state `s₀` and answered with `new`, newest first. -/
structure Classifying (s₀ : State) (d : List Byte) (new : List Response) (s : State) : Prop where
  unfaulted : s.fault = false
  pos : s.pos.toNat = d.length
  init : s.cstate = .init → d = []
  segments : IsSegmentation d (segmentsOf new ++ pending s)
  resps : s.resps = new ++ s₀.resps
  count : new.length = d.length
  pck : SamePck s₀ s
  rse : SameRse s₀ s

section
variable {s₀ s : State} {d : List Byte} {new : List Response} {b : Byte} {segBegin : BitVec 16}
  {resp : Response}

/-- The three outcomes of a byte, on the segmentation. -/
theorem Classifying.segments_step (h : Classifying s₀ d new s)
    (houtcome : ByteOutcome b s segBegin resp) {t : State}
    (hstate : t.cstate = stateOf (classOf b)) (hbegin : t.segBegin = segBegin)
    (hpos : t.pos.toNat = d.length + 1) :
    IsSegmentation (d ++ [b]) (segmentsOf (resp :: new) ++ pending t) := by
  obtain ⟨m, hm⟩ := modeOf_of_ne_init (stateOf_ne_init (classOf b))
  have hsegs := h.segments
  rw [pending_of_mode (s := t) (hstate ▸ hm), hbegin, hpos]
  cases houtcome with
  | starts hinit =>
    obtain rfl := h.init hinit
    rw [pending_of_init hinit, List.append_nil] at hsegs
    rw [segmentsOf_cons_none, h.pos]
    exact hsegs.begin hm (by simp [hsegs.covers.eq_nil])
  | counts hsame =>
    rw [pending_of_mode (hsame ▸ hm), h.pos] at hsegs
    rw [segmentsOf_cons_none]
    exact hsegs.extend hm
  | closes m' hm' hother =>
    have hemitted : pending s = segmentsOf [.seg m' s.segBegin s.pos] := pending_of_mode hm'
    rw [segmentsOf_cons, h.pos, ← hemitted]
    refine hsegs.begin hm ?_
    rw [pending_of_mode hm', List.getLast?_concat]
    rintro x ⟨⟩ rfl
    exact hother (modeOf_injective hm' hm)

theorem Classifying.step (h : Classifying s₀ d new s) (hroom : d.length < 65535) (b : Byte) :
    ∃ t resp, exec (.clsByte b) s = .next t ∧ Classifying s₀ (d ++ [b]) (resp :: new) t := by
  have hpos := h.pos
  obtain ⟨segBegin, resp, houtcome, hexec⟩ := exec_clsByte_of_room (b := b) h.unfaulted
    (hpos ▸ hroom)
  have hcount : (BitVec.ofNat 16 (s.pos.toNat + 1)).toNat = d.length + 1 := by
    rw [hpos]
    exact Nat.mod_eq_of_lt (by omega)
  have hlen : (d ++ [b]).length = d.length + 1 := List.length_append
  obtain ⟨-, hpck, hrse⟩ := setCls_frame resp (stateOf (classOf b))
    (BitVec.ofNat 16 (s.pos.toNat + 1)) segBegin s
  exact ⟨_, resp, hexec, h.unfaulted, hcount.trans hlen.symm,
    fun hinit => absurd hinit (stateOf_ne_init _), h.segments_step houtcome rfl rfl hcount,
    congrArg (resp :: ·) h.resps, (congrArg (· + 1) h.count).trans hlen.symm, h.pck.trans hpck,
    h.rse.trans hrse⟩

/-- The whole input, then CLS.END. -/
theorem Classifying.run (h : Classifying s₀ d new s) (rest : List Byte)
    (hroom : (d ++ rest).length ≤ 65535) :
    ∃ t all, execAll (rest.map .clsByte ++ [.clsEnd]) s = .next t ∧ t.fault = false ∧
      t.cstate = .init ∧ t.pos = 0#16 ∧ t.segBegin = 0#16 ∧ t.resps = all ++ s₀.resps ∧
      all.length = (d ++ rest).length + 1 ∧ IsSegmentation (d ++ rest) (segmentsOf all) ∧
      SamePck s₀ t ∧ SameRse s₀ t := by
  induction rest generalizing d new s with
  | nil =>
    have hsegs := h.segments
    rw [pending, ← segmentsOf_cons] at hsegs
    rw [List.append_nil]
    have hexec := exec_clsEnd_of_unfaulted h.unfaulted
    obtain ⟨hfault, hpck, hrse⟩ := setCls_frame (emission s (modeOf s.cstate)) .init 0#16 0#16 s
    rw [clsClear_eq_setCls] at hexec
    refine ⟨_, emission s (modeOf s.cstate) :: new, ?_, hfault.fault.trans h.unfaulted, rfl, rfl,
      rfl,
      congrArg (_ :: ·) h.resps, congrArg (· + 1) h.count, hsegs, h.pck.trans hpck,
      h.rse.trans hrse⟩
    simp only [List.map_nil, List.nil_append, execAll, hexec]
  | cons b rest ih =>
    have happend : d ++ b :: rest = d ++ [b] ++ rest := by simp
    rw [happend] at hroom ⊢
    obtain ⟨u, resp, hexec, hu⟩ := h.step (by simp at hroom; omega) b
    obtain ⟨t, all, hall, hrest⟩ := ih hu hroom
    refine ⟨t, all, ?_, hrest⟩
    simp only [List.map_cons, List.cons_append, execAll, hexec]
    exact hall

end

/-- Settles O24: at the end the run in progress is the last segment, and segmentations are unique.
-/
theorem classifierEmitsTheMaximalRuns : Obligations.ClassifierEmitsTheMaximalRuns := by
  intro d s hd hs hinit hpos
  have hstart : Classifying s [] [] s :=
    ⟨hs, by rw [hpos]; rfl, fun _ => rfl, by
      rw [pending_of_init hinit]
      exact ⟨rfl, nofun, trivial⟩, rfl, rfl, SamePck.refl s, SameRse.refl s⟩
  obtain ⟨t, new, hexec, hfault, hcstate, hpos', hbegin, hresps, hcount, hsegs, hpck, hrse⟩ :=
    hstart.run d hd
  exact ⟨t, new, hexec, hfault, hcstate, hpos', hbegin, hresps, hcount, hsegs,
    fun segs hother => hother.unique hsegs, hpck, hrse⟩

end Sys2Proof.Machine
end

section
/-! PROOFS. Independence of the units and what the host can observe (10_state.md R29 and R32,
44_host_boundary.md R198). That the pseudocode of a unit's command reads and writes its own unit
alone is said as `IsLocal`: exchanging everything outside the unit's registers before the command is
exchanging it after. -/

namespace Sys2Proof.Machine

/-! ### Exchanging everything outside a unit -/

/-- The registers of the unit as in `p`, everything else as in `s`. -/
def exchange : CmdUnit → State → State → State
  | .system, _, s => s
  | .cls, p, s => { s with cstate := p.cstate, pos := p.pos, segBegin := p.segBegin }
  | .pck, p, s =>
    { s with
      version := p.version, ecl := p.ecl, len := p.len, buf := p.buf, curMode := p.curMode
      rem := p.rem, acc := p.acc, accN := p.accN }
  | .rse, p, s => { s with n := p.n, r := p.r }

/-- A function on the next state of a command's pseudocode; a raise has none. -/
def Effect.map (f : State → State) : Effect → Effect
  | .raise c => .raise c
  | .done u resp => .done (f u) resp

/-- The pseudocode reads and writes the unit's registers alone. -/
def IsLocal (k : CmdUnit) (e : State → Effect) : Prop :=
  ∀ p s, e (exchange k p s) = (e p).map fun u => exchange k u s

section
variable {f : State → State} {e e' : Effect}

theorem map_of_raise {c : Cause} (h : e = .raise c) (h' : e' = .raise c) : e' = e.map f := by
  rw [h, h', Effect.map]

theorem map_of_done {u : State} {resp : Response} (h : e = .done u resp)
    (h' : e' = .done (f u) resp) : e' = e.map f := by
  rw [h, h', Effect.map]

end

/-- What a counted byte writes and answers, as a function of the CLS registers. -/
theorem clsByteEffect_eq {b : Byte} {s : State} (h : s.pos.toNat ≠ 65535) :
    clsByteEffect b s = .done
      (setCls (stateOf (classOf b)) (BitVec.ofNat 16 (s.pos.toNat + 1))
        (if s.cstate = stateOf (classOf b) then s.segBegin else s.pos) s)
      (emission s (transition s.cstate (some (classOf b))).2) := by
  have hroom : s.pos.toNat < 65535 := by omega
  obtain ⟨segBegin, resp, houtcome, heffect⟩ := clsByteEffect_counted (b := b) hroom
  obtain ⟨hresp, -⟩ := houtcome.transition
  have hbegin : segBegin = if s.cstate = stateOf (classOf b) then s.segBegin else s.pos := by
    cases houtcome with
    | starts hinit => rw [if_neg (hinit ▸ (stateOf_ne_init _).symm)]
    | counts hsame => rw [if_pos hsame]
    | closes m hm hother => rw [if_neg hother]
  rw [heffect, hbegin, hresp]

theorem clsByteEffect_isLocal (b : Byte) : IsLocal .cls (clsByteEffect b) := by
  intro p s
  by_cases hpos : p.pos.toNat = 65535
  · exact map_of_raise (clsByteEffect_overflow hpos) (clsByteEffect_overflow hpos)
  · exact map_of_done (clsByteEffect_eq hpos) (clsByteEffect_eq hpos)

theorem clsEndEffect_isLocal : IsLocal .cls clsEndEffect := by
  intro p s
  rw [clsEndEffect_eq, clsEndEffect_eq]
  rfl

theorem pckInitEffect_isLocal (ver : Nat) (ec : EcLevel) :
    IsLocal .pck (pckInitEffect ver ec) := by
  intro p s
  by_cases hver : 1 ≤ ver ∧ ver ≤ 40
  · exact map_of_done (pckInitEffect_done hver.1 hver.2) (pckInitEffect_done hver.1 hver.2)
  · have hver : ver = 0 ∨ 40 < ver := by omega
    exact map_of_raise (pckInitEffect_invalidVersion hver) (pckInitEffect_invalidVersion hver)

theorem pckBitsEffect_isLocal (cfg : Config) (n value : Nat) :
    IsLocal .pck (pckBitsEffect cfg n value) := by
  intro p s
  by_cases hop : 16 < n ∨ 2 ^ n ≤ value
  · exact map_of_raise (pckBitsEffect_illegalOperand hop) (pckBitsEffect_illegalOperand hop)
  obtain ⟨hn, hvalue⟩ : n ≤ 16 ∧ value < 2 ^ n := by omega
  by_cases hrem : p.rem = 0#16
  · cases hcap : capacity cfg p with
    | none =>
      exact map_of_raise (pckBitsEffect_invalidVersion hn hvalue hrem hcap)
        (pckBitsEffect_invalidVersion hn hvalue hrem hcap)
    | some c =>
      rcases Nat.lt_or_ge c (p.len.toNat + n) with hlong | hfits
      · exact map_of_raise (pckBitsEffect_dataTooLong hn hvalue hrem hcap hlong)
          (pckBitsEffect_dataTooLong hn hvalue hrem hcap hlong)
      · exact map_of_done (pckBitsEffect_done hn hvalue hrem hcap hfits)
          (pckBitsEffect_done hn hvalue hrem hcap hfits)
  · exact map_of_raise (pckBitsEffect_badSequence hn hvalue hrem)
      (pckBitsEffect_badSequence hn hvalue hrem)

theorem pckSegEffect_of_no_mode {cfg : Config} {mode count : Nat} {s : State}
    (h : modeOfCode mode = none) : pckSegEffect cfg mode count s = .raise .illegalOperand := by
  simp only [pckSegEffect, h]

theorem pckSegEffect_isLocal (cfg : Config) (mode count : Nat) :
    IsLocal .pck (pckSegEffect cfg mode count) := by
  intro p s
  cases hmode : modeOfCode mode with
  | none => exact map_of_raise (pckSegEffect_of_no_mode hmode) (pckSegEffect_of_no_mode hmode)
  | some m =>
    obtain rfl := modeCode_of_modeOfCode hmode
    by_cases hrem : p.rem = 0#16
    · cases hcap : capacity cfg p with
      | none =>
        exact map_of_raise (pckSegEffect_invalidVersion hrem hcap)
          (pckSegEffect_invalidVersion hrem hcap)
      | some c =>
        by_cases hlong : 2 ^ lenBits m p.version.toNat ≤ count ∨
            c < p.len.toNat + 4 + lenBits m p.version.toNat
        · exact map_of_raise (pckSegEffect_dataTooLong hrem hcap hlong)
            (pckSegEffect_dataTooLong hrem hcap hlong)
        · obtain ⟨hcount, hfits⟩ := not_or.mp hlong
          exact map_of_done
            (pckSegEffect_done hrem hcap (Nat.lt_of_not_le hcount) (Nat.le_of_not_lt hfits))
            (pckSegEffect_done hrem hcap (Nat.lt_of_not_le hcount) (Nat.le_of_not_lt hfits))
    · exact map_of_raise (pckSegEffect_badSequence hrem) (pckSegEffect_badSequence hrem)

theorem pckDataEffect_bad {cfg : Config} {b : Byte} {c : Nat} {s : State} (hrem : s.rem ≠ 0#16)
    (hcap : capacity cfg s = some c)
    (hgroup : dataGroup s.curMode s.acc.toNat s.accN.val (s.rem.toNat - 1) b = .bad) :
    pckDataEffect cfg b s = .raise .badChar := by
  simp [pckDataEffect, hrem, hcap, hgroup]

theorem pckDataEffect_isLocal (cfg : Config) (b : Byte) : IsLocal .pck (pckDataEffect cfg b) := by
  intro p s
  by_cases hrem : p.rem = 0#16
  · exact map_of_raise (pckDataEffect_badSequence hrem) (pckDataEffect_badSequence hrem)
  cases hcap : capacity cfg p with
  | none =>
    exact map_of_raise (pckDataEffect_invalidVersion hrem hcap)
      (pckDataEffect_invalidVersion hrem hcap)
  | some c =>
    cases hgroup : dataGroup p.curMode p.acc.toNat p.accN.val (p.rem.toNat - 1) b with
    | bad =>
      exact map_of_raise (pckDataEffect_bad hrem hcap hgroup) (pckDataEffect_bad hrem hcap hgroup)
    | emit n v =>
      rcases Nat.lt_or_ge c (p.len.toNat + n) with hlong | hfits
      · exact map_of_raise (pckDataEffect_dataTooLong hrem hcap hgroup hlong)
          (pckDataEffect_dataTooLong hrem hcap hgroup hlong)
      · exact map_of_done (pckDataEffect_emit hrem hcap hgroup hfits)
          (pckDataEffect_emit hrem hcap hgroup hfits)
    | keep a k =>
      exact map_of_done (pckDataEffect_keep hrem hcap hgroup) (pckDataEffect_keep hrem hcap hgroup)

theorem padCodewords_exchange (k : Nat) (even : Bool) (p s : State) :
    padCodewords k even (exchange .pck p s) = exchange .pck (padCodewords k even p) s := by
  induction k generalizing even p with
  | zero => rfl
  | succ k ih => exact ih (!even) (push 8 (if even then 0xEC else 0x11) p)

theorem terminate_exchange (c : Nat) (p s : State) :
    terminate c (exchange .pck p s) = exchange .pck (terminate c p) s := by
  have hlen : ∀ l u, setLen l (exchange .pck u s) = exchange .pck (setLen l u) s := fun _ _ => rfl
  have hsame : (exchange .pck p s).len = p.len := rfl
  unfold terminate
  simp only [hsame, hlen, padCodewords_exchange, setLen_len]
  exact (apply_ite (exchange .pck · s) _ _ _).symm

theorem pckTermEffect_isLocal (cfg : Config) : IsLocal .pck (pckTermEffect cfg) := by
  intro p s
  by_cases hrem : p.rem = 0#16
  · cases hcap : capacity cfg p with
    | none =>
      exact map_of_raise (pckTermEffect_invalidVersion hrem hcap)
        (pckTermEffect_invalidVersion hrem hcap)
    | some c =>
      rcases Nat.lt_or_ge c p.len.toNat with hlong | hfits
      · exact map_of_raise (pckTermEffect_dataTooLong hrem hcap hlong)
          (pckTermEffect_dataTooLong hrem hcap hlong)
      · refine map_of_done (pckTermEffect_done hrem hcap hfits) ?_
        rw [← terminate_exchange]
        exact pckTermEffect_done hrem hcap hfits
  · exact map_of_raise (pckTermEffect_badSequence hrem) (pckTermEffect_badSequence hrem)

theorem rseStartEffect_isLocal (n : Nat) : IsLocal .rse (rseStartEffect n) := by
  intro p s
  by_cases hn : n = 0 ∨ necMax < n
  · exact map_of_raise (if_pos hn) (if_pos hn)
  · exact map_of_done (if_neg hn) (if_neg hn)

theorem rseDataEffect_isLocal (b : Byte) : IsLocal .rse (rseDataEffect b) := by
  intro p s
  by_cases hn : p.n = 0
  · exact map_of_raise (if_pos hn) (if_pos hn)
  · exact map_of_done (rseDataEffect_done hn) (rseDataEffect_done hn)

theorem rdPbufEffect_isLocal (idx : Nat) : IsLocal .pck fun s =>
    if pbufBytes ≤ idx then .raise .illegalOperand
    else .done s (.word ((Memory.read s.buf idx).setWidth 32)) := by
  intro p s
  by_cases hidx : pbufBytes ≤ idx
  · exact map_of_raise (if_pos hidx) (if_pos hidx)
  · exact map_of_done (if_neg hidx) (if_neg hidx)

theorem rdEcEffect_isLocal (idx : Nat) : IsLocal .rse fun s =>
    if s.n.val ≤ idx then .raise .illegalOperand
    else .done s (.word ((remainder s idx).setWidth 32)) := by
  intro p s
  by_cases hidx : p.n.val ≤ idx
  · exact map_of_raise (if_pos hidx) (if_pos hidx)
  · exact map_of_done (if_neg hidx) (if_neg hidx)

/-! ### Two runs of a unit's command -/

/-- States that agree on a unit are alike but for what is outside it. -/
theorem exchange_of_sameUnit {k : CmdUnit} {s s' : State} (hw : Memory.wf s.buf = true)
    (hw' : Memory.wf s'.buf = true) (h : SameUnit k s s') : exchange k s s' = s' := by
  cases k with
  | system => rfl
  | cls => rw [exchange, ← h.cstate, ← h.pos, ← h.segBegin]
  | pck =>
    have hbuf : s'.buf = s.buf := Memory.ext_of_wf hw' hw h.buf
    rw [exchange, ← h.target.version, ← h.target.ecl, ← h.len, ← hbuf, ← h.segment.curMode,
      ← h.segment.rem, ← h.segment.acc, ← h.segment.accN]
  | rse => rw [exchange, ← h.n, ← h.r]

theorem sameUnit_exchange (k : CmdUnit) (u s : State) (resp : Response) :
    SameUnit k (respond resp u) (respond resp (exchange k u s)) := by
  cases k with
  | system => trivial
  | cls => exact ⟨rfl, rfl, rfl⟩
  | pck => exact ⟨⟨rfl, rfl⟩, ⟨rfl, rfl, rfl, rfl⟩, rfl, fun _ => rfl⟩
  | rse => exact ⟨rfl, rfl⟩

theorem exchange_fault (k : CmdUnit) (u s : State) : (exchange k u s).fault = s.fault := by
  cases k <;> rfl

theorem sameUnit_raiseFault {k : CmdUnit} {s s' : State} (h : SameUnit k s s') (c : Cause)
    (w : Word) : SameUnit k (raiseFault c w s) (raiseFault c w s') := by
  cases k with
  | system => trivial
  | cls => exact ⟨h.cstate, h.pos, h.segBegin⟩
  | pck =>
    exact ⟨⟨h.target.version, h.target.ecl⟩, ⟨h.segment.curMode, h.segment.rem, h.segment.acc,
      h.segment.accN⟩, h.len, h.buf⟩
  | rse => exact ⟨h.n, h.r⟩

/-- The unit's registers, the fault and the response of two runs. -/
structure SameRun (k : CmdUnit) (t t' : State) : Prop where
  unit : SameUnit k t t'
  fault : t'.fault = t.fault
  cause : t.fault = true → t'.cause = t.cause
  answer : t'.resps.head? = t.resps.head?

/-- Two runs of a local command from unfaulted states that agree on the unit. -/
theorem IsLocal.sameRun {i : Instr} {k : CmdUnit} {s s' t t' : State} {e : State → Effect}
    (hlocal : IsLocal k e) (hkeeps : (e s).KeepsOrRaises i s) (hs : s.fault = false)
    (hs' : s'.fault = false) (hsame : SameUnit k s s') (hexchange : exchange k s s' = s')
    (h : gated i s (e s) = .next t) (h' : gated i s' (e s') = .next t') : SameRun k t t' := by
  have heffect := hlocal s s'
  rw [hexchange] at heffect
  rw [heffect] at h'
  cases he : e s with
  | raise c =>
    rw [he] at h h'
    cases (gated_raise c hs).symm.trans h
    cases (gated_raise c hs').symm.trans h'
    exact ⟨sameUnit_raiseFault hsame c _, rfl, fun _ => rfl, rfl⟩
  | done u resp =>
    rw [he] at h h' hkeeps
    cases (gated_done u resp hs).symm.trans h
    cases (gated_done (exchange k u s') resp hs').symm.trans h'
    have hu : u.fault = false := hkeeps.fault.trans hs
    have hu' : (exchange k u s').fault = false := (exchange_fault k u s').trans hs'
    refine ⟨sameUnit_exchange k u s' resp, hu'.trans hu.symm, fun hf => ?_, rfl⟩
    exact absurd (hf.symm.trans hu) (by decide)

theorem unit_sameRun {i : Instr} {s s' t t' : State} (hunit : i.unit ≠ .system)
    (hs : s.fault = false) (hs' : s'.fault = false) (hsame : SameUnit i.unit s s')
    (hexchange : exchange i.unit s s' = s') (h : exec i s = .next t) (h' : exec i s' = .next t') :
    SameRun i.unit t t' := by
  cases i with
  | nop | rst | rdCsr => exact absurd rfl hunit
  | clsClr =>
    have hlocal : IsLocal .cls fun s => .done (clsClear s) .none := fun _ _ => rfl
    exact hlocal.sameRun (i := .clsClr) (SameFault.mk rfl rfl rfl) hs hs' hsame hexchange h h'
  | clsByte b =>
    exact (clsByteEffect_isLocal b).sameRun (clsByteEffect_keepsOrRaises b s) hs hs' hsame
      hexchange h h'
  | clsEnd =>
    exact clsEndEffect_isLocal.sameRun (clsEndEffect_keepsOrRaises s) hs hs' hsame hexchange h h'
  | pckInit ver ec =>
    exact (pckInitEffect_isLocal ver ec).sameRun (pckInitEffect_keepsOrRaises ver ec s) hs hs'
      hsame hexchange h h'
  | pckBits n value =>
    exact (pckBitsEffect_isLocal _ n value).sameRun (pckBitsEffect_keepsOrRaises _ n value s) hs
      hs' hsame hexchange h h'
  | pckSeg mode count =>
    exact (pckSegEffect_isLocal _ mode count).sameRun (pckSegEffect_keepsOrRaises _ mode count s)
      hs hs' hsame hexchange h h'
  | pckData b =>
    exact (pckDataEffect_isLocal _ b).sameRun (pckDataEffect_keepsOrRaises _ b s) hs hs' hsame
      hexchange h h'
  | pckTerm =>
    exact (pckTermEffect_isLocal _).sameRun (pckTermEffect_keepsOrRaises _ s) hs hs' hsame
      hexchange h h'
  | rdPbuf idx =>
    exact (rdPbufEffect_isLocal idx).sameRun (readEffect_keepsOrRaises rfl) hs hs' hsame
      hexchange h h'
  | rseStart n =>
    exact (rseStartEffect_isLocal n).sameRun (rseStartEffect_keepsOrRaises n s) hs hs' hsame
      hexchange h h'
  | rseData b =>
    exact (rseDataEffect_isLocal b).sameRun (rseDataEffect_keepsOrRaises b s) hs hs' hsame
      hexchange h h'
  | rdEc idx =>
    exact (rdEcEffect_isLocal idx).sameRun (readEffect_keepsOrRaises rfl) hs hs' hsame
      hexchange h h'

/-- Settles O53: the second state is the first with everything outside the unit exchanged. -/
theorem unitsAreIndependent : Obligations.UnitsAreIndependent := by
  intro i s s' t t' hunit hs hs' hw hw' hsame h h'
  obtain ⟨hrun, hfault, hcause, hanswer⟩ :=
    unit_sameRun hunit hs hs' hsame (exchange_of_sameUnit hw hw' hsame) h h'
  exact ⟨hrun, hfault, hcause, hanswer⟩

/-! ### Initialising commands -/

/-- Settles O54: what the three commands write does not depend on the state. -/
theorem initialisingCommandsForgetThePast : Obligations.InitialisingCommandsForgetThePast := by
  intro s s' hs hs'
  refine ⟨fun i t t' hi h h' => ?cls, fun ver ec t t' h1 h40 h h' => ?pck,
    fun n t t' h1 h30 h h' => ?rse⟩
  case cls =>
    obtain rfl | rfl := hi
    · cases (exec_of_effect_done (exec_clsClr s) hs rfl).symm.trans h
      cases (exec_of_effect_done (exec_clsClr s') hs' rfl).symm.trans h'
      exact ⟨rfl, rfl, rfl⟩
    · cases (exec_clsEnd_of_unfaulted hs).symm.trans h
      cases (exec_clsEnd_of_unfaulted hs').symm.trans h'
      exact ⟨rfl, rfl, rfl⟩
  case pck =>
    have hdone : ∀ u, pckInitEffect ver ec u = _ := fun u => pckInitEffect_done h1 h40
    cases (exec_of_effect_done (exec_pckInit ver ec s) hs (hdone s)).symm.trans h
    cases (exec_of_effect_done (exec_pckInit ver ec s') hs' (hdone s')).symm.trans h'
    exact ⟨⟨rfl, rfl⟩, ⟨rfl, rfl, rfl, rfl⟩, rfl, fun _ => rfl⟩
  case rse =>
    have hdone : ∀ u, rseStartEffect n u = _ := fun u => rseStartEffect_done h1 h30
    cases (exec_of_effect_done (exec_rseStart n s) hs (hdone s)).symm.trans h
    cases (exec_of_effect_done (exec_rseStart n s') hs' (hdone s')).symm.trans h'
    exact ⟨rfl, rfl⟩

/-! ### Observation -/

theorem causeCode_injective {c c' : Cause} (h : causeCode c = causeCode c') : c = c' := by
  cases c <;> cases c' <;> simp_all [causeCode]

theorem clsStateCode_injective {c c' : ClsState} (h : clsStateCode c = clsStateCode c') :
    c = c' := by
  cases c <;> cases c' <;> simp_all [clsStateCode]

theorem modeCode_injective {m m' : Mode} (h : modeCode m = modeCode m') : m = m' :=
  Option.some_injective _ (by rw [← modeOfCode_modeCode, h, modeOfCode_modeCode])

theorem ecLevel_code_injective {ec ec' : EcLevel} (h : ec.code = ec'.code) : ec = ec' := by
  rw [← ecLevel_ofCode_of_code ec, h, ecLevel_ofCode_of_code]

section
variable {s t : State}

theorem fields_of_statusWord_eq (h : statusWord t = statusWord s) :
    t.fault = s.fault ∧ t.cause = s.cause ∧ t.cstate = s.cstate := by
  obtain ⟨hfault, -, hcause, hcstate, -⟩ := statusWord_fields s
  obtain ⟨hfault', -, hcause', hcstate', -⟩ := statusWord_fields t
  rw [h] at hfault' hcause' hcstate'
  refine ⟨?_, causeCode_injective (hcause'.symm.trans hcause),
    clsStateCode_injective (hcstate'.symm.trans hcstate)⟩
  have hbit := hfault'.symm.trans hfault
  revert hbit
  cases t.fault <;> cases s.fault <;> decide

theorem fields_of_clsPosWord_eq (h : clsPosWord t = clsPosWord s) :
    t.pos = s.pos ∧ t.segBegin = s.segBegin := by
  obtain ⟨hpos, hbegin⟩ := clsPosWord_fields s
  obtain ⟨hpos', hbegin'⟩ := clsPosWord_fields t
  rw [h] at hpos' hbegin'
  exact ⟨BitVec.eq_of_toNat_eq (hpos'.symm.trans hpos),
    BitVec.eq_of_toNat_eq (hbegin'.symm.trans hbegin)⟩

theorem sameTarget_of_pckCfgWord_eq (h : pckCfgWord t = pckCfgWord s) : SameTarget s t := by
  obtain ⟨hversion, -, hecl, -⟩ := pckCfgWord_fields s
  obtain ⟨hversion', -, hecl', -⟩ := pckCfgWord_fields t
  rw [h] at hversion' hecl'
  exact ⟨BitVec.eq_of_toNat_eq (hversion'.symm.trans hversion),
    ecLevel_code_injective (hecl'.symm.trans hecl)⟩

theorem len_of_pckLenWord_eq (h : pckLenWord t = pckLenWord s) : t.len = s.len := by
  apply BitVec.eq_of_toNat_eq
  rw [← pckLenWord_toNat, h, pckLenWord_toNat]

theorem sameSegment_of_pckSegWord_eq (h : pckSegWord t = pckSegWord s) : SameSegment s t := by
  obtain ⟨hrem, hmode, haccN, hacc, -⟩ := pckSegWord_fields s
  obtain ⟨hrem', hmode', haccN', hacc', -⟩ := pckSegWord_fields t
  rw [h] at hrem' hmode' haccN' hacc'
  exact ⟨modeCode_injective (hmode'.symm.trans hmode),
    BitVec.eq_of_toNat_eq (hrem'.symm.trans hrem), BitVec.eq_of_toNat_eq (hacc'.symm.trans hacc),
    Fin.ext (haccN'.symm.trans haccN)⟩

theorem n_of_rseCfgWord_eq (h : rseCfgWord t = rseCfgWord s) : t.n = s.n := by
  apply Fin.ext
  rw [← rseCfgWord_toNat, h, rseCfgWord_toNat]

/-- No byte of BUF beyond PBUF is stored. -/
theorem sameBuf_of_read (hs : Memory.wf s.buf = true) (ht : Memory.wf t.buf = true)
    (h : ∀ a, a < 4096 → Memory.read t.buf a = Memory.read s.buf a) : SameBuf s t := by
  intro a
  rcases Nat.lt_or_ge a 4096 with ha | ha
  · exact h a ha
  · rw [Memory.read_above ht ha, Memory.read_above hs ha]

/-- The registers from N on are 0, and the others can be read. -/
theorem r_eq_of_remainder (hs : RseInv s) (ht : RseInv t) (hn : t.n = s.n)
    (h : ∀ i, i < s.n.val → remainder t i = remainder s i) : t.r = s.r := by
  refine Vector.ext fun i hi => ?_
  rcases Nat.lt_or_ge i s.n.val with hlt | hge
  · rw [← remainder_of_lt t hi, h i hlt, remainder_of_lt s hi]
  · exact (ht ⟨i, hi⟩ (hn.symm ▸ hge)).trans (hs ⟨i, hi⟩ hge).symm

end

/-- Settles O55: each group of the tuple by the registers that show it. -/
theorem allStateIsObservable : Obligations.AllStateIsObservable := by
  intro s t hs ht hcsr hbuf hrem
  have same : ∀ {a} {v w : Word}, a ≤ 6 → csrRead t a = some v → csrRead s a = some w → v = w :=
    fun ha hv hw => Option.some_injective _ (hv.symm.trans ((hcsr _ ha).trans hw))
  obtain ⟨hfault, hcause, hcstate⟩ := fields_of_statusWord_eq (same (a := 0) (by decide) rfl rfl)
  obtain ⟨hpos, hbegin⟩ := fields_of_clsPosWord_eq (same (a := 2) (by decide) rfl rfl)
  have hn := n_of_rseCfgWord_eq (same (a := 6) (by decide) rfl rfl)
  exact ⟨⟨hfault, hcause, same (a := 1) (by decide) rfl rfl⟩, ⟨hcstate, hpos, hbegin⟩,
    ⟨sameTarget_of_pckCfgWord_eq (same (a := 3) (by decide) rfl rfl),
      sameSegment_of_pckSegWord_eq (same (a := 5) (by decide) rfl rfl),
      len_of_pckLenWord_eq (same (a := 4) (by decide) rfl rfl),
      sameBuf_of_read hs.bufWf ht.bufWf hbuf⟩,
    ⟨hn, r_eq_of_remainder hs.rZero ht.rZero hn hrem⟩⟩

end Sys2Proof.Machine
end

section
/-! PROOFS. GF(256) (43_reed_solomon.md R171 and R172). Both loops of `gmul` are additive, so `gmul`
is additive in each factor, and a law that is additive in a byte need only be checked at the eight
powers `alphaPow 0` to `alphaPow 7`, which are the single bits. The powers of `α` are distinct below
255 because an exponent with power 1 would make the power of its greatest common divisor with 255
equal to 1; being 255 nonzero bytes they are all of them. -/

namespace Sys2Proof.Machine

/-! ### Additive functions -/

/-- The function takes exclusive-or to exclusive-or. -/
def IsAdditive {v w : Nat} (f : BitVec v → BitVec w) : Prop := ∀ a b, f (a ^^^ b) = f a ^^^ f b

theorem IsAdditive.zero {v w : Nat} {f : BitVec v → BitVec w} (hf : IsAdditive f) :
    f 0#v = 0#w := by
  have h := hf 0#v 0#v
  rwa [BitVec.xor_self, BitVec.xor_self] at h

theorem IsAdditive.comp {u v w : Nat} {f : BitVec v → BitVec w} {g : BitVec u → BitVec v}
    (hf : IsAdditive f) (hg : IsAdditive g) : IsAdditive fun a => f (g a) := by
  intro a b
  simp only [hg a b, hf _ _]

theorem xor_xor_xor_comm {w : Nat} (a b c d : BitVec w) :
    a ^^^ b ^^^ (c ^^^ d) = a ^^^ c ^^^ (b ^^^ d) := by
  ac_rfl

/-- The single bits. -/
theorem alphaPow_eq_shiftLeft {i : Nat} (hi : i < 8) : alphaPow i = 1#8 <<< i := by
  interval_cases i <;> decide

theorem alphaPow_getLsbD {i : Nat} (hi : i < 8) (k : Nat) :
    (alphaPow i).getLsbD k = decide (k = i) := by
  rw [alphaPow_eq_shiftLeft hi, BitVec.getLsbD_shiftLeft, Bool.eq_iff_iff]
  simp only [BitVec.getLsbD_one, Bool.and_eq_true, decide_eq_true_eq, Bool.not_eq_true',
    decide_eq_false_iff_not]
  omega

/-- Additive functions that agree on the single bits agree on the bytes below a power of two. -/
theorem IsAdditive.eq_of_high_zero {w : Nat} {f g : Byte → BitVec w} (hf : IsAdditive f)
    (hg : IsAdditive g) (hbits : ∀ i, i < 8 → f (alphaPow i) = g (alphaPow i)) {n : Nat}
    (hn : n ≤ 8) {a : Byte} (ha : ∀ k, n ≤ k → a.getLsbD k = false) : f a = g a := by
  induction n generalizing a with
  | zero =>
    have hzero : a = 0#8 := BitVec.eq_of_getLsbD_eq fun k _ => by simp [ha k (Nat.zero_le k)]
    rw [hzero, hf.zero, hg.zero]
  | succ n ih =>
    cases hbit : a.getLsbD n with
    | false =>
      refine ih (by omega) fun k hk => ?_
      rcases Nat.eq_or_lt_of_le hk with rfl | hk
      · exact hbit
      · exact ha k hk
    | true =>
      have hsplit : a = a ^^^ alphaPow n ^^^ alphaPow n := by
        rw [BitVec.xor_assoc, BitVec.xor_self, BitVec.xor_zero]
      have hrest : f (a ^^^ alphaPow n) = g (a ^^^ alphaPow n) := by
        refine ih (by omega) fun k hk => ?_
        rw [BitVec.getLsbD_xor, alphaPow_getLsbD (by omega)]
        rcases Nat.eq_or_lt_of_le hk with rfl | hk
        · simp [hbit]
        · simp [ha k hk, hk.ne']
      rw [hsplit, hf, hg, hrest, hbits n (by omega)]

theorem IsAdditive.ext {w : Nat} {f g : Byte → BitVec w} (hf : IsAdditive f) (hg : IsAdditive g)
    (hbits : ∀ i, i < 8 → f (alphaPow i) = g (alphaPow i)) (a : Byte) : f a = g a :=
  hf.eq_of_high_zero hg hbits le_rfl fun k hk => BitVec.getLsbD_of_ge a k hk

/-! ### The two loops of gmul are additive -/

/-- What one turn of the first loop adds. -/
def partialProduct (a b : Byte) (i : Nat) : BitVec 15 :=
  if b.getLsbD i then a.setWidth 15 <<< i else 0#15

theorem partialProduct_left (b : Byte) (i : Nat) : IsAdditive fun a => partialProduct a b i := by
  intro a a'
  cases hbit : b.getLsbD i with
  | true => simp [partialProduct, hbit, BitVec.shiftLeft_xor_distrib]
  | false => simp [partialProduct, hbit]

theorem partialProduct_right (a : Byte) (i : Nat) : IsAdditive fun b => partialProduct a b i := by
  intro b b'
  simp only [partialProduct, BitVec.getLsbD_xor]
  cases b.getLsbD i <;> cases b'.getLsbD i <;> simp

/-- A sum of additive terms is additive. -/
theorem isAdditive_sum {f : Byte → Nat → BitVec 15} (hf : ∀ i, IsAdditive fun a => f a i)
    (is : List Nat) : IsAdditive fun a => is.foldl (fun acc i => acc ^^^ f a i) 0#15 := by
  have hsum : ∀ (is : List Nat) (a b : Byte) (x y : BitVec 15),
      is.foldl (fun acc i => acc ^^^ f (a ^^^ b) i) (x ^^^ y) =
        is.foldl (fun acc i => acc ^^^ f a i) x ^^^ is.foldl (fun acc i => acc ^^^ f b i) y := by
    intro is a b
    induction is with
    | nil => exact fun x y => rfl
    | cons i is ih =>
      intro x y
      simp only [List.foldl_cons]
      rw [show f (a ^^^ b) i = f a i ^^^ f b i from hf i a b, xor_xor_xor_comm, ih]
  intro a b
  exact hsum is a b 0#15 0#15

theorem carrylessMul_eq_sum (a b : Byte) : carrylessMul a b =
    [0, 1, 2, 3, 4, 5, 6, 7].foldl (fun acc i => acc ^^^ partialProduct a b i) 0#15 := by
  have hturn :
      (fun (acc : BitVec 15) i => if b.getLsbD i then acc ^^^ (a.setWidth 15 <<< i) else acc) =
      fun acc i => acc ^^^ partialProduct a b i := by
    funext acc i
    cases hbit : b.getLsbD i <;> simp [partialProduct, hbit]
  rw [carrylessMul, hturn]

theorem carrylessMul_left (b : Byte) : IsAdditive fun a => carrylessMul a b := by
  simp only [carrylessMul_eq_sum]
  exact isAdditive_sum (partialProduct_left b) _

theorem carrylessMul_right (a : Byte) : IsAdditive (carrylessMul a) := by
  have h := isAdditive_sum (partialProduct_right a) [0, 1, 2, 3, 4, 5, 6, 7]
  simpa only [← carrylessMul_eq_sum] using h

/-- One turn of the second loop: the bit `i` is cleared by the polynomial shifted under it. -/
theorem reduceTurn_isAdditive (i : Nat) (q : BitVec 15) :
    IsAdditive fun p : BitVec 15 => if p.getLsbD i then p ^^^ q else p := by
  intro p p'
  simp only [BitVec.getLsbD_xor]
  cases p.getLsbD i <;> cases p'.getLsbD i
  · rfl
  · exact BitVec.xor_assoc p p' q
  · exact (BitVec.xor_assoc p p' q).trans ((congrArg (p ^^^ ·) (BitVec.xor_comm p' q)).trans
      (BitVec.xor_assoc p q p').symm)
  · exact (xor_xor_xor_comm p q p' q).symm ▸ by simp

theorem reduceGf_isAdditive : IsAdditive reduceGf := by
  have hloop : ∀ is : List Nat, IsAdditive fun p : BitVec 15 =>
      is.foldl (fun acc i => if acc.getLsbD i then acc ^^^ (0x11D#15 <<< (i - 8)) else acc) p := by
    intro is
    induction is with
    | nil => exact fun _ _ => rfl
    | cons i is ih => exact ih.comp (reduceTurn_isAdditive i _)
  intro p p'
  exact (congrArg (BitVec.setWidth 8) (hloop _ p p')).trans (BitVec.setWidth_xor)

/-! ### The laws of the product -/

theorem gmul_left_additive (b : Byte) : IsAdditive fun a => gmul a b :=
  reduceGf_isAdditive.comp (carrylessMul_left b)

theorem gmul_right_additive (a : Byte) : IsAdditive (gmul a) :=
  reduceGf_isAdditive.comp (carrylessMul_right a)

theorem gmul_xor_left (a a' b : Byte) : gmul (a ^^^ a') b = gmul a b ^^^ gmul a' b :=
  gmul_left_additive b a a'

theorem gmul_xor_right (a b b' : Byte) : gmul a (b ^^^ b') = gmul a b ^^^ gmul a b' :=
  gmul_right_additive a b b'

theorem gmul_comm_bits : ∀ i j : Fin 8,
    gmul (alphaPow i) (alphaPow j) = gmul (alphaPow j) (alphaPow i) := by decide +kernel

theorem gmul_comm (a b : Byte) : gmul a b = gmul b a := by
  refine (gmul_left_additive b).ext (gmul_right_additive b) (fun i hi => ?_) a
  refine (gmul_right_additive _).ext (gmul_left_additive _) (fun j hj => ?_) b
  exact gmul_comm_bits ⟨i, hi⟩ ⟨j, hj⟩

theorem gmul_assoc_two_bits : ∀ i j : Fin 8, gmul (gmul (alphaPow i) (alphaPow j)) 2#8 =
    gmul (alphaPow i) (gmul (alphaPow j) 2#8) := by decide +kernel

theorem gmul_assoc_two (a b : Byte) : gmul (gmul a b) 2#8 = gmul a (gmul b 2#8) := by
  have hleft := gmul_left_additive 2#8
  refine (hleft.comp (gmul_left_additive b)).ext (gmul_left_additive _) (fun i hi => ?_) a
  refine (hleft.comp (gmul_right_additive _)).ext ((gmul_right_additive _).comp hleft)
    (fun j hj => ?_) b
  exact gmul_assoc_two_bits ⟨i, hi⟩ ⟨j, hj⟩

theorem gmul_one_right (a : Byte) : gmul a 1#8 = a := (gmul_comm a 1#8).trans (gmul_one_left a)

/-- A power of `α` is a repeated product by 2. -/
theorem gmul_assoc_alphaPow (a b : Byte) (i : Nat) :
    gmul (gmul a b) (alphaPow i) = gmul a (gmul b (alphaPow i)) := by
  induction i with
  | zero => rw [alphaPow, gmul_one_right, gmul_one_right]
  | succ i ih =>
    calc gmul (gmul a b) (gmul (alphaPow i) 2#8)
        = gmul (gmul (gmul a b) (alphaPow i)) 2#8 := (gmul_assoc_two _ _).symm
      _ = gmul (gmul a (gmul b (alphaPow i))) 2#8 := by rw [ih]
      _ = gmul a (gmul (gmul b (alphaPow i)) 2#8) := gmul_assoc_two _ _
      _ = gmul a (gmul b (gmul (alphaPow i) 2#8)) := by rw [gmul_assoc_two]

theorem gmul_assoc (a b c : Byte) : gmul (gmul a b) c = gmul a (gmul b c) :=
  (gmul_right_additive _).ext ((gmul_right_additive a).comp (gmul_right_additive b))
    (fun i _ => gmul_assoc_alphaPow a b i) c

theorem gmul_zero_right (a : Byte) : gmul a 0#8 = 0#8 := (gmul_right_additive a).zero

theorem gmul_zero_left (a : Byte) : gmul 0#8 a = 0#8 := (gmul_left_additive a).zero

/-- Settles O41. -/
theorem gmulIsAFieldProduct : Obligations.GmulIsAFieldProduct :=
  ⟨gmul_comm, gmul_assoc, gmul_xor_right, fun a => ⟨gmul_zero_right a, gmul_one_right a⟩⟩

/-! ### The powers of alpha -/

theorem alphaPow_add (i j : Nat) : gmul (alphaPow i) (alphaPow j) = alphaPow (i + j) := by
  induction j with
  | zero => exact gmul_one_right _
  | succ j ih => rw [alphaPow, ← gmul_assoc, ih, ← Nat.add_assoc, alphaPow]

theorem alphaPow_mul_of_one {k : Nat} (h : alphaPow k = 1#8) (m : Nat) :
    alphaPow (k * m) = 1#8 := by
  induction m with
  | zero => rfl
  | succ m ih => rw [Nat.mul_succ, ← alphaPow_add, ih, h, gmul_one_right]

theorem alphaPow_17 : alphaPow 17 = 0x98#8 := by decide +kernel

theorem alphaPow_34 : alphaPow 34 = 0x4E#8 := by
  rw [← alphaPow_add 17 17, alphaPow_17]
  decide

theorem alphaPow_51 : alphaPow 51 = 0x0A#8 := by
  rw [← alphaPow_add 34 17, alphaPow_34, alphaPow_17]
  decide

theorem alphaPow_85 : alphaPow 85 = 0xD6#8 := by
  rw [← alphaPow_add 51 34, alphaPow_51, alphaPow_34]
  decide

theorem alphaPow_170 : alphaPow 170 = 0xD7#8 := by
  rw [← alphaPow_add 85 85, alphaPow_85]
  decide

theorem alphaPow_255 : alphaPow 255 = 1#8 := by
  rw [← alphaPow_add 170 85, alphaPow_170, alphaPow_85]
  decide

theorem alphaPow_mod (i : Nat) : alphaPow (i % 255) = alphaPow i := by
  conv_rhs => rw [← Nat.mod_add_div i 255, ← alphaPow_add, alphaPow_mul_of_one alphaPow_255,
    gmul_one_right]

/-- The proper divisors of 255 divide 15, 51 or 85. -/
theorem alphaPow_ne_one_of_dvd {g : Nat} (hg : g ∣ 255) (hlt : g < 255) : alphaPow g ≠ 1#8 := by
  have hmem : g ∈ Nat.divisors 255 := Nat.mem_divisors.mpr ⟨hg, by decide⟩
  have hdivisors : Nat.divisors 255 = {1, 3, 5, 15, 17, 51, 85, 255} := by decide +kernel
  intro h
  have hmul : ∀ m, alphaPow (g * m) = 1#8 := alphaPow_mul_of_one h
  have h15 : alphaPow 15 ≠ 1#8 := by decide +kernel
  have h51 : alphaPow 51 ≠ 1#8 := by
    rw [alphaPow_51]
    decide
  have h85 : alphaPow 85 ≠ 1#8 := by
    rw [alphaPow_85]
    decide
  rw [hdivisors] at hmem
  simp only [Finset.mem_insert, Finset.mem_singleton] at hmem
  obtain rfl | rfl | rfl | rfl | rfl | rfl | rfl | rfl := hmem
  · exact h15 (hmul 15)
  · exact h15 (hmul 5)
  · exact h15 (hmul 3)
  · exact h15 h
  · exact h51 (hmul 3)
  · exact h51 h
  · exact h85 h
  · exact lt_irrefl _ hlt

theorem alphaPow_ne_one {k : Nat} (hpos : 0 < k) (hlt : k < 255) : alphaPow k ≠ 1#8 := by
  have hgcd : Nat.gcd k 255 < 255 := (Nat.gcd_le_left 255 hpos).trans_lt hlt
  obtain ⟨m, -, hm⟩ := Nat.exists_mul_mod_eq_gcd hgcd
  intro h
  refine alphaPow_ne_one_of_dvd (Nat.gcd_dvd_right k 255) hgcd ?_
  rw [← hm, alphaPow_mod, alphaPow_mul_of_one h]

theorem alphaPow_injective_of_le {i j : Nat} (hij : i ≤ j) (hj : j < 255)
    (h : alphaPow i = alphaPow j) : i = j := by
  have hone : alphaPow (j - i) = 1#8 := by
    have hmul := congrArg (gmul · (alphaPow (255 - i))) h
    simp only [alphaPow_add] at hmul
    rw [show i + (255 - i) = 255 by omega, show j + (255 - i) = 255 + (j - i) by omega,
      ← alphaPow_add, alphaPow_255, gmul_one_left] at hmul
    exact hmul.symm
  by_contra hne
  exact alphaPow_ne_one (by omega) (by omega) hone

theorem alphaPow_injective {i j : Nat} (hi : i < 255) (hj : j < 255)
    (h : alphaPow i = alphaPow j) : i = j := by
  rcases Nat.le_total i j with hij | hji
  · exact alphaPow_injective_of_le hij hj h
  · exact (alphaPow_injective_of_le hji hi h.symm).symm

theorem alphaPow_ne_zero (i : Nat) : alphaPow i ≠ 0#8 := by
  intro h
  have hone : gmul (alphaPow i) (alphaPow (254 * i)) = 1#8 := by
    rw [alphaPow_add, show i + 254 * i = 255 * i by omega, alphaPow_mul_of_one alphaPow_255]
  rw [h, gmul_zero_left] at hone
  cases hone

/-- The 255 powers are 255 of the 255 nonzero bytes. -/
theorem exists_alphaPow_eq {a : Byte} (ha : a ≠ 0#8) : ∃ i, i < 255 ∧ alphaPow i = a := by
  have hmaps : Set.MapsTo (fun i => (alphaPow i).toNat) (Finset.range 255) (Finset.Icc 1 255) := by
    intro i _
    have hpos := alphaPow_ne_zero i
    simp only [Finset.coe_Icc, Set.mem_Icc]
    bv_omega
  have hinj : Set.InjOn (fun i => (alphaPow i).toNat) (Finset.range 255) := fun i hi j hj h =>
    alphaPow_injective (Finset.mem_range.mp hi) (Finset.mem_range.mp hj) (BitVec.eq_of_toNat_eq h)
  have honto := Finset.surjOn_of_injOn_of_card_le _ hmaps hinj (by simp)
  have hmem : a.toNat ∈ ((Finset.Icc 1 255 : Finset Nat) : Set Nat) := by
    simp only [Finset.coe_Icc, Set.mem_Icc]
    bv_omega
  obtain ⟨i, hi, hia⟩ := honto hmem
  exact ⟨i, Finset.mem_range.mp hi, BitVec.eq_of_toNat_eq hia⟩

/-- Settles O42. -/
theorem powersOfAlpha : Obligations.PowersOfAlpha := by
  refine ⟨alphaPow_255, fun a ha => ?_, fun i j => (alphaPow_add i j).trans (alphaPow_mod _).symm⟩
  obtain ⟨i, hi, rfl⟩ := exists_alphaPow_eq ha
  exact ⟨i, hi, rfl, fun j hj h => alphaPow_injective hj hi h⟩

end Sys2Proof.Machine
end

section
/-! PROOFS. The generator polynomials and the remainder of a block (43_reed_solomon.md R173, R174,
R178 and R179). Polynomials are lists of coefficients, highest power first, as the model has them:
first their sums and products, then the generator and its roots. Each data codeword appends one
coefficient to the quotient, which is what the taps of RSE.DATA compute; that the remainder is the
only one, and that it is linear, are facts about products with a polynomial of leading coefficient
1. -/

namespace Sys2Proof.Machine

/-! ### Sums of polynomials -/

theorem polyAdd_length {p q : List Byte} (h : p.length = q.length) :
    (polyAdd p q).length = q.length := by
  rw [polyAdd, List.length_zipWith, h, min_self]

theorem polyAdd_append {p q p' q' : List Byte} (h : p.length = q.length) :
    polyAdd (p ++ p') (q ++ q') = polyAdd p q ++ polyAdd p' q' :=
  List.zipWith_append h

theorem polyAdd_comm (p q : List Byte) : polyAdd p q = polyAdd q p :=
  List.zipWith_comm_of_comm BitVec.xor_comm

theorem polyAdd_assoc (p q r : List Byte) :
    polyAdd (polyAdd p q) r = polyAdd p (polyAdd q r) := by
  unfold polyAdd
  induction p generalizing q r with
  | nil => simp
  | cons a p ih =>
    cases q with
    | nil => simp
    | cons b q =>
      cases r with
      | nil => simp
      | cons c r => simp [ih, BitVec.xor_assoc]

theorem polyAdd_add_comm (p q p' q' : List Byte) :
    polyAdd (polyAdd p q) (polyAdd p' q') = polyAdd (polyAdd p p') (polyAdd q q') := by
  rw [polyAdd_assoc, ← polyAdd_assoc q, polyAdd_comm q p', polyAdd_assoc p', ← polyAdd_assoc]

theorem polyAdd_zeros (p : List Byte) : polyAdd p (List.replicate p.length 0#8) = p := by
  induction p with
  | nil => rfl
  | cons a p ih =>
    simp only [polyAdd, List.length_cons, List.replicate_succ, List.zipWith_cons_cons] at ih ⊢
    rw [ih, BitVec.xor_zero]

theorem zeros_polyAdd {n : Nat} {p : List Byte} (h : n = p.length) :
    polyAdd (List.replicate n 0#8) p = p := by
  rw [h, polyAdd_comm, polyAdd_zeros]

theorem polyAdd_self (p : List Byte) : polyAdd p p = List.replicate p.length 0#8 := by
  induction p with
  | nil => rfl
  | cons a p ih =>
    simp only [polyAdd, List.length_cons, List.replicate_succ, List.zipWith_cons_cons] at ih ⊢
    rw [ih, BitVec.xor_self]

theorem polyAdd_left_cancel {p q q' : List Byte} (hq : p.length = q.length)
    (hq' : p.length = q'.length) (h : polyAdd p q = polyAdd p q') : q = q' := by
  have hsum := congrArg (polyAdd p) h
  rwa [← polyAdd_assoc, ← polyAdd_assoc, polyAdd_self, zeros_polyAdd hq, zeros_polyAdd hq'] at hsum

theorem polyAdd_map_gmul (c c' : Byte) (g : List Byte) :
    polyAdd (g.map (gmul c)) (g.map (gmul c')) = g.map (gmul (c ^^^ c')) := by
  induction g with
  | nil => rfl
  | cons a g ih =>
    simp only [polyAdd, List.map_cons, List.zipWith_cons_cons] at ih ⊢
    rw [ih, gmul_xor_left]

/-! ### Values -/

section
variable (x : Byte)

/-- One step of Horner's rule. -/
def horner (acc c : Byte) : Byte := gmul acc x ^^^ c

theorem foldl_horner_add {p q : List Byte} (h : p.length = q.length) (a b : Byte) :
    (polyAdd p q).foldl (horner x) (a ^^^ b) = p.foldl (horner x) a ^^^ q.foldl (horner x) b := by
  induction p generalizing q a b with
  | nil =>
    obtain rfl := List.eq_nil_of_length_eq_zero h.symm
    rfl
  | cons c p ih =>
    cases q with
    | nil => cases h
    | cons d q =>
      have hstep : horner x (a ^^^ b) (c ^^^ d) = horner x a c ^^^ horner x b d := by
        rw [horner, gmul_xor_left, xor_xor_xor_comm]
        rfl
      rw [List.foldl_cons, List.foldl_cons, ← ih (Nat.succ_injective h), ← hstep]
      rfl

theorem polyEval_polyAdd {p q : List Byte} (h : p.length = q.length) :
    polyEval (polyAdd p q) x = polyEval p x ^^^ polyEval q x :=
  foldl_horner_add x h 0#8 0#8

theorem polyEval_concat (p : List Byte) (c : Byte) :
    polyEval (p ++ [c]) x = gmul (polyEval p x) x ^^^ c := by
  rw [polyEval, List.foldl_concat]
  rfl

theorem polyEval_zero_cons (p : List Byte) : polyEval (0#8 :: p) x = polyEval p x := by
  rw [polyEval, List.foldl_cons, gmul_zero_left]
  rfl

theorem polyEval_map_gmul (p : List Byte) (a : Byte) :
    polyEval (p.map fun c => gmul c a) x = gmul (polyEval p x) a := by
  induction p using List.reverseRecOn with
  | nil => exact (gmul_zero_left a).symm
  | append_singleton p c ih =>
    rw [List.map_append, List.map_singleton, polyEval_concat, polyEval_concat, ih,
      gmul_xor_left, gmul_assoc, gmul_assoc, gmul_comm a x]

theorem polyEval_mulLinear (g : List Byte) (a : Byte) :
    polyEval (mulLinear g a) x = gmul (polyEval g x) (x ^^^ a) := by
  rw [show mulLinear g a = polyAdd (g ++ [0#8]) (0#8 :: g.map fun c => gmul c a) from rfl,
    polyEval_polyAdd x (by simp), polyEval_concat, polyEval_zero_cons, polyEval_map_gmul,
    BitVec.xor_zero, gmul_xor_right]

end

/-! ### The generator (R173) -/

theorem genPoly_length (n : Nat) : (genPoly n).length = n + 1 := by
  induction n with
  | zero => rfl
  | succ n ih => simp [genPoly, mulLinear, ih]

theorem genPoly_eq_cons (n : Nat) : genPoly n = 1#8 :: genCoeffs n := by
  induction n with
  | zero => rfl
  | succ n ih =>
    rw [genCoeffs, genPoly, ih, mulLinear]
    simp

theorem genCoeffs_length (n : Nat) : (genCoeffs n).length = n := by
  rw [genCoeffs, List.length_tail, genPoly_length, Nat.add_sub_cancel]

theorem genPoly_root {n i : Nat} (h : i < n) : polyEval (genPoly n) (alphaPow i) = 0#8 := by
  induction n with
  | zero => cases h
  | succ n ih =>
    rw [genPoly, polyEval_mulLinear]
    rcases Nat.lt_succ_iff_lt_or_eq.mp h with hlt | rfl
    · rw [ih hlt, gmul_zero_left]
    · rw [BitVec.xor_self, gmul_zero_right]

/-- Settles O43: the last factor has the last root, the others by induction. -/
theorem generatorRoots : Obligations.GeneratorRoots :=
  ⟨fun n => ⟨genPoly_length n, by rw [genPoly_eq_cons]; rfl⟩, fun _ _ => genPoly_root,
    test_genCoeffs_7⟩

/-! ### Products with a polynomial of degree `n` -/

section
variable {g : List Byte} {n : Nat} (hg : g.length = n + 1)
include hg

theorem polyMul_length (q : List Byte) : (polyMul q g).length = q.length + n := by
  induction q with
  | nil => rw [polyMul, List.length_replicate, hg, List.length_nil, Nat.zero_add,
      Nat.add_sub_cancel]
  | cons c q ih =>
    rw [polyMul, polyAdd_length]
    · rw [List.length_cons, ih, List.length_cons, Nat.add_right_comm]
    · simp only [List.length_append, List.length_map, List.length_replicate, List.length_cons]
      omega

/-- One more coefficient of the first factor. -/
theorem polyMul_concat (q : List Byte) (f : Byte) :
    polyMul (q ++ [f]) g =
      polyAdd (polyMul q g ++ [0#8]) (List.replicate q.length 0#8 ++ g.map (gmul f)) := by
  induction q with
  | nil =>
    simp only [List.nil_append, polyMul, List.length_nil, List.replicate_zero, List.append_nil]
    rw [polyAdd_comm, ← List.replicate_succ, ← List.replicate_succ']
  | cons c q ih =>
    have hlen := polyMul_length hg q
    have hrow : (g.map (gmul c) ++ List.replicate q.length 0#8).length =
        (0#8 :: polyMul q g).length := by
      simp only [List.length_append, List.length_map, List.length_replicate, List.length_cons]
      omega
    calc polyMul (c :: (q ++ [f])) g
        = polyAdd (g.map (gmul c) ++ List.replicate q.length 0#8 ++ [0#8])
            (polyAdd (0#8 :: polyMul q g ++ [0#8])
              (0#8 :: (List.replicate q.length 0#8 ++ g.map (gmul f)))) := by
          rw [polyMul, ih, List.length_append, List.length_singleton, List.replicate_succ',
            List.append_assoc]
          rfl
      _ = polyAdd (polyAdd (g.map (gmul c) ++ List.replicate q.length 0#8) (0#8 :: polyMul q g) ++
            [0#8]) (List.replicate (q.length + 1) 0#8 ++ g.map (gmul f)) := by
          rw [← polyAdd_assoc, polyAdd_append hrow, List.replicate_succ]
          rfl

/-- Products are additive in the first factor. -/
theorem polyMul_polyAdd {p q : List Byte} (h : p.length = q.length) :
    polyMul (polyAdd p q) g = polyAdd (polyMul p g) (polyMul q g) := by
  induction p generalizing q with
  | nil =>
    obtain rfl := List.eq_nil_of_length_eq_zero h.symm
    have hzeros := polyAdd_self (polyMul [] g)
    rw [polyMul_length hg, List.length_nil, Nat.zero_add] at hzeros
    rw [hzeros, polyAdd, List.zipWith_nil_left, polyMul, hg, Nat.add_sub_cancel]
  | cons c p ih =>
    cases q with
    | nil => cases h
    | cons d q =>
      have h := Nat.succ_injective h
      have hrow : polyAdd (g.map (gmul c) ++ List.replicate p.length 0#8)
          (g.map (gmul d) ++ List.replicate q.length 0#8) =
          g.map (gmul (c ^^^ d)) ++ List.replicate (polyAdd p q).length 0#8 := by
        rw [polyAdd_append (by simp), polyAdd_map_gmul, zeros_polyAdd (by simpa using h),
          polyAdd_length h]
      have htail : polyAdd (0#8 :: polyMul p g) (0#8 :: polyMul q g) =
          0#8 :: polyAdd (polyMul p g) (polyMul q g) := rfl
      rw [polyMul, polyMul, polyAdd_add_comm, hrow, htail, ← ih h]
      rfl

/-- Leading zeros of the first factor are leading zeros of the product. -/
theorem polyMul_zeros_append (k : Nat) (q : List Byte) :
    polyMul (List.replicate k 0#8 ++ q) g = List.replicate k 0#8 ++ polyMul q g := by
  induction k with
  | zero => rfl
  | succ k ih =>
    have hrow : g.map (gmul 0#8) = List.replicate g.length 0#8 := by
      rw [show gmul 0#8 = fun _ => 0#8 from funext gmul_zero_left, List.map_const']
    have hlen := polyMul_length hg (List.replicate k 0#8 ++ q)
    rw [List.replicate_succ, List.cons_append, polyMul, hrow, List.replicate_append_replicate,
      zeros_polyAdd (by rw [List.length_cons, hlen]; omega), ih, List.cons_append]

end

/-! ### A leading coefficient 1 -/

section
variable {gs : List Byte}

/-- The leading coefficients of a product determine the first factor. -/
theorem polyMul_monic_injective {q q' : List Byte} (h : q.length = q'.length)
    (htake : (polyMul q (1#8 :: gs)).take q.length = (polyMul q' (1#8 :: gs)).take q'.length) :
    q = q' := by
  induction q generalizing q' with
  | nil => exact (List.eq_nil_of_length_eq_zero h.symm).symm
  | cons c q ih =>
    cases q' with
    | nil => cases h
    | cons c' q' =>
      have hqq : q.length = q'.length := Nat.succ_injective h
      simp only [polyMul, polyAdd, List.map_cons, List.cons_append, List.zipWith_cons_cons,
        List.length_cons, List.take_succ_cons, List.cons.injEq, gmul_one_right,
        BitVec.xor_zero] at htake
      obtain ⟨rfl, htail⟩ := htake
      rw [List.take_zipWith, List.take_zipWith, ← hqq] at htail
      have hlen := polyMul_length (g := 1#8 :: gs) rfl q
      have hlen' := polyMul_length (g := 1#8 :: gs) rfl q'
      have hprefix := polyAdd_left_cancel (by simp [hlen]) (by simp [hlen', hqq]) htail
      rw [ih hqq (hprefix.trans (by rw [hqq]))]

/-- A remainder is the only one. -/
theorem remainder_unique {data q q' e e' : List Byte} (hq : q.length = data.length)
    (hq' : q'.length = data.length) (h : polyMul q (1#8 :: gs) = data ++ e)
    (h' : polyMul q' (1#8 :: gs) = data ++ e') : e = e' := by
  have hquot : q = q' := polyMul_monic_injective (hq.trans hq'.symm) (by
    rw [h, h', hq, hq', List.take_left, List.take_left])
  rw [← hquot, h] at h'
  exact List.append_cancel_left h'

end

/-! ### The division of RSE.DATA (R176) -/

/-- One turn of the shift register, on the list of the registers. -/
def divStep (g r : List Byte) (b : Byte) : List Byte :=
  polyAdd (r.tail ++ [0#8]) (g.map (gmul (b ^^^ r.headD 0#8)))

/-- The registers after a block. -/
def blockRemainder (n : Nat) (data : List Byte) : List Byte :=
  data.foldl (divStep (genCoeffs n)) (List.replicate n 0#8)

theorem blockRemainder_concat (n : Nat) (data : List Byte) (b : Byte) :
    blockRemainder n (data ++ [b]) = divStep (genCoeffs n) (blockRemainder n data) b :=
  List.foldl_concat ..

theorem divStep_length {g r : List Byte} (hr : r.length = g.length) (hg : 1 ≤ g.length)
    (b : Byte) : (divStep g r b).length = g.length := by
  rw [divStep, polyAdd_length, List.length_map]
  rw [List.length_append, List.length_tail, hr, List.length_map, List.length_singleton,
    Nat.sub_add_cancel hg]

section
variable {n : Nat} (hn : 1 ≤ n)
include hn

theorem blockRemainder_length (data : List Byte) : (blockRemainder n data).length = n := by
  have hg := genCoeffs_length n
  induction data using List.reverseRecOn with
  | nil => exact List.length_replicate
  | append_singleton data b ih =>
    rw [blockRemainder_concat]
    exact (divStep_length (ih.trans hg.symm) (hg.symm ▸ hn) b).trans hg

/-- Each data codeword appends to the quotient the factor its taps are multiplied by. -/
theorem exists_quotient (data : List Byte) : ∃ q, q.length = data.length ∧
    polyMul q (genPoly n) = data ++ blockRemainder n data := by
  induction data using List.reverseRecOn with
  | nil =>
    refine ⟨[], rfl, ?_⟩
    rw [polyMul, genPoly_length, Nat.add_sub_cancel]
    rfl
  | append_singleton data b ih =>
    obtain ⟨q, hq, hmul⟩ := ih
    have hlen := blockRemainder_length hn data
    obtain ⟨r, rs, hr⟩ := List.exists_cons_of_length_pos (l := blockRemainder n data) (by omega)
    refine ⟨q ++ [b ^^^ r], by simp [hq], ?_⟩
    rw [polyMul_concat (genPoly_length n), hmul, hq, blockRemainder_concat, List.append_assoc,
      polyAdd_append (by simp), polyAdd_zeros, genPoly_eq_cons, hr, divStep]
    simp [polyAdd, gmul_one_right]

/-- What makes a list of bytes the block's remainder. -/
theorem eq_blockRemainder {data q e : List Byte} (hq : q.length = data.length)
    (h : polyMul q (genPoly n) = data ++ e) : e = blockRemainder n data := by
  obtain ⟨q', hq', h'⟩ := exists_quotient hn data
  rw [genPoly_eq_cons] at h h'
  exact remainder_unique hq hq' h h'

/-! ### Linearity (R179) -/

theorem blockRemainder_polyAdd {data data' : List Byte} (h : data.length = data'.length) :
    blockRemainder n (polyAdd data data') =
      polyAdd (blockRemainder n data) (blockRemainder n data') := by
  obtain ⟨q, hq, hmul⟩ := exists_quotient hn data
  obtain ⟨q', hq', hmul'⟩ := exists_quotient hn data'
  have hqq : q.length = q'.length := by rw [hq, hq', h]
  refine (eq_blockRemainder hn (q := polyAdd q q') ?_ ?_).symm
  · rw [polyAdd_length hqq, polyAdd_length h, hq']
  · rw [polyMul_polyAdd (genPoly_length n) hqq, hmul, hmul', polyAdd_append h]

theorem blockRemainder_zeros_append (k : Nat) (data : List Byte) :
    blockRemainder n (List.replicate k 0#8 ++ data) = blockRemainder n data := by
  obtain ⟨q, hq, hmul⟩ := exists_quotient hn data
  refine (eq_blockRemainder hn (q := List.replicate k 0#8 ++ q) (by simp [hq]) ?_).symm
  rw [polyMul_zeros_append (genPoly_length n), hmul, List.append_assoc]

theorem blockRemainder_zeros (k : Nat) :
    blockRemainder n (List.replicate k 0#8) = List.replicate n 0#8 := by
  have h := blockRemainder_zeros_append hn k []
  rwa [List.append_nil] at h

end

/-! ### The registers hold it -/

section
variable {s : State}

theorem remainderOf_length (s : State) : (remainderOf s).length = s.n.val := by
  rw [remainderOf, List.length_take, Vector.length_toList]
  exact min_eq_left (by omega)

theorem remainderOf_getElem {i : Nat} (hi : i < (remainderOf s).length) :
    (remainderOf s)[i] = remainder s i := by
  rw [remainderOf_length] at hi
  rw [remainder_of_lt s (by omega)]
  simp [remainderOf]

theorem remainderOf_start (n : Nat) (hn : n ≤ 30) (s : State) :
    remainderOf (respond .none (setRse (Fin.ofNat 31 n) (Vector.replicate 30 0#8) s)) =
      List.replicate n 0#8 := by
  have hval : (Fin.ofNat 31 n).val = n := Nat.mod_eq_of_lt (by omega)
  simp only [remainderOf, respond_r, respond_n, setRse, hval, Vector.toList_replicate,
    List.take_replicate, min_eq_left hn]

/-- The registers below N, shifted once, are one turn of the division. -/
theorem remainderOf_shift (hn : s.n ≠ 0) (b : Byte) :
    remainderOf (respond .none
      (setRse s.n (shiftRegister s.n.val (genCoeffs s.n.val) (b ^^^ remainder s 0) s.r) s)) =
      divStep (genCoeffs s.n.val) (remainderOf s) b := by
  have hpos : 1 ≤ s.n.val := Fin.pos_iff_ne_zero.mpr hn
  have hg := genCoeffs_length s.n.val
  have hlen := remainderOf_length s
  have hhead : (remainderOf s).headD 0#8 = remainder s 0 := by
    rw [List.headD_eq_head?_getD, List.head?_eq_getElem?, List.getElem?_eq_getElem (by omega),
      Option.getD_some, remainderOf_getElem]
  refine List.ext_getElem ?_ fun i hi hi' => ?_
  · rw [remainderOf_length, divStep_length (hlen.trans hg.symm) (hg.symm ▸ hpos), hg]
    rfl
  · have hi : i < s.n.val := by rwa [remainderOf_length] at hi
    have htap : (genCoeffs s.n.val).getD i 0#8 = (genCoeffs s.n.val)[i] :=
      List.getD_eq_getElem _ _ (by omega)
    rw [remainderOf_getElem, remainder_shiftRegister, htap]
    simp only [divStep, polyAdd, List.getElem_zipWith, List.getElem_map, hhead,
      gmul_comm _ (b ^^^ remainder s 0)]
    by_cases hlast : i + 1 < s.n.val
    · rw [if_pos hlast, List.getElem_append_left (by rw [List.length_tail]; omega),
        List.getElem_tail, remainderOf_getElem]
    · rw [if_neg hlast, if_pos (by omega),
        List.getElem_append_right (by rw [List.length_tail]; omega), List.getElem_singleton,
        BitVec.zero_xor]

/-- A block of remainder length `n` in progress, of which `data` has been fed. -/
structure Dividing (n : Nat) (data : List Byte) (s : State) : Prop where
  unfaulted : s.fault = false
  length : s.n.val = n
  registers : remainderOf s = blockRemainder n data

theorem Dividing.step {n : Nat} {data : List Byte} (h : Dividing n data s) (hn : 1 ≤ n) (b : Byte) :
    ∃ t, exec (.rseData b) s = .next t ∧ Dividing n (data ++ [b]) t := by
  obtain ⟨hs, rfl, hregs⟩ := h
  have hactive : s.n ≠ 0 := Fin.pos_iff_ne_zero.mp hn
  have hexec := exec_of_effect_done (exec_rseData b s) hs (rseDataEffect_done hactive)
  obtain ⟨hn', hfault, -⟩ := setRse_frame s.n
    (shiftRegister s.n.val (genCoeffs s.n.val) (b ^^^ remainder s 0) s.r) s
  refine ⟨_, hexec, hfault.fault.trans hs, congrArg Fin.val hn', ?_⟩
  rw [remainderOf_shift hactive, hregs, blockRemainder_concat]

theorem Dividing.run {n : Nat} {data : List Byte} (h : Dividing n data s) (hn : 1 ≤ n)
    (rest : List Byte) :
    ∃ t, execAll (rest.map .rseData) s = .next t ∧ Dividing n (data ++ rest) t := by
  induction rest generalizing data s with
  | nil => exact ⟨s, rfl, by rwa [List.append_nil]⟩
  | cons b rest ih =>
    obtain ⟨u, hexec, hu⟩ := h.step hn b
    obtain ⟨t, hall, ht⟩ := ih hu
    refine ⟨t, ?_, by rwa [List.append_cons]⟩
    simp only [List.map_cons, execAll, hexec]
    exact hall

/-- RSE.START and the data of a block. -/
theorem block_run {n : Nat} (h1 : 1 ≤ n) (h30 : n ≤ 30) (hs : s.fault = false) (data : List Byte) :
    ∃ t, execAll (.rseStart n :: data.map .rseData) s = .next t ∧ Dividing n data t := by
  have hexec := exec_of_effect_done (exec_rseStart n s) hs (rseStartEffect_done h1 h30)
  have hval : (Fin.ofNat 31 n).val = n := Nat.mod_eq_of_lt (by omega)
  have hstart : Dividing n []
      (respond .none (setRse (Fin.ofNat 31 n) (Vector.replicate 30 0#8) s)) :=
    ⟨hs, hval, remainderOf_start n h30 s⟩
  obtain ⟨t, hall, ht⟩ := hstart.run h1 data
  refine ⟨t, ?_, ht⟩
  simp only [execAll, hexec]
  exact hall

theorem dividing_of_execAll {n : Nat} {t : State} {data : List Byte} (h1 : 1 ≤ n) (h30 : n ≤ 30)
    (hs : s.fault = false) (h : execAll (.rseStart n :: data.map .rseData) s = .next t) :
    Dividing n data t := by
  obtain ⟨t', h', ht'⟩ := block_run h1 h30 hs data
  cases h'.symm.trans h
  exact ht'

end

/-- Settles O47: the quotient grows with the data, and a remainder is the only one. -/
theorem registersHoldTheRemainder : Obligations.RegistersHoldTheRemainder := by
  intro n data s h1 h30 hs
  obtain ⟨t, hexec, hfault, hn, hregs⟩ := block_run h1 h30 hs data
  obtain ⟨q, hq, hmul⟩ := exists_quotient h1 data
  refine ⟨t, hexec, hfault, hn, (remainderOf_length t).trans hn, ⟨q, hq, ?_⟩, ?_⟩
  · rw [hmul, hregs]
  · intro q e hq _ h
    rw [hregs, eq_blockRemainder h1 hq h]

/-- Settles O48: the registers are the block's remainder, which is linear. -/
theorem remainderIsLinear : Obligations.RemainderIsLinear := by
  intro n s h1 h30 hs
  have registers : ∀ {data t}, execAll (.rseStart n :: data.map .rseData) s = .next t →
      remainderOf t = blockRemainder n data := fun h => (dividing_of_execAll h1 h30 hs h).registers
  refine ⟨fun d d' t t' u hlen ht ht' hu => ?_, fun k t ht => ?_, fun k d t u ht hu => ?_⟩
  · rw [registers ht, registers ht', registers hu, blockRemainder_polyAdd h1 hlen]
  · rw [registers ht, blockRemainder_zeros h1]
  · rw [registers ht, registers hu, blockRemainder_zeros_append h1]

/-! ### Completed activities (70_reset_and_hazards.md R246) -/

theorem fedSinceStart_block (n : Nat) (data : List Byte) :
    fedSinceStart (.rseStart n :: data.map Instr.rseData).reverse = some data := by
  induction data using List.reverseRecOn with
  | nil => rfl
  | append_singleton data b ih =>
    rw [List.map_append, List.map_singleton, ← List.cons_append, List.reverse_concat,
      fedSinceStart, ih]
    rfl

/-- PCK.TERM that does not fault fills the buffer. -/
theorem packingComplete_of_pckTerm {s t : State} (hs : s.fault = false)
    (h : exec .pckTerm s = .next t) (ht : t.fault = false) (hist : List Instr) :
    PackingComplete defaultConfig (.pckTerm :: hist) t := by
  cases execOutcome h with
  | ignored hf => exact absurd (hf.symm.trans hs) (by decide)
  | raised => cases ht
  | performed h =>
    cases h with
    | @pckTerm c closed cap room =>
      obtain ⟨-, hmax, hmod⟩ := capacity_bounds cap
      have hframe := (terminate_onlyStream c s).respond .none
      have hlen : (respond .none (terminate c s)).len.toNat = c := terminate_len hmod hmax room
      refine ⟨ht, hframe.segment.rem.trans closed, ?_, rfl⟩
      rw [capacity_congr hframe.target.version hframe.target.ecl, cap, hlen]

/-- Settles O56: what each completing command leaves, and that FAULT = 0 is part of every
completion. -/
theorem completedActivities : Obligations.CompletedActivities := by
  refine ⟨fun hist s t hs h ht => packingComplete_of_pckTerm hs h ht hist, fun hist s t hs h => ?_,
    fun n data s t hs h1 h30 h => ?_, fun cfg hist block s hs => ?_⟩
  · cases (exec_clsEnd_of_unfaulted hs).symm.trans h
    exact ⟨⟨hs, rfl⟩, rfl, rfl⟩
  · obtain ⟨hfault, hn, -⟩ := dividing_of_execAll h1 h30 hs h
    exact ⟨hfault, Fin.pos_iff_ne_zero.mp (show 0 < t.n.val by omega), fedSinceStart_block n data⟩
  · have hne : s.fault ≠ false := by
      rw [hs]
      decide
    exact ⟨fun h => hne h.1, fun h => hne h.1, fun h => hne h.1⟩

end Sys2Proof.Machine
end

section
/-! PROOFS. What a packing computes (42_packer.md R143 to R145). The characters of the partial group
stand for bits that are still to come: with a segment open, the bits to come are the stream of the
characters held and the characters awaited, and each PCK.DATA either appends the first group of that
stream or holds one more character. A segment is its header and these bits; a message is its
segments, one after another, from the empty buffer that PCK.INIT leaves, and PCK.TERM touches no
byte before the byte boundary. -/

namespace Sys2Proof.Machine

/-! ### Lengths of streams (R143) -/

/-- Settles O37: by the size of the last group. -/
theorem dataBitsIsTheCostFunction : Obligations.DataBitsIsTheCostFunction := by
  intro l
  have hlast : l % 3 = 0 ∨ l % 3 = 1 ∨ l % 3 = 2 := by omega
  refine ⟨?_, by simp only [dataBits]; omega, rfl⟩
  obtain h | h | h := hlast <;> simp only [dataBits, h, List.getD_cons_zero,
    List.getD_cons_succ] <;>
    omega

theorem dataBits_numeric_add_three (l : Nat) :
    dataBits .numeric (l + 3) = 10 + dataBits .numeric l := by
  simp only [dataBits, Nat.add_mod_right]
  omega

theorem dataBits_alphanumeric_add_two (l : Nat) :
    dataBits .alphanumeric (l + 2) = 11 + dataBits .alphanumeric l := by
  simp only [dataBits, Nat.add_mod_right]
  omega

theorem numericStream_length (cs : List Byte) :
    (numericStream cs).length = dataBits .numeric cs.length := by
  induction cs using numericStream.induct with
  | case1 => rfl
  | case2 a => simp [numericStream, dataBits]
  | case3 a b => simp [numericStream, dataBits]
  | case4 a b c rest ih =>
    simp only [numericStream, List.length_append, bitsOf_length, ih, List.length_cons,
      dataBits_numeric_add_three]

theorem alnumStream_length (cs : List Byte) :
    (alnumStream cs).length = dataBits .alphanumeric cs.length := by
  induction cs using alnumStream.induct with
  | case1 => rfl
  | case2 a => simp [alnumStream, dataBits]
  | case3 a b rest ih =>
    simp only [alnumStream, List.length_append, bitsOf_length, ih, List.length_cons,
      dataBits_alphanumeric_add_two]

theorem byteStream_length (cs : List Byte) : (byteStream cs).length = dataBits .byte cs.length := by
  induction cs with
  | nil => rfl
  | cons b cs ih =>
    simp only [byteStream, List.length_append, bitsOf_length, ih, dataBits, List.length_cons]
    omega

theorem charStream_length (m : Mode) (cs : List Byte) :
    (charStream m cs).length = dataBits m cs.length := by
  cases m with
  | numeric => exact numericStream_length cs
  | alphanumeric => exact alnumStream_length cs
  | byte => exact byteStream_length cs

theorem segStream_length (m : Mode) (cs : List Byte) (v : Nat) :
    (segStream m cs v).length = segBits m cs.length v := by
  simp only [segStream, List.length_append, bitsOf_length, charStream_length, segBits]

/-! ### The characters of the partial group -/

/-- The partial group with this value and count stands for these characters. -/
inductive HeldChars : Mode → List Byte → Nat → Nat → Prop
  | none (m : Mode) : HeldChars m [] 0 0
  | oneDigit (x : Byte) (valid : validIn .numeric x = true) : HeldChars .numeric [x] (digit x) 1
  | twoDigits (x y : Byte) (valid : validIn .numeric x = true)
      (valid' : validIn .numeric y = true) :
      HeldChars .numeric [x, y] (digit x * 10 + digit y) 2
  | oneAlnum (x : Byte) : HeldChars .alphanumeric [x] (alnum x) 1

section
variable {m : Mode} {held : List Byte} {a k : Nat} {b : Byte}

theorem HeldChars.heldGroup (h : HeldChars m held a k) : HeldGroup m a k := by
  cases h with
  | none => exact heldGroup_empty m
  | oneDigit x valid => exact .inr (.inl ⟨rfl, digit_le x valid⟩)
  | twoDigits x y valid valid' =>
    have hx := digit_le x valid
    have hy := digit_le y valid'
    exact .inr (.inr ⟨rfl, by omega⟩)
  | oneAlnum x => exact .inr ⟨rfl, alnum_le x⟩

theorem HeldChars.of_nil (h : HeldChars m [] a k) : a = 0 ∧ k = 0 := by
  cases h
  exact ⟨rfl, rfl⟩

/-- The next character completes the first group of the bits to come, or is held as well. -/
theorem HeldChars.dataGroup (h : HeldChars m held a k) (hb : validIn m b = true) (cs : List Byte) :
    (∃ n v, dataGroup m a k cs.length b = .emit n v ∧
      charStream m (held ++ b :: cs) = bitsOf n v ++ charStream m cs) ∨
    (cs ≠ [] ∧ ∃ a' k', dataGroup m a k cs.length b = .keep a' k' ∧
      HeldChars m (held ++ [b]) a' k') := by
  cases m with
  | numeric =>
    rw [dataGroup_numeric hb]
    cases h with
    | none =>
      cases cs with
      | nil => exact .inl ⟨4, _, rfl, by simp [charStream, numericStream]⟩
      | cons c cs => exact .inr ⟨nofun, _, _, rfl, by simpa using HeldChars.oneDigit b hb⟩
    | oneDigit x valid =>
      cases cs with
      | nil => exact .inl ⟨7, _, rfl, by simp [charStream, numericStream]⟩
      | cons c cs => exact .inr ⟨nofun, _, _, rfl, .twoDigits x b valid hb⟩
    | twoDigits x y valid valid' =>
      refine .inl ⟨10, _, rfl, ?_⟩
      have hvalue : digit x * 100 + digit y * 10 + digit b =
          (digit x * 10 + digit y) * 10 + digit b := by ring
      simp [charStream, numericStream, hvalue]
  | alphanumeric =>
    rw [dataGroup_alphanumeric hb]
    cases h with
    | none =>
      cases cs with
      | nil => exact .inl ⟨6, _, rfl, by simp [charStream, alnumStream]⟩
      | cons c cs => exact .inr ⟨nofun, _, _, rfl, .oneAlnum b⟩
    | oneAlnum x => exact .inl ⟨11, _, rfl, rfl⟩
  | byte =>
    cases h with
    | none => exact .inl ⟨8, _, rfl, rfl⟩

end

theorem charStream_nil (m : Mode) : charStream m [] = [] := by cases m <;> rfl

/-! ### Appending, with its frame -/

/-- The bits were appended, and the other units and the target are as before. -/
structure Appends (bs : List Bool) (s t : State) : Prop where
  appended : Appended bs s t
  cls : SameCls s t
  target : SameTarget s t
  rse : SameRse s t

theorem Appends.trans {bs bs' : List Bool} {s t u : State} (h : Appends bs s t)
    (h' : Appends bs' t u) : Appends (bs ++ bs') s u where
  appended := h.appended.trans h'.appended
  cls := ⟨h'.cls.cstate.trans h.cls.cstate, h'.cls.pos.trans h.cls.pos,
    h'.cls.segBegin.trans h.cls.segBegin⟩
  target := ⟨h'.target.version.trans h.target.version, h'.target.ecl.trans h.target.ecl⟩
  rse := h.rse.trans h'.rse

theorem Appends.refl (s : State) : Appends [] s s :=
  ⟨.nil rfl rfl, ⟨rfl, rfl, rfl⟩, ⟨rfl, rfl⟩, ⟨rfl, rfl⟩⟩

theorem Performs.bufWf {cfg : Config} {i : Instr} {s t : State} (h : Performs cfg s i t)
    (hw : Memory.wf s.buf = true) : Memory.wf t.buf = true := by
  cases h with
  | rst => rfl
  | pckInit => rfl
  | pckBits => exact push_bufWf _ _ hw
  | pckSeg => exact push_bufWf _ _ (push_bufWf _ _ hw)
  | emit => exact push_bufWf _ _ hw
  | @pckTerm c closed cap room =>
    obtain ⟨-, hmax, hmod⟩ := capacity_bounds cap
    rw [respond_buf, terminate_buf hmod hmax room]
    exact padCodewords_bufWf _ true hw
  | _ => exact hw

/-- Every command keeps the canonical form. -/
theorem exec_bufWf {i : Instr} {s t : State} (h : exec i s = .next t)
    (hw : Memory.wf s.buf = true) : Memory.wf t.buf = true := by
  cases execOutcome h with
  | ignored => exact hw
  | raised => exact hw
  | performed h => exact h.bufWf hw

theorem execAll_append {is js : List Instr} {s t : State} (h : execAll is s = .next t) :
    execAll (is ++ js) s = execAll js t := by
  induction is generalizing s with
  | nil =>
    cases h
    rfl
  | cons i is ih =>
    obtain ⟨u, hu⟩ := exec_next i s
    simp only [List.cons_append, execAll, hu] at h ⊢
    exact ih h

/-! ### The characters of a segment -/

/-- A segment of mode `m` is open at capacity `c`, with these characters held and these awaited. -/
structure Open (m : Mode) (c : Nat) (held cs : List Byte) (s : State) : Prop where
  unfaulted : s.fault = false
  bufWf : Memory.wf s.buf = true
  cap : capacity defaultConfig s = some c
  room : s.len.toNat ≤ c
  mode : s.curMode = m
  awaited : s.rem.toNat = cs.length
  group : HeldChars m held s.acc.toNat s.accN.val
  last : cs = [] → held = []

/-- No segment is open. -/
structure Closed (s : State) : Prop where
  unfaulted : s.fault = false
  bufWf : Memory.wf s.buf = true
  rem : s.rem = 0#16
  acc : s.acc = 0#7
  accN : s.accN = 0

section
variable {m : Mode} {c : Nat} {held cs : List Byte} {b : Byte} {s : State}

theorem Open.rem_ne_zero (h : Open m c held (b :: cs) s) : s.rem ≠ 0#16 := by
  intro hzero
  have hlen := h.awaited
  rw [hzero] at hlen
  cases hlen

theorem Open.closed (h : Open m c [] [] s) : Closed s := by
  obtain ⟨hacc, haccN⟩ := h.group.of_nil
  exact ⟨h.unfaulted, h.bufWf, BitVec.eq_of_toNat_eq h.awaited, BitVec.eq_of_toNat_eq hacc,
    Fin.ext haccN⟩

/-- The character completes a group that fits. -/
theorem Open.emit (h : Open m c held (b :: cs) s) {n v : Nat}
    (hgroup : dataGroup m s.acc.toNat s.accN.val cs.length b = .emit n v)
    (hfits : s.len.toNat + n ≤ c) :
    ∃ t, exec (.pckData b) s = .next t ∧ Appends (bitsOf n v) s t ∧ Open m c [] cs t := by
  have hrem1 : s.rem.toNat - 1 = cs.length := by rw [h.awaited, List.length_cons]; rfl
  have hcompletes := completesGroup_of_emit (b := b) (n := n) (v := v) h.bufWf h.unfaulted
    h.rem_ne_zero h.cap (by rw [h.mode, hrem1, hgroup])
  obtain ⟨t, hexec, happended, hacc, haccN, hrem, hmode, hfault, hcls, htarget, hrse, -⟩ :=
    hcompletes.2 hfits
  refine ⟨t, hexec, ⟨happended, hcls, htarget, hrse⟩, hfault.fault.trans h.unfaulted,
    exec_bufWf hexec h.bufWf, (capacity_congr htarget.version htarget.ecl).trans h.cap, ?_,
    hmode.trans h.mode, hrem.trans hrem1, ?_, fun _ => rfl⟩
  · rw [happended.len, bitsOf_length]
    exact hfits
  · rw [hacc, haccN]
    exact .none m

/-- The character is held. -/
theorem Open.keep (h : Open m c held (b :: cs) s) {a k : Nat}
    (hgroup : dataGroup m s.acc.toNat s.accN.val cs.length b = .keep a k) (hmore : cs ≠ [])
    (hheld : HeldChars m (held ++ [b]) a k) :
    ∃ t, exec (.pckData b) s = .next t ∧ Appends [] s t ∧ Open m c (held ++ [b]) cs t := by
  have hrem1 : s.rem.toNat - 1 = cs.length := by rw [h.awaited, List.length_cons]; rfl
  have hexec := exec_of_effect_done (exec_pckData b s) h.unfaulted
    (pckDataEffect_keep h.rem_ne_zero h.cap (by rw [h.mode, hrem1, hgroup]))
  obtain ⟨ha, hk⟩ := hheld.heldGroup.bounds
  have hacc : (BitVec.ofNat 7 a).toNat = a := Nat.mod_eq_of_lt (by omega)
  have haccN : (Fin.ofNat 3 k).val = k := Nat.mod_eq_of_lt (by omega)
  refine ⟨_, hexec, ⟨.nil rfl rfl, ⟨rfl, rfl, rfl⟩, ⟨rfl, rfl⟩, ⟨rfl, rfl⟩⟩, h.unfaulted, h.bufWf,
    h.cap, h.room, h.mode, (rem_pred_toNat s).trans hrem1, ?_, fun hnil => absurd hnil hmore⟩
  simp only [respond_acc, respond_accN]
  rwa [hacc, haccN]

/-- The bits to come fit the capacity: they are appended. -/
theorem Open.run (h : Open m c held cs s) (hvalid : ∀ b ∈ cs, validIn m b = true)
    (hfits : s.len.toNat + (charStream m (held ++ cs)).length ≤ c) :
    ∃ t, execAll (cs.map .pckData) s = .next t ∧ Appends (charStream m (held ++ cs)) s t ∧
      Closed t := by
  induction cs generalizing held s with
  | nil =>
    obtain rfl := h.last rfl
    refine ⟨s, rfl, ?_, h.closed⟩
    rw [List.append_nil, charStream_nil]
    exact .refl s
  | cons b cs ih =>
    obtain ⟨hb, hcs⟩ := List.forall_mem_cons.mp hvalid
    obtain ⟨n, v, hgroup, hstream⟩ | ⟨hmore, a, k, hgroup, hheld⟩ := h.group.dataGroup hb cs
    · rw [hstream, List.length_append, bitsOf_length] at hfits
      obtain ⟨u, hexec, hu, hopen⟩ := h.emit hgroup (by omega)
      obtain ⟨t, hall, ht, hclosed⟩ := ih hopen hcs (by
        rw [hu.appended.len, bitsOf_length, List.nil_append]
        omega)
      refine ⟨t, ?_, hstream ▸ hu.trans ht, hclosed⟩
      simp only [List.map_cons, execAll, hexec]
      exact hall
    · obtain ⟨u, hexec, hu, hopen⟩ := h.keep hgroup hmore hheld
      rw [List.append_cons] at hfits ⊢
      obtain ⟨t, hall, ht, hclosed⟩ := ih hopen hcs (by
        rw [hu.appended.len]
        exact hfits)
      refine ⟨t, ?_, hu.trans ht, hclosed⟩
      simp only [List.map_cons, execAll, hexec]
      exact hall

/-- While FAULT = 1 the characters are ignored. -/
theorem execAll_pckData_of_faulted (hs : s.fault = true) (cs : List Byte) :
    ∃ t, execAll (cs.map .pckData) s = .next t ∧ t.fault = true ∧ t.cause = s.cause := by
  induction cs generalizing s with
  | nil => exact ⟨s, rfl, hs, rfl⟩
  | cons b cs ih =>
    obtain ⟨t, hall, hfault, hcause⟩ := ih (s := respond .none s) hs
    have hexec : exec (.pckData b) s = .next (respond .none s) := exec_of_faulted hs nofun nofun
    refine ⟨t, ?_, hfault, hcause⟩
    simp only [List.map_cons, execAll, hexec]
    exact hall

/-- A command that raises DataTooLong, and then characters. -/
theorem execAll_of_dataTooLong {i : Instr} (h : FaultsWith .dataTooLong i s) (cs : List Byte) :
    ∃ t, execAll (i :: cs.map .pckData) s = .next t ∧ t.fault = true ∧ t.cause = .dataTooLong := by
  obtain ⟨u, hexec, hraised⟩ := h
  obtain ⟨t, hall, hfault, hcause⟩ := execAll_pckData_of_faulted hraised.fault cs
  refine ⟨t, ?_, hfault, hcause.trans hraised.cause⟩
  simp only [execAll, hexec]
  exact hall

/-- The bits to come do not fit the capacity: some character raises DataTooLong. -/
theorem Open.run_dataTooLong (h : Open m c held cs s) (hvalid : ∀ b ∈ cs, validIn m b = true)
    (hlong : c < s.len.toNat + (charStream m (held ++ cs)).length) :
    ∃ t, execAll (cs.map .pckData) s = .next t ∧ t.fault = true ∧ t.cause = .dataTooLong := by
  induction cs generalizing held s with
  | nil =>
    obtain rfl := h.last rfl
    have hroom := h.room
    rw [List.append_nil, charStream_nil, List.length_nil] at hlong
    omega
  | cons b cs ih =>
    obtain ⟨hb, hcs⟩ := List.forall_mem_cons.mp hvalid
    obtain ⟨n, v, hgroup, hstream⟩ | ⟨hmore, a, k, hgroup, hheld⟩ := h.group.dataGroup hb cs
    · rcases Nat.lt_or_ge c (s.len.toNat + n) with hgroupLong | hfits
      · have hrem1 : s.rem.toNat - 1 = cs.length := by rw [h.awaited, List.length_cons]; rfl
        exact execAll_of_dataTooLong (faultsWith_of_effect (exec_pckData b s) h.unfaulted
          (pckDataEffect_dataTooLong h.rem_ne_zero h.cap (by rw [h.mode, hrem1, hgroup])
            hgroupLong)) cs
      · rw [hstream, List.length_append, bitsOf_length] at hlong
        obtain ⟨u, hexec, hu, hopen⟩ := h.emit hgroup hfits
        obtain ⟨t, hall, hend⟩ := ih hopen hcs (by
          rw [hu.appended.len, bitsOf_length, List.nil_append]
          omega)
        refine ⟨t, ?_, hend⟩
        simp only [List.map_cons, execAll, hexec]
        exact hall
    · obtain ⟨u, hexec, hu, hopen⟩ := h.keep hgroup hmore hheld
      rw [List.append_cons] at hlong
      obtain ⟨t, hall, hend⟩ := ih hopen hcs (by
        rw [hu.appended.len]
        exact hlong)
      refine ⟨t, ?_, hend⟩
      simp only [List.map_cons, execAll, hexec]
      exact hall

end

/-! ### A segment (R143) -/

section
variable {m : Mode} {c : Nat} {cs : List Byte} {s : State} (hw : Memory.wf s.buf = true)
  (hs : s.fault = false) (hrem : s.rem = 0#16) (hcap : capacity defaultConfig s = some c)
include hw hs hrem hcap

/-- The header fits: it is appended, and the segment is open. -/
theorem exec_pckSeg_open (hcount16 : cs.length < 2 ^ 16)
    (hcount : cs.length < 2 ^ lenBits m s.version.toNat)
    (hfits : s.len.toNat + 4 + lenBits m s.version.toNat ≤ c) :
    ∃ t, exec (.pckSeg (modeCode m) cs.length) s = .next t ∧
      Appends (bitsOf 4 (modeInd m) ++ bitsOf (lenBits m s.version.toNat) cs.length) s t ∧
      Open m c [] cs t := by
  have hexec := exec_of_effect_done (exec_pckSeg _ cs.length s) hs
    (pckSegEffect_done hrem hcap hcount hfits)
  obtain ⟨-, hmax, -⟩ := capacity_bounds hcap
  have happended := push_header_appended (ind := modeInd m) (count := cs.length) hw
    (hfits.trans hmax)
  refine ⟨_, hexec, ⟨happended.congr rfl rfl rfl rfl, ⟨rfl, rfl, rfl⟩, ⟨rfl, rfl⟩, ⟨rfl, rfl⟩⟩, hs,
    exec_bufWf hexec hw, hcap, ?_, rfl, Nat.mod_eq_of_lt hcount16, .none m, fun _ => rfl⟩
  exact (push_header_len (ind := modeInd m) (count := cs.length) (hfits.trans hmax)).le.trans hfits

theorem segment_fits (hcount16 : cs.length < 2 ^ 16) (hvalid : ∀ b ∈ cs, validIn m b = true)
    (hcount : cs.length < 2 ^ lenBits m s.version.toNat)
    (hfits : s.len.toNat + segBits m cs.length s.version.toNat ≤ c) :
    ∃ t, execAll (segCommands m cs) s = .next t ∧ Appends (segStream m cs s.version.toNat) s t ∧
      Closed t := by
  unfold segBits at hfits
  obtain ⟨u, hexec, hu, hopen⟩ := exec_pckSeg_open hw hs hrem hcap hcount16 hcount (by omega)
  obtain ⟨t, hall, ht, hclosed⟩ := hopen.run hvalid (by
    rw [hu.appended.len, List.nil_append, charStream_length, List.length_append, bitsOf_length,
      bitsOf_length]
    omega)
  refine ⟨t, ?_, hu.trans ht, hclosed⟩
  simp only [segCommands, execAll, hexec]
  exact hall

theorem segment_dataTooLong (hcount16 : cs.length < 2 ^ 16)
    (hvalid : ∀ b ∈ cs, validIn m b = true)
    (hlong : 2 ^ lenBits m s.version.toNat ≤ cs.length ∨
      c < s.len.toNat + segBits m cs.length s.version.toNat) :
    ∃ t, execAll (segCommands m cs) s = .next t ∧ t.fault = true ∧ t.cause = .dataTooLong := by
  by_cases hheader : 2 ^ lenBits m s.version.toNat ≤ cs.length ∨
      c < s.len.toNat + 4 + lenBits m s.version.toNat
  · exact execAll_of_dataTooLong (faultsWith_of_effect (exec_pckSeg _ cs.length s) hs
      (pckSegEffect_dataTooLong hrem hcap hheader)) cs
  · obtain ⟨hcount, hfits⟩ := not_or.mp hheader
    have hlong := hlong.resolve_left hcount
    unfold segBits at hlong
    obtain ⟨u, hexec, hu, hopen⟩ := exec_pckSeg_open hw hs hrem hcap hcount16
      (Nat.lt_of_not_le hcount) (Nat.le_of_not_lt hfits)
    obtain ⟨t, hall, hend⟩ := hopen.run_dataTooLong hvalid (by
      rw [hu.appended.len, List.nil_append, charStream_length, List.length_append, bitsOf_length,
        bitsOf_length]
      omega)
    refine ⟨t, ?_, hend⟩
    simp only [segCommands, execAll, hexec]
    exact hall

end

/-- Settles O36: the header, then the characters, each of which appends or holds or is one too many.
-/
theorem segmentAppendsItsStream : Obligations.SegmentAppendsItsStream := by
  intro m chars s c hw hs hrem hcap hcount16 hvalid
  refine ⟨segStream_length m chars _, fun hcount hfits => ?_,
    segment_dataTooLong hw hs hrem hcap hcount16 hvalid⟩
  obtain ⟨t, hexec, happends, hclosed⟩ := segment_fits hw hs hrem hcap hcount16 hvalid hcount hfits
  exact ⟨t, hexec, hclosed.unfaulted, happends.appended, hclosed.rem, hclosed.acc, hclosed.accN,
    happends.cls, happends.target, happends.rse⟩

/-! ### A message (R144) -/

section
variable {v c : Nat}

/-- The segments of a message, one after another. -/
theorem segments_fit {s : State} (hs : Closed s) (hcap : capacity defaultConfig s = some c)
    (hversion : s.version.toNat = v) (segs : List (Mode × List Byte))
    (hsegs : ∀ x ∈ segs, x.2.length < 2 ^ lenBits x.1 v ∧ ∀ b ∈ x.2, validIn x.1 b = true)
    (hfits : s.len.toNat + (segs.map fun x => segBits x.1 x.2.length v).sum ≤ c) :
    ∃ t, execAll (segs.flatMap fun x => segCommands x.1 x.2) s = .next t ∧
      Appends (segs.flatMap fun x => segStream x.1 x.2 v) s t ∧ Closed t := by
  induction segs generalizing s with
  | nil => exact ⟨s, rfl, .refl s, hs⟩
  | cons x segs ih =>
    obtain ⟨⟨hcount, hvalid⟩, hsegs⟩ := List.forall_mem_cons.mp hsegs
    have hcount16 : x.2.length < 2 ^ 16 :=
      hcount.trans_le (Nat.pow_le_pow_right (by decide) (lenBits_bounds x.1 v).2)
    rw [List.map_cons, List.sum_cons] at hfits
    subst hversion
    obtain ⟨u, hseg, hu, hclosed⟩ := segment_fits hs.bufWf hs.unfaulted hs.rem hcap hcount16 hvalid
      hcount (by omega)
    have hversion := congrArg BitVec.toNat hu.target.version
    obtain ⟨t, hall, ht, hend⟩ := ih hclosed
      ((capacity_congr hu.target.version hu.target.ecl).trans hcap) hversion hsegs (by
        rw [hu.appended.len, segStream_length]
        omega)
    exact ⟨t, (execAll_append hseg).trans hall, hu.trans ht, hend⟩

end

end Sys2Proof.Machine
end

section
/-! PROOFS. Whole messages (42_packer.md R144, R145). PCK.INIT leaves an empty buffer, so after the
segments the buffer holds their stream and nothing else; PCK.TERM leaves every byte before the byte
boundary alone and puts the pad codewords behind it. One more character costs at most a byte, so a
segment that cannot grow leaves less than a byte of room, and the byte boundary is then the
capacity. -/

namespace Sys2Proof.Machine

/-- The buffer holds these bits and nothing else. -/
structure HoldsOnly (bs : List Bool) (s : State) : Prop where
  len : s.len.toNat = bs.length
  bits : ∀ j b, bs[j]? = some b → Memory.readBit s.buf j = b
  rest : ∀ p, bs.length ≤ p → Memory.readBit s.buf p = false
  bytes : ∀ a, bs.length ≤ 8 * a → Memory.read s.buf a = 0#8

/-- What is appended to an empty buffer is all it holds. -/
theorem Appended.holdsOnly {bs : List Bool} {s t : State} (h : Appended bs s t)
    (hlen : s.len = 0#16) (hbuf : s.buf = []) : HoldsOnly bs t := by
  obtain ⟨htlen, hbits, hothers, hbytes⟩ := h
  have hlen0 : s.len.toNat = 0 := congrArg BitVec.toNat hlen
  simp only [hlen0, hbuf, Nat.zero_add] at htlen hbits hothers hbytes
  exact ⟨htlen, hbits, fun p hp => (hothers p (.inr hp)).trans BitVec.getLsbD_zero,
    fun a ha => hbytes a (.inr ha)⟩

/-- PCK.TERM touches no bit before the byte boundary. -/
theorem terminate_readBit {c : Nat} {s : State} (hc : c % 8 = 0) (hm : c ≤ 8 * pbufBytes)
    (hl : s.len.toNat ≤ c) {p : Nat} (hp : p < 8 * padStart c s.len.toNat) :
    Memory.readBit (terminate c s).buf p = Memory.readBit s.buf p := by
  unfold Memory.readBit
  rw [terminate_read_other hc hm hl (.inl (Nat.div_lt_of_lt_mul hp))]

theorem length_le_padStart (c l : Nat) : l ≤ 8 * padStart c l := by
  unfold padStart
  omega

theorem segStreams_length (segs : List (Mode × List Byte)) (v : Nat) :
    (segs.flatMap fun x => segStream x.1 x.2 v).length =
      (segs.map fun x => segBits x.1 x.2.length v).sum := by
  simp only [List.length_flatMap, segStream_length]

/-- PCK.INIT leaves the packer closed, with an empty buffer at the capacity of its target. -/
theorem exec_pckInit_closed {v : Nat} (e : EcLevel) {s : State} (hs : s.fault = false) (h1 : 1 ≤ v)
    (h40 : v ≤ 40) :
    ∃ u, exec (.pckInit v e) s = .next u ∧ Closed u ∧ u.len = 0#16 ∧ u.buf = [] ∧
      u.version.toNat = v ∧ capacity defaultConfig u = some (8 * defaultDataCodewords v e) := by
  have hversion : (BitVec.ofNat 6 v).toNat = v := Nat.mod_eq_of_lt (by omega)
  refine ⟨_, exec_of_effect_done (exec_pckInit v e s) hs (pckInitEffect_done h1 h40),
    ⟨hs, rfl, rfl, rfl, rfl⟩, rfl, rfl, hversion, ?_⟩
  have hcap := capacity_of_version (cfg := defaultConfig)
    (s := setPacking 0#16 [] .numeric 0#16 0#7 0 { s with version := BitVec.ofNat 6 v, ecl := e })
    (h1.trans_eq hversion.symm) (hversion.trans_le h40)
  simp only [setPacking, hversion] at hcap
  exact hcap

/-- A message that fits runs to PCK.TERM, on a buffer that holds the segments' stream only. -/
theorem message_run {v : Nat} {e : EcLevel} {segs : List (Mode × List Byte)} {s : State}
    (hs : s.fault = false) (h1 : 1 ≤ v) (h40 : v ≤ 40)
    (hsegs : ∀ x ∈ segs, x.2.length < 2 ^ lenBits x.1 v ∧ ∀ b ∈ x.2, validIn x.1 b = true)
    (hfits : (segs.map fun x => segBits x.1 x.2.length v).sum ≤ 8 * defaultDataCodewords v e) :
    ∃ u, execAll ([.pckInit v e] ++ segs.flatMap (fun x => segCommands x.1 x.2) ++ [.pckTerm]) s =
        .next (respond .none (terminate (8 * defaultDataCodewords v e) u)) ∧
      Closed u ∧ HoldsOnly (segs.flatMap fun x => segStream x.1 x.2 v) u := by
  obtain ⟨i, hinit, hiclosed, hilen, hibuf, hiversion, hicap⟩ := exec_pckInit_closed e hs h1 h40
  obtain ⟨u, hall, happends, hclosed⟩ := segments_fit hiclosed hicap hiversion segs hsegs (by
    rw [hilen]
    exact (Nat.zero_add _).trans_le hfits)
  have hholds := happends.appended.holdsOnly hilen hibuf
  have hroom : u.len.toNat ≤ 8 * defaultDataCodewords v e := by
    rw [hholds.len, segStreams_length]
    exact hfits
  have hterm := exec_of_effect_done (exec_pckTerm u) hclosed.unfaulted
    (pckTermEffect_done hclosed.rem
      ((capacity_congr happends.target.version happends.target.ecl).trans hicap) hroom)
  have hfirst : execAll [.pckInit v e] s = .next i := by simp only [execAll, hinit]
  refine ⟨u, ?_, hclosed, hholds⟩
  rw [execAll_append ((execAll_append hfirst).trans hall)]
  simp only [execAll, hterm]

/-- Settles O39: the run above, with the bytes that PCK.TERM leaves and writes. -/
theorem messageIsItsStream : Obligations.MessageIsItsStream := by
  intro v e segs s hs h1 h40 hsegs hfits
  obtain ⟨u, hrun, hclosed, hlen, hbits, hrest, hbytes⟩ := message_run hs h1 h40 hsegs hfits
  obtain ⟨-, hcount⟩ := defaultDataCodewords_bounded v e h1 h40
  have hmax : 8 * defaultDataCodewords v e ≤ 8 * pbufBytes := Nat.mul_le_mul_left 8 hcount
  have hmod : 8 * defaultDataCodewords v e % 8 = 0 := Nat.mul_mod_right 8 _
  have hdiv : 8 * defaultDataCodewords v e / 8 = defaultDataCodewords v e :=
    Nat.mul_div_cancel_left _ (by decide)
  have hroom : u.len.toNat ≤ 8 * defaultDataCodewords v e := by
    rw [hlen, segStreams_length]
    exact hfits
  have hbefore := fun p => terminate_readBit (p := p) hmod hmax hroom
  have hpads := fun a => terminate_read_pad (a := a) hclosed.bufWf hmod hmax hroom
  have hbeyond := fun a => terminate_read_other (a := a) hmod hmax hroom
  have hinside := length_le_padStart (8 * defaultDataCodewords v e) u.len.toNat
  rw [hdiv] at hpads hbeyond
  rw [hlen] at hbefore hpads hinside
  refine ⟨_, hrun, (terminate_fault _ u).trans hclosed.unfaulted, terminate_len hmod hmax hroom,
    fun j b hj => ?stream, fun p hp hp' => (hbefore p hp').trans (hrest p hp), hpads,
    fun a ha => ?beyond⟩
  case stream =>
    have hjlen := (List.getElem?_eq_some_iff.mp hj).1
    exact (hbefore j (hjlen.trans_le hinside)).trans (hbits j b hj)
  case beyond =>
    rw [segStreams_length] at hbytes
    exact (hbeyond a (.inr ha)).trans (hbytes a (hfits.trans (Nat.mul_le_mul_left 8 ha)))

/-! ### A maximal segment (R145) -/

/-- One more character costs at most a byte. -/
theorem dataBits_succ_le (m : Mode) (l : Nat) : dataBits m (l + 1) ≤ dataBits m l + 8 := by
  obtain ⟨hnumeric, halnum, hbyte⟩ := dataBitsIsTheCostFunction l
  obtain ⟨hnumeric', halnum', hbyte'⟩ := dataBitsIsTheCostFunction (l + 1)
  cases m <;> omega

/-- Settles O40: the message of this one segment. -/
theorem maximalSegmentLeavesNoPadCodeword : Obligations.MaximalSegmentLeavesNoPadCodeword := by
  intro m v e chars s hs h1 h40 hvalid hcount hfits hmaximal
  have hgrow := dataBits_succ_le m chars.length
  have hroom : 8 * defaultDataCodewords v e - segBits m chars.length v < 8 := by
    unfold segBits at hfits hmaximal ⊢
    omega
  have hstream : ([(m, chars)].flatMap fun x => segStream x.1 x.2 v) = segStream m chars v :=
    List.flatMap_singleton ..
  obtain ⟨t, hrun, hfault, hlen, -, hzero, -, hbeyond⟩ := messageIsItsStream v e [(m, chars)] s hs
    h1 h40 (List.forall_mem_singleton.mpr ⟨hcount, hvalid⟩) (by simpa using hfits)
  rw [List.flatMap_singleton] at hrun
  rw [hstream, segStream_length] at hzero
  refine ⟨hroom, t, hrun, hfault, hlen, fun p hp => ?_⟩
  rcases Nat.lt_or_ge p (8 * defaultDataCodewords v e) with hinside | houtside
  · exact hzero p hp (by omega)
  · unfold Memory.readBit
    rw [hbeyond (p / 8) (by omega), BitVec.getLsbD_zero]

end Sys2Proof.Machine
end
